-- ==== Sys2Proof/Word.lean ====
section
/-! DEFINITION. The word types of the block and its fixed widths.
Bit 0 is the least significant bit and every value is unsigned (00_scope.md R10). A value whose width is a
parameter of the block (R7) is a `Nat`: the gap counter, and a channel input of `PACK`. -/

namespace Sys2Proof

/-- A byte: 8 bits, unsigned (00_scope.md R12). -/
abbrev Byte := BitVec 8

/-- A channel value on the wire: `CH_BITS` = 11 bits (00_scope.md R6, R12). -/
abbrev Chan := BitVec 11

/-- The capture count `nbytes`: 5 bits (10_state.md R20). -/
abbrev Count := BitVec 5

/-- The step key `K[18:0]` (30_encoding.md R81). -/
abbrev StepKey := BitVec 19

/-- The dispatch key `E[13:0]` (30_encoding.md R81). -/
abbrev DispatchKey := BitVec 14

/-- The cycle input word `CIW[11:0]` (30_encoding.md R87). -/
abbrev Ciw := BitVec 12

/-- The 176-bit data string `D[175:0]` of wire bytes 1..22 (30_encoding.md R73). -/
abbrev DataBits := BitVec 176

end Sys2Proof
end

