-- ==== Sys2Proof/Config.lean ====
section
/-! DEFINITION. The fixed constants (00_scope.md R6), the implementation parameters (R7) and the one
value the spec leaves OPEN. -/

namespace Sys2Proof.Config

/-- `FRAME_LEN`: bytes in one wire frame (R6). -/
def frameLen : Nat := 25
/-- `HEADER`: the value of byte 0 (R6, 30_encoding.md R72). -/
def header : Byte := 0x0F#8
/-- `FOOTER`: the value of byte 24 (R6, 30_encoding.md R72). -/
def footer : Byte := 0x00#8
/-- `NUM_CH`: proportional channels per frame (R6). -/
def numCh : Nat := 16
/-- `CH_BITS`: bits per channel (R6). -/
def chBits : Nat := 11
/-- `CH_MASK`: the 11-bit channel mask (R6, 40_codec.md R101). -/
def chMask : Nat := 0x7FF
/-- `DATA_FIRST` and `DATA_LAST`: the wire bytes that hold channel data (R6). -/
def dataFirst : Nat := 1
def dataLast : Nat := 22
/-- `STATUS_BYTE`: the wire byte that holds switches and flags (R6). -/
def statusByte : Nat := 23
/-- `FOOTER_BYTE`: the wire byte that holds the footer (R6). -/
def footerByte : Nat := 24

/-- The implementation parameters that have a value (R7).
They are fixed when the block is instantiated and cannot be read or written at run time (10_state.md
R30); the model carries one `Params` in the state, which no step changes, so that a claim about every
state is a claim about every setting of them (notes/assumptions/4.md). -/
structure Params where
  /-- `GAP_THRESHOLD`, in time units. -/
  gapThreshold : Nat
  /-- `TICKS_PER_UNIT`: `time_tick` pulses per time unit. -/
  ticksPerUnit : Nat
  /-- `GAP_CNT_WIDTH`: width in bits of the saturating gap counter. -/
  gapCntWidth  : Nat
  /-- `CH_IN_WIDTH`: width in bits of each channel input of `PACK` before masking. -/
  chInWidth    : Nat
  /-- `EXPOSE_REJECT`: whether the optional output `frame_rejected` exists. -/
  exposeReject : Bool
  /-- `HAS_DEDUP`: whether the `DEDUP` stage is present. -/
  hasDedup : Bool
  deriving DecidableEq, Repr

/-- The value this hardware takes for each parameter (R7). -/
def defaultParams : Params :=
  { gapThreshold := 3, ticksPerUnit := 1, gapCntWidth := 8, chInWidth := 16, exposeReject := false, hasDedup := true }

/-- `GAP_LIMIT = GAP_THRESHOLD * TICKS_PER_UNIT` (R7). -/
def Params.gapLimit (p : Params) : Nat := p.gapThreshold * p.ticksPerUnit

/-- The greatest value of the gap counter, `2^GAP_CNT_WIDTH - 1` (10_state.md R26). -/
def Params.gapMax (p : Params) : Nat := 2 ^ p.gapCntWidth - 1

/-- The constraint R7 puts on `GAP_CNT_WIDTH`: `2^GAP_CNT_WIDTH - 1 > GAP_LIMIT`. -/
abbrev Params.valid (p : Params) : Prop := p.gapLimit < p.gapMax

/-- `TIME_UNIT`, the duration of one time unit, is OPEN (R7): a free value, in clock cycles. It is positive,
since the tick period made from it divides a time (42_resync.md R174; notes/assumptions/7.md). Nothing in the
step depends on it; only the environment's tick source does. -/
opaque timeUnit : PNat

/-- What byte `i` of `buf` holds when a session starts: unspecified, a draw of the model (10_state.md R32;
93_implementation_defined.md U1). A free value: a claim about it holds for every draw
(notes/assumptions/1.md). -/
opaque bufDraw : Nat → Byte

/-- What byte `i` of `dd_last` holds when a session starts: unspecified, a draw of the model (10_state.md
R32; 93_implementation_defined.md U2; notes/assumptions/1.md). -/
opaque ddLastDraw : Nat → Byte

end Sys2Proof.Config
end

