-- ==== Sys2Proof/Syntax.lean ====
section
/-! DEFINITION. The operations of spec/opcode_table.json, one constructor a row, and the record types
their operands have (00_scope.md R12). -/

namespace Sys2Proof

/-- The enumeration `State` of R12: hunting for a header, or capturing a frame. Encoded 0 and 1. -/
inductive SyncState where
  | idle
  | capturing
  deriving DecidableEq, Repr

/-- A wire frame: an array of 25 bytes, indices 0..24 (R12). -/
abbrev Payload := Vector Byte 25

/-- One decoded set of channel, switch and status values (R12). -/
structure Frame where
  channels  : Vector Chan 16
  switches  : Vector Bool 2
  frameLost : Bool
  failsafe  : Bool
  deriving DecidableEq, Repr

/-- The input record of `PACK`: a `Frame` whose channels are `CH_IN_WIDTH` bits wide, a parameter of
the block (R12, R7). -/
structure FrameIn where
  channels  : Vector Nat 16
  switches  : Vector Bool 2
  frameLost : Bool
  failsafe  : Bool
  deriving DecidableEq, Repr

/-- The operations of the block.

The first five are the pre-step rows of 30_encoding.md R82; their arguments are the letters of the
row's `encoding` in the opcode table, in its order (`e` comm_error, `t` time_tick, `v` in_valid,
`g` gap_exceeded, `s` ctx.state, `n` ctx.nbytes, `b` in_byte), the don't-care bits too, so that no bit
of a key is lost by decoding. The next five are the dispatch rows of R83, likewise. The last six have
no key (R85): their arguments are the fields of their table row. -/
inductive Instr where
  | reset (e t v g : Bool) (s : SyncState) (n : Count) (b : Byte)
  | errFlush (t v g : Bool) (s : SyncState) (n : Count) (b : Byte)
  | noByte (t g : Bool) (s : SyncState) (n : Count) (b : Byte)
  | gapFlush (t : Bool) (s : SyncState) (n : Count) (b : Byte)
  | guard (t : Bool) (s : SyncState) (n : Count) (b : Byte)
  | huntHdr
  | huntSkip (b : Byte)
  | capture (n : Count) (b : Byte)
  | footerOk
  | footerBad (b : Byte)
  | ingest (rst err vld gx : Bool) (b : Byte)
  | pack (f : FrameIn)
  | unpack (p : Payload)
  | gapTick (rst commError inValid timeTick : Bool)
  | ingestBatch (gx : Bool) (bs : List Byte)
  | dedup (p : Payload)
  deriving DecidableEq, Repr

end Sys2Proof
end

