-- ==== Sys2Proof/WellFormed.lean ====
section
/-! DEFINITION. Which operand values the conditions of the opcode table admit. -/

namespace Sys2Proof

/-- The `condition` of the instruction's row in spec/opcode_table.json, on its operands
(30_encoding.md R82 row 5; R83 rows 2, 3 and 5). -/
def Instr.wellFormed (i : Instr) : Bool :=
  match i with
  | .reset _ _ _ _ _ _ _ => true
  | .errFlush _ _ _ _ _ _ => true
  | .noByte _ _ _ _ _ => true
  | .gapFlush _ _ _ _ => true
  | .guard _ _ n _ => decide (25 ≤ n.toNat)
  | .huntHdr => true
  | .huntSkip b => decide (b ≠ Config.header)
  | .capture n _ => decide (1 ≤ n.toNat ∧ n.toNat ≤ 23)
  | .footerOk => true
  | .footerBad b => decide (b ≠ Config.footer)
  | .ingest _ _ _ _ _ => true
  | .pack _ => true
  | .unpack _ => true
  | .gapTick _ _ _ _ => true
  | .ingestBatch _ _ => true
  | .dedup _ => true

end Sys2Proof
end

