-- ==== Sys2Proof/Decode.lean ====
section
/-! DEFINITION. The decode of one step (30_encoding.md R81 to R84) and, after it, the encoder.
The block decodes no stored words: its decode key is the step key `K[18:0]`, made from the inputs of
a cycle and the context, and the dispatch key `E[13:0]`, the part of `K` the byte rules decode. -/

namespace Sys2Proof

/-! ## Fields -/

/-- The encoding of the enumeration: IDLE = 0, CAPTURING = 1 (00_scope.md R12). -/
def stateBit (s : SyncState) : BitVec 1 :=
  match s with
  | .idle => 0#1
  | .capturing => 1#1

/-- The state a state bit stands for (00_scope.md R12). -/
def bitState (b : Bool) : SyncState := if b then .capturing else .idle

/-- Bits 7..0, `B` (R81). -/
def keyByte (k : StepKey) : Byte := k.extractLsb' 0 8
/-- Bits 12..8, `N` (R81). -/
def keyCount (k : StepKey) : Count := k.extractLsb' 8 5
/-- Bit 13, `S` (R81). -/
def keyState (k : StepKey) : SyncState := bitState (k.getLsbD 13)
/-- Bit 14, `GX` (R81). -/
def keyGx (k : StepKey) : Bool := k.getLsbD 14
/-- Bit 15, `VLD` (R81). -/
def keyVld (k : StepKey) : Bool := k.getLsbD 15
/-- Bit 16, `TCK` (R81). -/
def keyTck (k : StepKey) : Bool := k.getLsbD 16
/-- Bit 17, `ERR` (R81). -/
def keyErr (k : StepKey) : Bool := k.getLsbD 17
/-- Bit 18, `RST` (R81). -/
def keyRst (k : StepKey) : Bool := k.getLsbD 18

/-- Bits 13..0 of `K`: the dispatch key when there is no pre-step (R81, R82 row 6). -/
def keyDispatch (k : StepKey) : DispatchKey := k.extractLsb' 0 14

/-- `B` of a dispatch key (R81). -/
def dispByte (e : DispatchKey) : Byte := e.extractLsb' 0 8
/-- `N'` of a dispatch key (R81). -/
def dispCount (e : DispatchKey) : Count := e.extractLsb' 8 5
/-- `S'` of a dispatch key (R81). -/
def dispState (e : DispatchKey) : SyncState := bitState (e.getLsbD 13)

/-- `E = {S', N', B}` (R81). -/
def mkDispatch (s : SyncState) (n : Count) (b : Byte) : DispatchKey := stateBit s ++ n ++ b

/-- `K = {RST, ERR, TCK, VLD, GX, S, N, B}` (R81). -/
def mkKey (rst err tck vld gx : Bool) (s : SyncState) (n : Count) (b : Byte) : StepKey :=
  BitVec.ofBool rst ++ BitVec.ofBool err ++ BitVec.ofBool tck ++ BitVec.ofBool vld ++ BitVec.ofBool gx
    ++ stateBit s ++ n ++ b

/-! ## The decoder -/

/-- Why a key stands for no operation. -/
inductive DecodeError where
  /-- The dispatch key is matched by no row of R83: the context is outside the invariant (R84). -/
  | unmatchedKey (e : DispatchKey)
  deriving DecidableEq, Repr

/-- Whether a row's mask and match, as the table writes them, match a key. -/
def rowMatches {w : Nat} (mask pat key : BitVec w) : Bool := key &&& mask == pat

/-- The dispatch decode: the first matching row of R83, top to bottom. -/
def decodeDispatch (e : DispatchKey) : Except DecodeError Instr :=
  if rowMatches 0x3FFF#14 0x000F#14 e then .ok .huntHdr
  else if rowMatches 0x3F00#14 0x0000#14 e && decide (dispByte e ≠ 0x0F#8) then
    .ok (.huntSkip (dispByte e))
  else if rowMatches 0x2000#14 0x2000#14 e
      && decide (1 ≤ (dispCount e).toNat ∧ (dispCount e).toNat ≤ 23) then
    .ok (.capture (dispCount e) (dispByte e))
  else if rowMatches 0x3FFF#14 0x3800#14 e then .ok .footerOk
  else if rowMatches 0x3F00#14 0x3800#14 e && decide (dispByte e ≠ 0x00#8) then
    .ok (.footerBad (dispByte e))
  else .error (.unmatchedKey e)

/-- The pre-step decode: the first matching row of R82, top to bottom. Row 6 has no operation of its
own: the dispatch decode runs on `(S, N, B)`. -/
def decodeKey (k : StepKey) : Except DecodeError Instr :=
  if rowMatches 0x40000#19 0x40000#19 k then
    .ok (.reset (keyErr k) (keyTck k) (keyVld k) (keyGx k) (keyState k) (keyCount k) (keyByte k))
  else if rowMatches 0x60000#19 0x20000#19 k then
    .ok (.errFlush (keyTck k) (keyVld k) (keyGx k) (keyState k) (keyCount k) (keyByte k))
  else if rowMatches 0x68000#19 0x00000#19 k then
    .ok (.noByte (keyTck k) (keyGx k) (keyState k) (keyCount k) (keyByte k))
  else if rowMatches 0x6C000#19 0x0C000#19 k then
    .ok (.gapFlush (keyTck k) (keyState k) (keyCount k) (keyByte k))
  else if rowMatches 0x6C000#19 0x08000#19 k && decide (25 ≤ (keyCount k).toNat) then
    .ok (.guard (keyTck k) (keyState k) (keyCount k) (keyByte k))
  else decodeDispatch (keyDispatch k)

/-- The two key formats of the opcode table: `K19` and `E14`. -/
inductive Word where
  | key (k : StepKey)
  | dispatch (e : DispatchKey)
  deriving DecidableEq, Repr

/-- The decoder on a word of either format. -/
def decodeWord (w : Word) : Except DecodeError Instr :=
  match w with
  | .key k => decodeKey k
  | .dispatch e => decodeDispatch e

/-- What the decoder reads from a table word of `nbits` bits: the table's `E14` rows take two bytes,
its `K19` rows three. A word with a bit above its format is no key. -/
def decodeTableWord (nbits w : Nat) : Option Instr :=
  if nbits ≤ 16 then
    if w < 2 ^ 14 then (decodeDispatch (BitVec.ofNat 14 w)).toOption else none
  else
    if w < 2 ^ 19 then (decodeKey (BitVec.ofNat 19 w)).toOption else none

/-! ## The encoder -/

/-- The word of an instruction, from the `encoding` strings of the table; none for the six operations
that no key selects (R85). -/
def encode (i : Instr) : Option Word :=
  match i with
  | .reset e t v g s n b => some (.key (mkKey true e t v g s n b))
  | .errFlush t v g s n b => some (.key (mkKey false true t v g s n b))
  | .noByte t g s n b => some (.key (mkKey false false t false g s n b))
  | .gapFlush t s n b => some (.key (mkKey false false t true true s n b))
  | .guard t s n b => some (.key (mkKey false false t true false s n b))
  | .huntHdr => some (.dispatch 0x000F#14)
  | .huntSkip b => some (.dispatch (mkDispatch .idle 0#5 b))
  | .capture n b => some (.dispatch (mkDispatch .capturing n b))
  | .footerOk => some (.dispatch 0x3800#14)
  | .footerBad b => some (.dispatch (mkDispatch .capturing 24#5 b))
  | .ingest _ _ _ _ _ => none
  | .pack _ => none
  | .unpack _ => none
  | .gapTick _ _ _ _ => none
  | .ingestBatch _ _ => none
  | .dedup _ => none

/-! ## The cycle input word -/

/-- `CIW = {rst, comm_error, time_tick, in_valid, in_byte}` (R87). -/
def mkCiw (rst err tck vld : Bool) (b : Byte) : Ciw :=
  BitVec.ofBool rst ++ BitVec.ofBool err ++ BitVec.ofBool tck ++ BitVec.ofBool vld ++ b

/-- Bit 11 of a cycle input word: `rst` (R87). -/
def ciwRst (c : Ciw) : Bool := c.getLsbD 11
/-- Bit 10: `comm_error` (R87). -/
def ciwErr (c : Ciw) : Bool := c.getLsbD 10
/-- Bit 9: `time_tick` (R87). -/
def ciwTck (c : Ciw) : Bool := c.getLsbD 9
/-- Bit 8: `in_valid` (R87). -/
def ciwVld (c : Ciw) : Bool := c.getLsbD 8
/-- Bits 7..0: `in_byte` (R87). -/
def ciwByte (c : Ciw) : Byte := c.extractLsb' 0 8

end Sys2Proof
end

