-- ==== Sys2Proof/Machine/State.lean ====
section
/-! DEFINITION. The state of the block as plain data: the synchronizer context (10_state.md R20), the
gap counter (R26), the output registers (R28), the duplicate-suppression stage (R29), the held codec
inputs (R40, R87), the pending inputs of the environment, and the observation a model records
(41_sync.md R130, 70_reset_and_hazards.md R246). -/

namespace Sys2Proof.Machine

/-- A byte memory of 25 cells, one byte each, indices 0..24 (20_memory.md R50). Every cell holds a byte, and
there is no other cell, so equal memories are equal data (notes/assumptions/1.md). -/
abbrev Memory := Vector Byte 25

/-- The synchronizer context `{state, nbytes, buf}` (10_state.md R20). -/
structure Context where
  state  : SyncState
  nbytes : Count
  buf    : Memory
  deriving DecidableEq, Repr

/-- The names of the operations a `SYNC` step performs (41_sync.md R130). -/
inductive Op where
  | reset
  | errFlush
  | noByte
  | gapFlush
  | guard
  | huntHdr
  | huntSkip
  | capture
  | footerOk
  | footerBad
  deriving DecidableEq, Repr

/-- The error taxonomy (60_exceptions.md R201). -/
inductive Event where
  | none
  | huntDiscard
  | footerMismatch
  | gapTimeout
  | commError
  | sessionReset
  | heldDiscard
  deriving DecidableEq, Repr

/-- The output ports of the block (10_state.md R40). -/
inductive OutPort where
  | txPayload
  | frameReady
  | frameRejected
  | frameAvail
  | rxPayload
  | rxCh (i : Fin 16)
  | rxSw (k : Fin 2)
  | rxFrameLost
  | rxFailsafe
  | syncState
  | syncNbytes
  | ddNotify
  | ddPayload
  deriving DecidableEq, Repr

/-- A value on an output port, at the port's width (10_state.md R40). -/
inductive PortValue where
  | bit (b : Bool)
  | count (n : Count)
  | chan (c : Chan)
  | payload (p : Payload)
  deriving DecidableEq, Repr

/-- What the environment does next (00_scope.md R9, 70_reset_and_hazards.md R245). -/
inductive Input where
  /-- The byte source presents one cycle input word; the clock ticks once (42_resync.md R190). -/
  | cycle (c : Ciw)
  /-- The byte source delivers a buffer in one transaction (42_resync.md R180). -/
  | batch (bs : List Byte)
  /-- The frame inputs `tx_*` are driven with `f` (10_state.md R40, 40_codec.md R100). -/
  | pack (f : FrameIn)
  /-- The consumer applies `UNPACK` to a payload (40_codec.md R110, 42_resync.md R182). -/
  | unpack (p : Payload)
  /-- The consumer reads an output port (10_state.md R40). -/
  | read (p : OutPort)
  /-- Two feeding agents present a cycle input in the same step (20_memory.md R61). -/
  | contended (c d : Ciw)
  deriving DecidableEq, Repr

/-- One delivered or notified payload, with the index of the input that completed it
(70_reset_and_hazards.md R246). -/
structure Delivery where
  index   : Nat
  payload : Payload
  deriving DecidableEq, Repr

/-- What a model records of a run; no part of it is hardware (60_exceptions.md R201;
70_reset_and_hazards.md R246; notes/assumptions/5.md). -/
structure Obs where
  /-- The operations of the last `SYNC` step, pre-steps first (41_sync.md R130). -/
  ops       : List Op
  /-- How many cycle inputs the run has taken: the index of the next one. -/
  index     : Nat
  /-- The payloads of the `FOOTER_OK` steps, oldest first; also the calls of `cb` (42_resync.md R180). -/
  delivered : List Delivery
  /-- The payloads `DEDUP` notified, oldest first. -/
  notified  : List Delivery
  /-- The value the consumer's last port read gave. -/
  lastRead  : Option PortValue
  deriving DecidableEq, Repr

/-- The whole machine. -/
structure State where
  /-- The parameters of this instance; no step changes them (10_state.md R30). -/
  cfg            : Config.Params
  /-- The context of `SYNC` (10_state.md R20). -/
  ctx            : Context
  /-- `gap_cnt` (10_state.md R26), of `GAP_CNT_WIDTH` bits: a count that saturates at the width. -/
  gapCnt         : Nat
  /-- `frame_ready_q` (10_state.md R28). -/
  frameReadyQ    : Bool
  /-- `frame_rejected_q` (10_state.md R28). -/
  frameRejectedQ : Bool
  /-- `dd_last[0..24]` (10_state.md R29). -/
  ddLast         : Memory
  /-- `dd_have` (10_state.md R29). -/
  ddHave         : Bool
  /-- `dd_notify_q` (10_state.md R29). -/
  ddNotifyQ      : Bool
  /-- The values the environment holds on the ports `tx_*` (10_state.md R40, 30_encoding.md R87). -/
  tx             : FrameIn
  /-- The result of the consumer's last `UNPACK` call: the model's own field, since the block stores
  no result of it (10_state.md R30; notes/assumptions/6.md). -/
  unpackOut      : Frame
  /-- What the environment does next, the earliest first (notes/assumptions/2.md). -/
  inputs         : List Input
  /-- The observation of the run. -/
  obs            : Obs
  deriving DecidableEq, Repr

/-- The model's fault outcomes (60_exceptions.md R204). None is a behaviour of the hardware. -/
inductive Fault where
  /-- Raised by every operation of a `SYNC` step but `RESET`, by `INGEST` and by `INGEST_BATCH`, in a context
  outside 10_state.md R21 (30_encoding.md R84), and by `CAPTURE` on an ill-formed count outside the buffer.
  SAFE: no run from reset reaches such a context. -/
  | invariantViolation
  /-- Raised by a step in which two agents feed the context (20_memory.md R61). SAFE: the source
  calls it undefined and the hardware's single port excludes it. -/
  | concurrentFeed
  /-- Raised by the consumer's read of `rx_payload` or `rx_*` while `frame_avail = 0`, or of
  `dd_payload` while `dd_have = 0` (10_state.md R40). SAFE: the hardware drives some value there and
  the model declines to name it. -/
  | undefinedOutputRead
  deriving DecidableEq, Repr

/-- Why a step has no meaning. -/
inductive Refusal where
  /-- An operation of the opcode table that has no meaning yet; raised by `exec` alone. SAFE. -/
  | notModelled (mnemonic : String)
  /-- Raised by the consumer's read of a port that this instance does not have: `frame_rejected`
  without `EXPOSE_REJECT`, `dd_notify` or `dd_payload` without `HAS_DEDUP` (10_state.md R40). SAFE. -/
  | absentPort (p : OutPort)
  deriving DecidableEq, Repr

/-- A `FrameIn` of zeros: what the model takes the environment to hold on `tx_*` at reset
(DESIGN CHOICE, notes/assumptions/3.md). -/
def zeroFrameIn : FrameIn :=
  { channels := Vector.replicate 16 0, switches := Vector.replicate 2 false,
    frameLost := false, failsafe := false }

/-- A `Frame` of zeros: the reset value of the model's own field `unpackOut` (DESIGN CHOICE,
notes/assumptions/6.md). -/
def zeroFrame : Frame :=
  { channels := Vector.replicate 16 0#11, switches := Vector.replicate 2 false,
    frameLost := false, failsafe := false }

/-- The state right after the reset edge that starts a session (10_state.md R32,
70_reset_and_hazards.md R230, R232). The two memories hold draws, whatever they are (R32). The reset edge
was input 0, so the next input has index 1. -/
def State.reset : State :=
  { cfg := Config.defaultParams
    ctx := { state := .idle, nbytes := 0#5, buf := Vector.ofFn fun i : Fin 25 => Config.bufDraw i.val }
    gapCnt := 0
    frameReadyQ := false
    frameRejectedQ := false
    ddLast := Vector.ofFn fun i : Fin 25 => Config.ddLastDraw i.val
    ddHave := false
    ddNotifyQ := false
    tx := zeroFrameIn
    unpackOut := zeroFrame
    inputs := []
    obs := { ops := [.reset], index := 1, delivered := [], notified := [], lastRead := none } }

end Sys2Proof.Machine
end

