-- ==== Sys2Proof/Machine/Ops.lean ====
section
/-! DEFINITION. The named operations over the memories, the context and the output registers, the
forced reset (60_exceptions.md R208), which stands where a trap entry would be, and the update of the
duplicate-suppression stage. -/

namespace Sys2Proof.Machine

/-! ## Outcomes -/

/-- Go on from a next state; a fault or a refusal stops. -/
def andThen (o : Host.Outcome State Fault Refusal)
    (f : State → Host.Outcome State Fault Refusal) : Host.Outcome State Fault Refusal :=
  match o with
  | .next s => f s
  | .fault r => .fault r
  | .refused r => .refused r

/-! ## Byte memories: `BufRead` and `BufWrite` (00_scope.md R11) -/

/-- `BufRead(a)`: the byte at index `a`. -/
def Memory.read (m : Memory) (a : Fin 25) : Byte := m[a]

/-- `BufWrite(a, v)`: exactly one byte, at exactly one index (20_memory.md R51). An index outside 0..24 has no
cell. -/
def Memory.write (m : Memory) (a : Nat) (v : Byte) : Memory := m.setIfInBounds a v

/-! ## Arithmetic -/

/-- `sat_inc_W(v)`: `v + 1` if `v < 2^W - 1`, else `v` (00_scope.md R11). -/
def satInc (w : Nat) (v : Nat) : Nat := if v < 2 ^ w - 1 then v + 1 else v

/-! ## The context -/

/-- The context invariant (10_state.md R21). -/
abbrev Context.legal (x : Context) : Prop :=
  (x.state = .idle ∧ x.nbytes = 0#5) ∨
    (x.state = .capturing ∧ 1 ≤ x.nbytes.toNat ∧ x.nbytes.toNat ≤ 25)

/-- The forced reset (60_exceptions.md R208): `state <- IDLE`, `nbytes <- 0`, `buf` kept. It saves
nothing and goes to no vector, and there is no return from it (R209). -/
def Context.flush (x : Context) : Context := { x with state := .idle, nbytes := 0#5 }

/-- `BufWrite(i, b)` and the next count `n`, in state CAPTURING (41_sync.md R136, R138 to R140). -/
def Context.append (x : Context) (i : Nat) (b : Byte) (n : Count) : Context :=
  { state := .capturing, nbytes := n, buf := Memory.write x.buf i b }

/-- Write the context. -/
def State.setCtx (s : State) (x : Context) : State := { s with ctx := x }

/-- Write the gap counter. -/
def State.setGap (s : State) (g : Nat) : State := { s with gapCnt := g }

/-- What a `SYNC` step other than `RESET` gives: in a context outside the invariant it has no successor
(10_state.md R21, 30_encoding.md R84; the spec's decision D33). -/
def State.ifLegal (s : State) (o : Host.Outcome State Fault Refusal) : Host.Outcome State Fault Refusal :=
  if s.ctx.legal then o else .fault .invariantViolation

/-! ## The outputs of a `SYNC` step -/

/-- What a `SYNC` step returns: the output registers take `ready` and `reject` (10_state.md R28), and
the model records the operations performed (41_sync.md R130). -/
def State.signal (s : State) (ops : List Op) (ready reject : Bool) : State :=
  { s with frameReadyQ := ready, frameRejectedQ := reject, obs := { s.obs with ops := ops } }

/-- Record the captured payload as delivered by the current input (70_reset_and_hazards.md R246). -/
def State.deliver (s : State) : State :=
  { s with obs := { s.obs with
      delivered := s.obs.delivered ++ [{ index := s.obs.index, payload := s.ctx.buf }] } }

/-- One more cycle input has been taken. -/
def State.countInput (s : State) : State :=
  { s with obs := { s.obs with index := s.obs.index + 1 } }

/-! ## The operations of a `SYNC` step, each over the pre-steps already performed -/

/-- RESET (70_reset_and_hazards.md R231): the registers of the whole block. `buf` and `dd_last` keep
their bytes; the `DEDUP` fields exist only where `HAS_DEDUP`. -/
def State.sessionReset (s : State) : State :=
  { s with
      ctx := s.ctx.flush
      gapCnt := 0
      frameReadyQ := false
      frameRejectedQ := false
      ddHave := if s.cfg.hasDedup then false else s.ddHave
      ddNotifyQ := if s.cfg.hasDedup then false else s.ddNotifyQ
      obs := { s.obs with ops := [.reset] } }

/-- ERR_FLUSH (41_sync.md R132). -/
def State.errorFlush (s : State) : State :=
  (s.setCtx s.ctx.flush).signal [.errFlush] false false

/-- NO_BYTE (41_sync.md R135): the context is unchanged. -/
def State.noByte (s : State) : State := s.signal [.noByte] false false

/-- HUNT_HDR (41_sync.md R136). -/
def State.huntHeader (pre : List Op) (s : State) : State :=
  (s.setCtx (s.ctx.append 0 Config.header 1#5)).signal (pre ++ [.huntHdr]) false false

/-- HUNT_SKIP (41_sync.md R137): the context returns to a clean (IDLE, 0), `buf` unchanged. -/
def State.huntSkip (pre : List Op) (s : State) : State :=
  (s.setCtx s.ctx.flush).signal (pre ++ [.huntSkip]) false false

/-- The hunt rules on byte `b` (source rule 2, 41_sync.md R131). -/
def State.hunt (pre : List Op) (b : Byte) (s : State) : State :=
  if b = Config.header then s.huntHeader pre else s.huntSkip pre

/-- CAPTURE (41_sync.md R138) at count `n`. There is no cell outside 0..24 to write (20_memory.md
R50). -/
def State.captureByte (n : Count) (b : Byte) (s : State) : Host.Outcome State Fault Refusal :=
  if n.toNat < Config.frameLen then
    .next ((s.setCtx (s.ctx.append n.toNat b (n + 1#5))).signal [.capture] false false)
  else .fault .invariantViolation

/-- FOOTER_OK (41_sync.md R139): the 25th byte is the footer, and the frame is ready. -/
def State.acceptFrame (s : State) : State :=
  ((s.setCtx (s.ctx.append 24 Config.footer 25#5)).signal [.footerOk] true false).deliver

/-- FOOTER_BAD (41_sync.md R140): the 25th byte is not the footer; `reject` exists only where
`EXPOSE_REJECT`. The reset is left to the next byte (70_reset_and_hazards.md R243). -/
def State.rejectFrame (b : Byte) (s : State) : State :=
  (s.setCtx (s.ctx.append 24 b 25#5)).signal [.footerBad] false s.cfg.exposeReject

/-! ## The duplicate-suppression stage -/

/-- DEDUP of a delivered payload (42_resync.md R186): notify the first
payload since reset, and one that differs in some byte from the last delivered one. -/
def State.dedupDelivery (d : Delivery) (s : State) : State :=
  let notify := !s.ddHave || decide (d.payload ≠ s.ddLast)
  { s with
      ddLast := d.payload
      ddHave := true
      ddNotifyQ := notify
      obs := { s.obs with notified := if notify then s.obs.notified ++ [d] else s.obs.notified } }

end Sys2Proof.Machine
end

