-- ==== Sys2Proof/Machine/Operands.lean ====
section
/-! DEFINITION. Operand assembly: the step key of a cycle (30_encoding.md R81), the data string of a
wire frame (R73, 20_memory.md R54), channel extraction (R75), byte assembly (R76) and the status byte
(R77). -/

namespace Sys2Proof.Machine

/-! ## The step key -/

/-- `gap_exceeded = (gap_cnt > GAP_LIMIT)`, strict (10_state.md R27, 42_resync.md R172). -/
def gapExceeded (s : State) : Bool := decide (s.cfg.gapLimit < s.gapCnt)

/-- The step key of the cycle input `c` in state `s` (30_encoding.md R81). -/
def stepKey (c : Ciw) (s : State) : StepKey :=
  mkKey (ciwRst c) (ciwErr c) (ciwTck c) (ciwVld c) (gapExceeded s) s.ctx.state s.ctx.nbytes (ciwByte c)

/-! ## The data string `D[175:0]` -/

/-- Fields of `w` bits laid end to end in `D`, the first lowest: field `i` starts at bit `w*i`. -/
def layFields {w : Nat} : List (BitVec w) → DataBits
  | [] => 0#176
  | x :: xs => x.zeroExtend 176 ||| (layFields xs <<< w)

/-- `D` from the sixteen channels: channel `i` bit `k` is `D[11*i + k]` (30_encoding.md R73,
40_codec.md R100). -/
def dataOfChannels (ch : Vector Chan 16) : DataBits := layFields ch.toList

/-- `D = {p[22], p[21], ..., p[2], p[1]}`, `p[1]` lowest (40_codec.md R110, 30_encoding.md R73). -/
def dataOfPayload (p : Payload) : DataBits :=
  layFields ((p.toList.drop Config.dataFirst).take Config.dataLast)

/-- Channel `i` is `D[11*i + 10 : 11*i]` (30_encoding.md R73). -/
def channelOfData (d : DataBits) (i : Nat) : Chan := d.extractLsb' (11 * i) 11

/-- Wire byte `j`, for `j` = 1..22, is `D[8*(j-1)+7 : 8*(j-1)]` (40_codec.md R100). -/
def byteOfData (d : DataBits) (j : Nat) : Byte := d.extractLsb' (8 * (j - 1)) 8

/-! ## Masking and the status byte -/

/-- `f.channels[i] & 0x7FF`, as 11 bits (40_codec.md R101). -/
def maskChannel (c : Nat) : Chan := BitVec.ofNat 11 (c &&& Config.chMask)

/-- A channel value on the port `tx_ch[i]`, which is `w` = `CH_IN_WIDTH` bits wide (10_state.md R40). -/
def portChannel (w : Nat) (c : Nat) : Nat := c % 2 ^ w

/-- A frame driven on the ports `tx_*` (10_state.md R40). -/
def portFrame (w : Nat) (f : FrameIn) : FrameIn := { f with channels := f.channels.map (portChannel w) }

/-- A `FrameIn` of the block: each channel is `w` = `CH_IN_WIDTH` bits wide (00_scope.md R12). -/
abbrev frameFits (w : Nat) (f : FrameIn) : Prop := ∀ i : Fin 16, f.channels[i] < 2 ^ w

/-- The status byte `{0000, failsafe, frame_lost, switch1, switch0}` (30_encoding.md R77). -/
def statusByteOf (switches : Vector Bool 2) (frameLost failsafe : Bool) : Byte :=
  0#4 ++ BitVec.ofBool failsafe ++ BitVec.ofBool frameLost ++ BitVec.ofBool switches[1]
    ++ BitVec.ofBool switches[0]

/-! ## The spec's equations, one a channel and one a byte -/

/-- A byte zero-extended to 19 bits (30_encoding.md R75). -/
def wide (b : Byte) : BitVec 19 := b.zeroExtend 19

/-- A channel of two bytes: `((lo >> r) | (mid << l)) & 0x7FF` (30_encoding.md R75). -/
def combine2 (lo : Byte) (r : Nat) (mid : Byte) (l : Nat) : Chan :=
  (((wide lo >>> r) ||| (wide mid <<< l)) &&& 0x7FF#19).truncate 11

/-- A channel of three bytes: `((lo >> r) | (mid << l) | (hi << h)) & 0x7FF` (30_encoding.md R75). -/
def combine3 (lo : Byte) (r : Nat) (mid : Byte) (l : Nat) (hi : Byte) (h : Nat) : Chan :=
  (((wide lo >>> r) ||| (wide mid <<< l) ||| (wide hi <<< h)) &&& 0x7FF#19).truncate 11

/-- The sixteen lines of 30_encoding.md R75. -/
def channelEquations (p : Payload) : Vector Chan 16 := #v[
  combine2 p[1] 0 p[2] 8,
  combine2 p[2] 3 p[3] 5,
  combine3 p[3] 6 p[4] 2 p[5] 10,
  combine2 p[5] 1 p[6] 7,
  combine2 p[6] 4 p[7] 4,
  combine3 p[7] 7 p[8] 1 p[9] 9,
  combine2 p[9] 2 p[10] 6,
  combine2 p[10] 5 p[11] 3,
  combine2 p[12] 0 p[13] 8,
  combine2 p[13] 3 p[14] 5,
  combine3 p[14] 6 p[15] 2 p[16] 10,
  combine2 p[16] 1 p[17] 7,
  combine2 p[17] 4 p[18] 4,
  combine3 p[18] 7 p[19] 1 p[20] 9,
  combine2 p[20] 2 p[21] 6,
  combine2 p[21] 5 p[22] 3]

/-- `(c >> r) & m`, as a byte (30_encoding.md R76). -/
def lowPart (c : Chan) (r : Nat) (m : Chan) : Byte := ((c >>> r) &&& m).truncate 8

/-- `(c & m) << l`, as a byte (30_encoding.md R76). -/
def highPart (c : Chan) (m : Chan) (l : Nat) : Byte := ((c &&& m).truncate 8) <<< l

/-- The twenty-two lines of 30_encoding.md R76; the first is byte 1. -/
def byteEquations (ch : Vector Chan 16) : Vector Byte 22 := #v[
  lowPart ch[0] 0 0xFF#11,
  lowPart ch[0] 8 0x07#11 ||| highPart ch[1] 0x1F#11 3,
  lowPart ch[1] 5 0x3F#11 ||| highPart ch[2] 0x03#11 6,
  lowPart ch[2] 2 0xFF#11,
  lowPart ch[2] 10 0x01#11 ||| highPart ch[3] 0x7F#11 1,
  lowPart ch[3] 7 0x0F#11 ||| highPart ch[4] 0x0F#11 4,
  lowPart ch[4] 4 0x7F#11 ||| highPart ch[5] 0x01#11 7,
  lowPart ch[5] 1 0xFF#11,
  lowPart ch[5] 9 0x03#11 ||| highPart ch[6] 0x3F#11 2,
  lowPart ch[6] 6 0x1F#11 ||| highPart ch[7] 0x07#11 5,
  lowPart ch[7] 3 0xFF#11,
  lowPart ch[8] 0 0xFF#11,
  lowPart ch[8] 8 0x07#11 ||| highPart ch[9] 0x1F#11 3,
  lowPart ch[9] 5 0x3F#11 ||| highPart ch[10] 0x03#11 6,
  lowPart ch[10] 2 0xFF#11,
  lowPart ch[10] 10 0x01#11 ||| highPart ch[11] 0x7F#11 1,
  lowPart ch[11] 7 0x0F#11 ||| highPart ch[12] 0x0F#11 4,
  lowPart ch[12] 4 0x7F#11 ||| highPart ch[13] 0x01#11 7,
  lowPart ch[13] 1 0xFF#11,
  lowPart ch[13] 9 0x03#11 ||| highPart ch[14] 0x3F#11 2,
  lowPart ch[14] 6 0x1F#11 ||| highPart ch[15] 0x07#11 5,
  lowPart ch[15] 3 0xFF#11]

end Sys2Proof.Machine
end

