-- ==== Sys2Proof/Machine/Flags.lean ====
section
/-! DEFINITION. The block has no flags register (10_state.md R25): its conditions are the combinational
`frame_avail` (R23), the next value of the gap counter (42_resync.md R171) and the events a model
records (60_exceptions.md R201). -/

namespace Sys2Proof.Machine

/-- `frame_avail` (10_state.md R23). -/
def frameAvail (s : State) : Bool :=
  decide (s.ctx.state = .capturing) && decide (s.ctx.nbytes = 25#5)
    && decide (Memory.read s.ctx.buf 24 = Config.footer)

/-- The delivery event: a clock edge with `rst = 0`, `comm_error = 0` and `in_valid = 1`
(42_resync.md R173). -/
def isDelivery (rst commError inValid : Bool) : Bool := !rst && !commError && inValid

/-- The next `gap_cnt`, for a counter of `w` bits (42_resync.md R171): a tick in a delivery's cycle is
dropped, and an error neither clears nor stops the counter. -/
def nextGapCount (w : Nat) (rst commError inValid timeTick : Bool) (g : Nat) : Nat :=
  if rst then 0
  else if isDelivery rst commError inValid then 0
  else if timeTick then satInc w g
  else g

/-- The event a performed operation is recorded as (60_exceptions.md R201). -/
def Op.event (o : Op) : Event :=
  match o with
  | .reset => .sessionReset
  | .errFlush => .commError
  | .noByte => .none
  | .gapFlush => .gapTimeout
  | .guard => .heldDiscard
  | .huntHdr => .none
  | .huntSkip => .huntDiscard
  | .capture => .none
  | .footerOk => .none
  | .footerBad => .footerMismatch

/-- The code of an event (60_exceptions.md R201). -/
def Event.code (e : Event) : Nat :=
  match e with
  | .none => 0
  | .huntDiscard => 1
  | .footerMismatch => 2
  | .gapTimeout => 3
  | .commError => 4
  | .sessionReset => 5
  | .heldDiscard => 6

/-- The record of the last `SYNC` step: a list of at most two codes (60_exceptions.md R201). -/
def eventCodes (s : State) : List Nat := s.obs.ops.map fun o => o.event.code

end Sys2Proof.Machine
end

