-- ==== Sys2Proof/Machine/Codec.lean ====
section
/-! DEFINITION. The codec family (40_codec.md): the pure functions `PACK` and `UNPACK`, and the meanings
of the two operations. -/

namespace Sys2Proof.Machine

/-- `PACK(f)` (40_codec.md R100). -/
def pack (f : FrameIn) : Payload :=
  let d := dataOfChannels (f.channels.map maskChannel)
  Vector.ofFn fun j : Fin 25 =>
    if j.val = 0 then Config.header
    else if j.val ≤ Config.dataLast then byteOfData d j.val
    else if j.val = Config.statusByte then statusByteOf f.switches f.frameLost f.failsafe
    else Config.footer

/-- `UNPACK(p)` (40_codec.md R110). -/
def unpack (p : Payload) : Frame :=
  let d := dataOfPayload p
  { channels := Vector.ofFn fun i : Fin 16 => channelOfData d i.val
    switches := #v[p[23].getLsbD 0, p[23].getLsbD 1]
    frameLost := p[23].getLsbD 2
    failsafe := p[23].getLsbD 3 }

/-- A `Frame` as an input of `PACK`: each channel by its value (00_scope.md R12). -/
def frameAsInput (f : Frame) : FrameIn :=
  { channels := f.channels.map fun c => c.toNat
    switches := f.switches, frameLost := f.frameLost, failsafe := f.failsafe }

/-- A `FrameIn` with each channel masked to 11 bits (40_codec.md R101, R112). -/
def maskedFrame (f : FrameIn) : Frame :=
  { channels := f.channels.map maskChannel
    switches := f.switches, frameLost := f.frameLost, failsafe := f.failsafe }

/-- `PACK` as an operation: the frame is driven on the ports `tx_*`, whose combinational image
`tx_payload` is `PACK` of it (10_state.md R40, 40_codec.md R116). No register of the block changes. -/
def execPack (f : FrameIn) (s : State) : Host.Outcome State Fault Refusal :=
  .next { s with tx := portFrame s.cfg.chInWidth f }

/-- `UNPACK` as an operation: total on every payload (40_codec.md R110). No register of the block
changes; the caller's result is `unpackOut`. -/
def execUnpack (p : Payload) (s : State) : Host.Outcome State Fault Refusal :=
  .next { s with unpackOut := unpack p }

end Sys2Proof.Machine
end

