-- ==== Sys2Proof/Machine/Sync.lean ====
section
/-! DEFINITION. The synchronizer family (41_sync.md, 70_reset_and_hazards.md R231): the meanings of the
ten keyed operations and of `INGEST`.

A context outside 10_state.md R21 has no successor under any of them but `RESET` (`State.ifLegal`). A meaning
writes the context, the two output registers with the step's `ready` and `reject`, and the
record of the operations performed. The arguments that a row does not use are the don't-care bits of its
key. What a clock edge does beside the step (the gap counter, `DEDUP`) is in Machine/Edge.lean. -/

namespace Sys2Proof.Machine

/-- `RESET` (70_reset_and_hazards.md R231): every other input of the cycle is ignored. -/
def execReset (_e _t _v _g : Bool) (_s : SyncState) (_n : Count) (_b : Byte) (s : State) :
    Host.Outcome State Fault Refusal :=
  .next s.sessionReset

/-- `ERR_FLUSH` (41_sync.md R132): the byte of the cycle, if any, is dropped. -/
def execErrFlush (_t _v _g : Bool) (_s : SyncState) (_n : Count) (_b : Byte) (s : State) :
    Host.Outcome State Fault Refusal :=
  s.ifLegal (.next s.errorFlush)

/-- `NO_BYTE` (41_sync.md R135). -/
def execNoByte (_t _g : Bool) (_s : SyncState) (_n : Count) (_b : Byte) (s : State) :
    Host.Outcome State Fault Refusal :=
  s.ifLegal (.next s.noByte)

/-- `GAP_FLUSH` (41_sync.md R133): flush, then the byte is hunted. -/
def execGapFlush (_t : Bool) (_s : SyncState) (_n : Count) (b : Byte) (s : State) :
    Host.Outcome State Fault Refusal :=
  s.ifLegal (.next ((s.setCtx s.ctx.flush).hunt [.gapFlush] b))

/-- `GUARD` (41_sync.md R134): the held capture is discarded, then the byte is hunted. -/
def execGuard (_t : Bool) (_s : SyncState) (_n : Count) (b : Byte) (s : State) :
    Host.Outcome State Fault Refusal :=
  s.ifLegal (.next ((s.setCtx s.ctx.flush).hunt [.guard] b))

/-- `HUNT_HDR` (41_sync.md R136). -/
def execHuntHdr (s : State) : Host.Outcome State Fault Refusal :=
  s.ifLegal (.next (s.huntHeader []))

/-- `HUNT_SKIP` (41_sync.md R137). -/
def execHuntSkip (_b : Byte) (s : State) : Host.Outcome State Fault Refusal :=
  s.ifLegal (.next (s.huntSkip []))

/-- `CAPTURE` (41_sync.md R138). -/
def execCapture (n : Count) (b : Byte) (s : State) : Host.Outcome State Fault Refusal :=
  s.ifLegal (s.captureByte n b)

/-- `FOOTER_OK` (41_sync.md R139). -/
def execFooterOk (s : State) : Host.Outcome State Fault Refusal :=
  s.ifLegal (.next s.acceptFrame)

/-- `FOOTER_BAD` (41_sync.md R140). -/
def execFooterBad (b : Byte) (s : State) : Host.Outcome State Fault Refusal :=
  s.ifLegal (.next (s.rejectFrame b))

/-- The byte rules in state `st` at count `n`, after the pre-steps (41_sync.md R131, source rules 2 and 3). -/
def State.byteRules (st : SyncState) (n : Count) (b : Byte) (s : State) :
    Host.Outcome State Fault Refusal :=
  match st with
  | .idle => .next (s.hunt [] b)
  | .capturing =>
    if n.toNat ≤ 23 then s.captureByte n b
    else if b = Config.footer then .next s.acceptFrame
    else .next (s.rejectFrame b)

/-- `INGEST` (41_sync.md R131), from its pseudocode: the pre-steps in their order, then the byte rules. -/
def execIngest (rst err vld gx : Bool) (b : Byte) (s : State) : Host.Outcome State Fault Refusal :=
  if rst then .next s.sessionReset
  else s.ifLegal <|
    if err then .next s.errorFlush
    else if !vld then .next s.noByte
    else if gx then .next ((s.setCtx s.ctx.flush).hunt [.gapFlush] b)
    else if 25 ≤ s.ctx.nbytes.toNat then .next ((s.setCtx s.ctx.flush).hunt [.guard] b)
    else s.byteRules s.ctx.state s.ctx.nbytes b

end Sys2Proof.Machine
end

