-- ==== Sys2Proof/Machine/Resync.lean ====
section
/-! DEFINITION. The resynchronisation family (42_resync.md): `GAP_TICK`, `INGEST_BATCH` and `DEDUP`. -/

namespace Sys2Proof.Machine

/-- `GAP_TICK` (42_resync.md R171). -/
def execGapTick (rst commError inValid timeTick : Bool) (s : State) :
    Host.Outcome State Fault Refusal :=
  .next (s.setGap (nextGapCount s.cfg.gapCntWidth rst commError inValid timeTick s.gapCnt))

/-- The loop of `INGEST_BATCH` (42_resync.md R180): the gap flag applies to the first byte only. Each
byte is one input of the run, and each completed frame is a call of `cb` (recorded as delivered). -/
def ingestBytes (gx : Bool) (bs : List Byte) (s : State) : Host.Outcome State Fault Refusal :=
  match bs with
  | [] => .next s
  | b :: rest =>
    andThen (execIngest false false true gx b s) fun t => ingestBytes false rest t.countInput

/-- `INGEST_BATCH` (42_resync.md R180). -/
def execIngestBatch (gx : Bool) (bs : List Byte) (s : State) : Host.Outcome State Fault Refusal :=
  ingestBytes gx bs s

/-- `DEDUP` (42_resync.md R186). The stage is present only where `HAS_DEDUP` (R185); without it there is
nothing to update. -/
def execDedup (p : Payload) (s : State) : Host.Outcome State Fault Refusal :=
  if s.cfg.hasDedup then
    .next (s.dedupDelivery { index := s.obs.index, payload := p })
  else .next s

end Sys2Proof.Machine
end

