-- ==== Sys2Proof/Machine/Dispatch.lean ====
section
/-! DEFINITION. One arm per operation of spec/opcode_table.json: each calls its meaning. -/

namespace Sys2Proof.Machine

def exec (i : Instr) (s : State) : Host.Outcome State Fault Refusal :=
  match i with
  | .reset e t v g st n b => Sys2Proof.Machine.execReset e t v g st n b s
  | .errFlush t v g st n b => Sys2Proof.Machine.execErrFlush t v g st n b s
  | .noByte t g st n b => Sys2Proof.Machine.execNoByte t g st n b s
  | .gapFlush t st n b => Sys2Proof.Machine.execGapFlush t st n b s
  | .guard t st n b => Sys2Proof.Machine.execGuard t st n b s
  | .huntHdr => Sys2Proof.Machine.execHuntHdr s
  | .huntSkip b => Sys2Proof.Machine.execHuntSkip b s
  | .capture n b => Sys2Proof.Machine.execCapture n b s
  | .footerOk => Sys2Proof.Machine.execFooterOk s
  | .footerBad b => Sys2Proof.Machine.execFooterBad b s
  | .ingest rst err vld gx b => Sys2Proof.Machine.execIngest rst err vld gx b s
  | .pack f => Sys2Proof.Machine.execPack f s
  | .unpack p => Sys2Proof.Machine.execUnpack p s
  | .gapTick rst commError inValid timeTick => Sys2Proof.Machine.execGapTick rst commError inValid timeTick s
  | .ingestBatch gx bs => Sys2Proof.Machine.execIngestBatch gx bs s
  | .dedup p => Sys2Proof.Machine.execDedup p s

end Sys2Proof.Machine
end

