-- ==== Sys2Proof/Machine/Ports.lean ====
section
/-! DEFINITION. The output ports (10_state.md R40): combinational functions of the state, and the faults
of a read outside a port's window (60_exceptions.md R204). -/

namespace Sys2Proof.Machine

/-- The port `tx_payload`: `PACK(tx_*)`, combinational (10_state.md R40). -/
def txPayload (s : State) : Payload := pack s.tx

/-- The accepted payload while `frame_avail = 1` (10_state.md R40). -/
def heldPayload (s : State) : Option Payload :=
  if frameAvail s then some s.ctx.buf else none

/-- A read that is defined only while the held frame is. -/
def readHeld (s : State) (f : Payload → PortValue) : Host.Outcome PortValue Fault Refusal :=
  match heldPayload s with
  | some p => .next (f p)
  | none => .fault .undefinedOutputRead

/-- The value of an output port (10_state.md R40). -/
def readPort (port : OutPort) (s : State) : Host.Outcome PortValue Fault Refusal :=
  match port with
  | .txPayload => .next (.payload (txPayload s))
  | .frameReady => .next (.bit s.frameReadyQ)
  | .frameRejected =>
    if s.cfg.exposeReject then .next (.bit s.frameRejectedQ) else .refused (.absentPort port)
  | .frameAvail => .next (.bit (frameAvail s))
  | .rxPayload => readHeld s .payload
  | .rxCh i => readHeld s fun p => .chan (unpack p).channels[i]
  | .rxSw k => readHeld s fun p => .bit (unpack p).switches[k]
  | .rxFrameLost => readHeld s fun p => .bit (unpack p).frameLost
  | .rxFailsafe => readHeld s fun p => .bit (unpack p).failsafe
  | .syncState => .next (.bit (decide (s.ctx.state = .capturing)))
  | .syncNbytes => .next (.count s.ctx.nbytes)
  | .ddNotify => if s.cfg.hasDedup then .next (.bit s.ddNotifyQ) else .refused (.absentPort port)
  | .ddPayload =>
    if s.cfg.hasDedup then
      if s.ddHave then .next (.payload s.ddLast) else .fault .undefinedOutputRead
    else .refused (.absentPort port)

/-- The consumer reads a port: no side effect on the block (20_memory.md R52); the model records the
value. -/
def consumerRead (port : OutPort) (s : State) : Host.Outcome State Fault Refusal :=
  match readPort port s with
  | .next v => .next { s with obs := { s.obs with lastRead := some v } }
  | .fault r => .fault r
  | .refused r => .refused r

end Sys2Proof.Machine
end

