-- ==== Sys2Proof/Machine/Edge.lean ====
section
/-! DEFINITION. One clock edge (42_resync.md R190), one delivered buffer, and what the environment's next
input does. -/

namespace Sys2Proof.Machine

/-- The duplicate-suppression stage at an edge (42_resync.md R190): the rows `rst`, `op = FOOTER_OK` and
otherwise; without `HAS_DEDUP` the stage is absent. -/
def State.dedupEdge (rst : Bool) (i : Instr) (s : State) : State :=
  if s.cfg.hasDedup then
    if rst then { s with ddHave := false, ddNotifyQ := false }
    else if i = .footerOk then s.dedupDelivery { index := s.obs.index, payload := s.ctx.buf }
    else { s with ddNotifyQ := false }
  else s

/-- What a clock edge does beside the `SYNC` step `i`: `GAP_TICK`, the duplicate-suppression stage, and
the count of inputs taken. -/
def State.besideStep (c : Ciw) (i : Instr) (s : State) : State :=
  ((s.setGap (nextGapCount s.cfg.gapCntWidth (ciwRst c) (ciwErr c) (ciwVld c) (ciwTck c)
    s.gapCnt)).dedupEdge (ciwRst c) i).countInput

/-- One clock edge with the cycle input `c`: the key of the cycle is decoded, its operation runs, and the
units beside `SYNC` update. -/
def clockEdge (c : Ciw) (s : State) : Host.Outcome State Fault Refusal :=
  match decodeKey (stepKey c s) with
  | .ok i => andThen (exec i s) fun t => .next (t.besideStep c i)
  | .error _ => .fault .invariantViolation

/-- The pulse `dd_notify` after a delivered buffer: it belongs to the last byte, so it is low unless that
byte completed a frame (42_resync.md R187). -/
def State.gateNotify (s : State) : State := { s with ddNotifyQ := s.frameReadyQ && s.ddNotifyQ }

/-- `DEDUP` on the frames that a delivered buffer completed, in order, and the pulse after it. -/
def State.dedupBatch (new : List Delivery) (s : State) : State :=
  if s.cfg.hasDedup then
    (new.foldl (fun u d => u.dedupDelivery d) s).gateNotify
  else s

/-- One delivered buffer (42_resync.md R180, R173): one gap check, the batch, and, where there was a
byte, the delivery clears the gap counter and each completed frame passes `DEDUP`. An empty buffer
changes nothing. -/
def deliverBatch (bs : List Byte) (s : State) : Host.Outcome State Fault Refusal :=
  andThen (exec (.ingestBatch (gapExceeded s) bs) s) fun t =>
    if bs = [] then .next t
    else .next ((t.setGap 0).dedupBatch (t.obs.delivered.drop s.obs.delivered.length))

/-- The effect of one input of the environment. -/
def runInput (inp : Input) (s : State) : Host.Outcome State Fault Refusal :=
  match inp with
  | .cycle c => clockEdge c s
  | .batch bs => deliverBatch bs s
  | .pack f => exec (.pack f) s
  | .unpack p => exec (.unpack p) s
  | .read port => consumerRead port s
  | .contended _ _ => .fault .concurrentFeed

/-- A cycle in which the environment drives nothing: the stream operation `NOP` (30_encoding.md R88). -/
def idleCiw : Ciw := 0x000#12

/-- The next input; with none pending, the block idles by receiving no bytes (60_exceptions.md R215). -/
def nextInput (s : State) : Input :=
  match s.inputs with
  | [] => .cycle idleCiw
  | inp :: _ => inp

/-- The state with its next input taken. -/
def State.takeInput (s : State) : State := { s with inputs := s.inputs.tail }

/-! ## Placing an instruction -/

/-- The least change of `gap_cnt` that makes `gap_exceeded` be `gx`: a cleared or a saturated counter. -/
def gapCountFor (gx : Bool) (s : State) : Nat :=
  if gapExceeded s = gx then s.gapCnt else if gx then s.cfg.gapMax else 0

/-- The state in which the next step key is built from the cycle input `c`, with the context at
`(st, n)` and `gap_exceeded` at `gx`. -/
def State.withKey (s : State) (c : Ciw) (gx : Bool) (st : SyncState) (n : Count) : State :=
  { s with
      ctx := { s.ctx with state := st, nbytes := n }
      gapCnt := gapCountFor gx s
      inputs := .cycle c :: s.inputs }

/-- The state whose next step key is the table word `w`: a key `K` of three bytes, or a dispatch key `E`
of two, which a byte delivery with no pre-step presents. -/
def State.withTableWord (s : State) (nbits w : Nat) : State :=
  if nbits ≤ 16 then
    let e := BitVec.ofNat 14 w
    s.withKey (mkCiw false false false true (dispByte e)) false (dispState e) (dispCount e)
  else
    let k := BitVec.ofNat 19 w
    s.withKey (mkCiw (keyRst k) (keyErr k) (keyTck k) (keyVld k) (keyByte k)) (keyGx k) (keyState k)
      (keyCount k)

end Sys2Proof.Machine
end

