-- ==== Sys2Proof/Machine/Step.lean ====
section
/-! DEFINITION. One step: take the environment's next input and run it. -/

namespace Sys2Proof.Machine

/-- One step of the machine. -/
def step (s : State) : Host.Outcome State Fault Refusal := runInput (nextInput s) s.takeInput

/-- The state in which the very next step runs the table word `w` of `nbits` bits
(notes/assumptions/2.md). -/
def State.withFetchWord (s : State) (nbits w : Nat) : State := s.withTableWord nbits w

end Sys2Proof.Machine
end

