-- ==== Sys2Proof/Machine/Stream.lean ====
section
/-! DEFINITION. The stream-program notation (30_encoding.md R88): how a written program becomes the
environment's inputs. -/

namespace Sys2Proof.Machine

/-- The operations and pseudo-operations of R88. -/
inductive StreamOp where
  | reset
  | byte (b : Byte)
  | tick
  | tickByte (b : Byte)
  | err
  | nop
  | bytes (bs : List Byte)
  | ticks (n : Nat)
  | nops (n : Nat)
  | frame (f : FrameIn)
  | batch (bs : List Byte)
  deriving DecidableEq, Repr

/-- `BYTE b` as a cycle input word: `0x100 | b` (R88). -/
def byteCiw (b : Byte) : Ciw := 0x100#12 ||| b.zeroExtend 12

/-- `BYTES b0 ... bk` on consecutive cycles (R88). -/
def byteInputs (bs : List Byte) : List Input := bs.map fun b => .cycle (byteCiw b)

/-- The expansion of an operation (R88). `FRAME` also drives the inputs of `PACK` (R87). -/
def StreamOp.inputs (o : StreamOp) : List Input :=
  match o with
  | .reset => [.cycle 0x800#12]
  | .byte b => [.cycle (byteCiw b)]
  | .tick => [.cycle 0x200#12]
  | .tickByte b => [.cycle (0x300#12 ||| b.zeroExtend 12)]
  | .err => [.cycle 0x400#12]
  | .nop => [.cycle 0x000#12]
  | .bytes bs => byteInputs bs
  | .ticks n => List.replicate n (.cycle 0x200#12)
  | .nops n => List.replicate n (.cycle 0x000#12)
  | .frame f => .pack f :: byteInputs (pack f).toList
  | .batch bs => [.batch bs]

/-- A stream program is loaded by the environment that presents it, after what is already pending. -/
def State.load (s : State) (prog : List StreamOp) : State :=
  { s with inputs := s.inputs ++ prog.flatMap StreamOp.inputs }

end Sys2Proof.Machine
end

