-- ==== Sys2Proof/Machine/WallClock.lean ====
section
/-! DEFINITION. Ticks and wall-clock time (42_resync.md R174). The step counts ticks exactly; wall-clock
time is the environment's. Here time is counted in clock cycles and the environment's tick source is a train
of pulses with period `T`, the first of them `φ` cycles after the origin. -/

namespace Sys2Proof.Machine

/-- The tick period `T = TIME_UNIT / TICKS_PER_UNIT` in clock cycles (R174); `TIME_UNIT` is OPEN (00_scope.md
R7). -/
def tickPeriod (p : Config.Params) : Nat := Config.timeUnit / p.ticksPerUnit

/-- Whether a pulse of the train falls in cycle `x`. -/
def tickAt (T φ x : Nat) : Bool := decide (φ ≤ x) && decide ((x - φ) % T = 0)

/-- The number of pulses of the train strictly between cycles 0 and `t`. -/
def ticksBetween (T φ t : Nat) : Nat := ((List.range t).filter fun x => decide (0 < x) && tickAt T φ x).length

end Sys2Proof.Machine
end

