-- ==== Sys2Proof/Machine/Environment.lean ====
section
/-! DEFINITION. Runs, and the record of the two parties of the environment: their liberties as data and their
duties as conditions on a run (70_reset_and_hazards.md R245). A run in which a duty is not kept is one the
spec says nothing about; the step does not enforce them. -/

namespace Sys2Proof.Machine

/-! ## Runs -/

/-- `k` steps, stopping at the first fault or refusal. -/
def stepMany : Nat → State → Host.Outcome State Fault Refusal
  | 0, s => .next s
  | k + 1, s => andThen (step s) (stepMany k)

/-- The states of a run of `k` steps, each with the input it takes. -/
def trace : Nat → State → List (State × Input)
  | 0, _ => []
  | k + 1, s => (s, nextInput s) ::
    (match step s with
      | .next t => trace k t
      | .fault _ => []
      | .refused _ => [])

/-! ## The byte source -/

/-- What the link gives the byte source: a received byte, or a read error. -/
inductive Received where
  | byte (b : Byte)
  | readError
  deriving DecidableEq, Repr

/-- The clock cycles an input takes. A buffer is its bytes on consecutive cycles (30_encoding.md R88). -/
def Input.cycles (i : Input) : List Ciw :=
  match i with
  | .cycle c => [c]
  | .batch bs => bs.map byteCiw
  | .pack _ => []
  | .unpack _ => []
  | .read _ => []
  | .contended c _ => [c]

/-- What a cycle presents of the link's stream. A byte in an error cycle is the one whose read failed, and
a reset cycle presents nothing (60_exceptions.md R207). -/
def ciwPresents (c : Ciw) : List Received :=
  if ciwRst c then []
  else if ciwErr c then [.readError]
  else if ciwVld c then [.byte (ciwByte c)]
  else []

/-- Whether two agents feed the context in one step. -/
def Input.isContended (i : Input) : Bool :=
  match i with
  | .cycle _ => false
  | .batch _ => false
  | .pack _ => false
  | .unpack _ => false
  | .read _ => false
  | .contended _ _ => true

/-- The byte source in one run: what it takes the liberty of. The bytes may be any, noise included, and the
errors anywhere; the idle cycles between them and the end of the session are in the run itself. -/
structure ByteSource where
  /-- What the link gave it, in wire order. -/
  received  : List Received
  /-- The phase of its tick source: the first cycle of the run in which a pulse falls. -/
  tickPhase : Nat
  deriving DecidableEq, Repr

/-- The duties of the byte source in a run with the inputs `run`; `afterReset` where the run goes on from a
reset edge, as one from `State.reset` does. -/
structure ByteSource.Duties (src : ByteSource) (p : Config.Params) (afterReset : Bool)
    (run : List Input) : Prop where
  /-- It asserts `rst` at session start. -/
  sessionStart : afterReset = false → ((run.flatMap Input.cycles).head?.map ciwRst) = some true
  /-- It delivers each received byte once, in wire order, and reports each read error. -/
  onceInOrder  : (run.flatMap Input.cycles).flatMap ciwPresents = src.received
  /-- Its tick source has begun: the first pulse falls within the first period. -/
  tickPhase    : src.tickPhase < tickPeriod p
  /-- It drives `time_tick` at its stated period. -/
  tickPeriod   : ∀ (k : Nat) (h : k < (run.flatMap Input.cycles).length),
    ciwTck (run.flatMap Input.cycles)[k] = tickAt (tickPeriod p) src.tickPhase k
  /-- It feeds the context from one agent only. -/
  oneAgent     : ∀ i ∈ run, i.isContended = false

/-! ## The consumer -/

/-- Whether a port has a value in a state: it exists and its window is open (10_state.md R40). -/
def portDefined (port : OutPort) (s : State) : Bool :=
  match port with
  | .txPayload => true
  | .frameReady => true
  | .frameRejected => s.cfg.exposeReject
  | .frameAvail => true
  | .rxPayload => frameAvail s
  | .rxCh _ => frameAvail s
  | .rxSw _ => frameAvail s
  | .rxFrameLost => frameAvail s
  | .rxFailsafe => frameAvail s
  | .syncState => true
  | .syncNbytes => true
  | .ddNotify => s.cfg.hasDedup
  | .ddPayload => s.cfg.hasDedup && s.ddHave

/-- Whether a port shows the held frame. -/
def OutPort.showsFrame (port : OutPort) : Bool :=
  match port with
  | .txPayload => false
  | .frameReady => false
  | .frameRejected => false
  | .frameAvail => false
  | .rxPayload => true
  | .rxCh _ => true
  | .rxSw _ => true
  | .rxFrameLost => true
  | .rxFailsafe => true
  | .syncState => false
  | .syncNbytes => false
  | .ddNotify => false
  | .ddPayload => false

/-- Whether the delivery `d` is read in a step of a run: from a port while it is held, or by the callback of
the buffer that completed it (70_reset_and_hazards.md R241). -/
def readsDelivery (d : Delivery) (x : State × Input) : Bool :=
  match x.2 with
  | .read port => port.showsFrame && frameAvail x.1 && decide (x.1.obs.delivered.getLast? = some d)
  | .batch bs => decide (x.1.obs.index ≤ d.index ∧ d.index < x.1.obs.index + bs.length)
  | .cycle _ => false
  | .pack _ => false
  | .unpack _ => false
  | .contended _ _ => false

/-- The consumer in one run: which frames it wants, by the index of the input that completes each. It may
ignore any of them; whether it applies `DEDUP` is the parameter `HAS_DEDUP`. -/
structure Consumer where
  wants : List Nat
  deriving DecidableEq, Repr

/-- The duties of the consumer in a run. -/
structure Consumer.Duties (con : Consumer) (run : List (State × Input)) : Prop where
  /-- It reads a port only in the port's window. -/
  readsDefined    : ∀ x ∈ run, ∀ port, x.2 = .read port → portDefined port x.1 = true
  /-- It applies `UNPACK` only to an accepted payload. -/
  unpacksAccepted : ∀ x ∈ run, ∀ p, x.2 = .unpack p → ∃ d ∈ x.1.obs.delivered, d.payload = p
  /-- It reads each frame it wants within the frame's window (70_reset_and_hazards.md R241). DESIGN CHOICE
  (notes/assumptions/22.md): the spec does not say whether a wanted frame that is still held and unread when
  the run ends breaches this duty (R246); here it does, unless the run's last input accepted it. -/
  readsWanted     : ∀ x ∈ run, ∀ d ∈ x.1.obs.delivered, d.index ∈ con.wants →
    ∃ y ∈ run, readsDelivery d y = true

end Sys2Proof.Machine
end

