-- ==== Sys2Proof/Safety.lean ====
section
/-! DEFINITION. What claims about the block are stated in: the invariant of every reachable state, what
an operation leaves unchanged, byte streams, and what the outside can see. -/

namespace Sys2Proof.Machine

/-! ## The invariant -/

/-- The meaningful bytes begin with the header (10_state.md R22). -/
def Context.meaningful (x : Context) : Prop :=
  1 ≤ x.nbytes.toNat → Memory.read x.buf 0 = Config.header

/-- What holds of the machine at reset and after every step. -/
structure State.Inv (s : State) : Prop where
  /-- The counter is wide enough for the limit (00_scope.md R7). -/
  params         : s.cfg.valid
  /-- The count fits its register (10_state.md R26). -/
  gapFits        : s.gapCnt ≤ s.cfg.gapMax
  /-- The held inputs of `PACK` fit their ports (10_state.md R40). -/
  txFits         : frameFits s.cfg.chInWidth s.tx
  /-- The context invariant (10_state.md R21). -/
  legal          : s.ctx.legal
  /-- The meaningful bytes (10_state.md R22). -/
  meaningful     : s.ctx.meaningful
  /-- `frame_ready` is high only while the frame is held (42_resync.md R191). -/
  readyHeld      : s.frameReadyQ = true → frameAvail s = true
  /-- `frame_rejected` is high only where it exists, over a full capture that is not held
  (10_state.md R25, R31). -/
  rejectedFull   : s.frameRejectedQ = true →
    s.cfg.exposeReject = true ∧ s.ctx.nbytes = 25#5 ∧ frameAvail s = false
  /-- Once a frame has been delivered, `dd_last` is a whole accepted payload (10_state.md R29, R23). -/
  ddLastPayload  : s.ddHave = true →
    Memory.read s.ddLast 0 = Config.header ∧ Memory.read s.ddLast 24 = Config.footer
  /-- `dd_notify` is high only with `frame_ready` (42_resync.md R191). -/
  notifyReady    : s.ddNotifyQ = true → s.frameReadyQ = true
  /-- While a frame is held, it is the last delivered one (42_resync.md R186, R187). -/
  heldIsLast     : s.cfg.hasDedup = true → frameAvail s = true →
    s.ddHave = true ∧ s.ddLast = s.ctx.buf
  /-- Without `HAS_DEDUP` the stage is absent (10_state.md R29). -/
  dedupAbsent    : s.cfg.hasDedup = false → s.ddHave = false ∧ s.ddNotifyQ = false

/-! ## Frames -/

/-- Every byte but the one at index `i` reads as before. -/
def sameBytesExcept (i : Nat) (m m' : Memory) : Prop :=
  ∀ a : Fin 25, a.val ≠ i → Memory.read m' a = Memory.read m a

/-- Everything but the context, the two step outputs and what the model records of the step
(10_state.md R28): what a `SYNC` operation other than `RESET` leaves unchanged. -/
structure sameOutsideSync (s t : State) : Prop where
  cfg       : t.cfg = s.cfg
  gapCnt    : t.gapCnt = s.gapCnt
  ddLast    : t.ddLast = s.ddLast
  ddHave    : t.ddHave = s.ddHave
  ddNotifyQ : t.ddNotifyQ = s.ddNotifyQ
  tx        : t.tx = s.tx
  unpackOut : t.unpackOut = s.unpackOut
  inputs    : t.inputs = s.inputs
  index     : t.obs.index = s.obs.index
  notified  : t.obs.notified = s.obs.notified
  lastRead  : t.obs.lastRead = s.obs.lastRead

/-- Every register and memory of the block reads as before (10_state.md R32's list), and so do the
parameters; the held inputs, the pending inputs and the record may differ. -/
structure sameHardware (s t : State) : Prop where
  cfg            : t.cfg = s.cfg
  ctx            : t.ctx = s.ctx
  gapCnt         : t.gapCnt = s.gapCnt
  frameReadyQ    : t.frameReadyQ = s.frameReadyQ
  frameRejectedQ : t.frameRejectedQ = s.frameRejectedQ
  ddLast         : t.ddLast = s.ddLast
  ddHave         : t.ddHave = s.ddHave
  ddNotifyQ      : t.ddNotifyQ = s.ddNotifyQ

/-! ## Runs -/

/-- The state with the byte stream `bs` delivered next, one byte a cycle with no tick between
(30_encoding.md R88, `BYTES`), before the inputs already pending. -/
def State.feed (s : State) (bs : List Byte) : State := { s with inputs := byteInputs bs ++ s.inputs }

/-- A valid payload: header first, footer last (41_sync.md R145). -/
def validPayload (p : Payload) : Prop := p[0] = Config.header ∧ p[24] = Config.footer

/-- The state holds the accepted frame `p` (10_state.md R23). -/
def State.holds (s : State) (p : Payload) : Prop := heldPayload s = some p

/-- The data bit `D[q]` of a wire frame: bit `q mod 8` of wire byte `1 + (q div 8)` (20_memory.md R54,
30_encoding.md R73). -/
def dataBit (p : Payload) (q : Nat) : Bool := (p.toList.getD (1 + q / 8) 0#8).getLsbD (q % 8)

/-- Whether an input is a cycle with `rst = 1`. -/
def Input.isReset (i : Input) : Bool :=
  match i with
  | .cycle c => ciwRst c
  | .batch _ => false
  | .pack _ => false
  | .unpack _ => false
  | .read _ => false
  | .contended _ _ => false

/-- Whether an input is one clock cycle of a single byte source. -/
def Input.isCycle (i : Input) : Bool :=
  match i with
  | .cycle _ => true
  | .batch _ => false
  | .pack _ => false
  | .unpack _ => false
  | .read _ => false
  | .contended _ _ => false

/-- Whether an input can stop the machine in a state that meets the invariant: a consumer's read, or two
agents feeding at once. -/
def Input.mayStop (i : Input) : Bool :=
  match i with
  | .cycle _ => false
  | .batch _ => false
  | .pack _ => false
  | .unpack _ => false
  | .read _ => true
  | .contended _ _ => true

/-- The deliveries that duplicate suppression notifies, `last` being the payload delivered before them, if
any (42_resync.md R189): the first, and each that differs from the one before it. -/
def notifiedOf (last : Option Payload) : List Delivery → List Delivery
  | [] => []
  | d :: ds =>
    if last = some d.payload then notifiedOf (some d.payload) ds
    else d :: notifiedOf (some d.payload) ds

/-! ## What the outside sees -/

/-- Two states show the same value, or the same fault or refusal, on every output port. -/
def sameView (s t : State) : Prop := ∀ port, readPort port s = readPort port t

/-- What the consumer of the synchronizer sees: the pulse, the level and the held frame
(41_sync.md R142). -/
def sameSyncView (s t : State) : Prop :=
  s.frameReadyQ = t.frameReadyQ ∧ frameAvail s = frameAvail t ∧ heldPayload s = heldPayload t

/-- Two outcomes that both go on to related states, or stop for the same reason. -/
def outcomesAgree (R : State → State → Prop) (o o' : Host.Outcome State Fault Refusal) : Prop :=
  match o, o' with
  | .next s, .next t => R s t
  | .fault r, .fault r' => r = r'
  | .refused r, .refused r' => r = r'
  | _, _ => False

end Sys2Proof.Machine
end

