-- ==== Sys2Proof/Certificates/Slice0/Obligations.lean ====
section
/-! DEFINITION. The statements about the block, for the provers. Each docstring names the rules of spec/ it
rests on; a clause that is the spec's own decision or the model's choice says so. -/

open Sys2Proof Sys2Proof.Machine

/-! ## Encoding -/

/-- Keys of vectors T1, T2, T3, T5, T8, T12, T14, T15 and T18 of 95_test_vectors.md, section 2.2, written
out there from 30_encoding.md R81, decode to the operation the vector names. -/
def Obligations.VectorKeysDecode : Prop :=
  decodeKey 0x7E10F#19 = .ok (.reset true true true true .capturing 1#5 0x0F#8) ∧
  decodeKey 0x2AC0F#19 = .ok (.errFlush false true false .capturing 12#5 0x0F#8) ∧
  decodeKey 0x12C00#19 = .ok (.noByte true false .capturing 12#5 0x00#8) ∧
  decodeKey 0x0EC0F#19 = .ok (.gapFlush false .capturing 12#5 0x0F#8) ∧
  decodeKey 0x0B900#19 = .ok (.guard false .capturing 25#5 0x00#8) ∧
  decodeKey 0x0800F#19 = .ok .huntHdr ∧
  decodeKey 0x080FF#19 = .ok (.huntSkip 0xFF#8) ∧
  decodeKey 0x0A10F#19 = .ok (.capture 1#5 0x0F#8) ∧
  decodeKey 0x0B800#19 = .ok .footerOk ∧
  decodeKey 0x0B80F#19 = .ok (.footerBad 0x0F#8) ∧
  decodeKey 0x0830F#19 = .error (.unmatchedKey 0x030F#14)

/-- Decoding the encoding of a well-formed operation gives it back, at every value of every operand:
no bit of a key is dropped (30_encoding.md R81 to R83). -/
def Obligations.DecodeOfEncode : Prop :=
  ∀ (i : Instr) (w : Word), i.wellFormed = true → encode i = some w → decodeWord w = .ok i

/-- What the decoder gives is well-formed, and its encoding is the word it was read from; for a step key
that selects no pre-step (R82 row 6) it is the dispatch key of that word. -/
def Obligations.EncodeOfDecode : Prop :=
  (∀ (e : DispatchKey) (i : Instr), decodeDispatch e = .ok i →
    i.wellFormed = true ∧ encode i = some (.dispatch e)) ∧
  (∀ (k : StepKey) (i : Instr), decodeKey k = .ok i →
    i.wellFormed = true ∧ (encode i = some (.key k) ∨ encode i = some (.dispatch (keyDispatch k))))

/-- The pre-step decode by fields: the rows of 30_encoding.md R82 in their order, row 6 going on to the
dispatch decode of `(S, N, B)`. -/
def Obligations.PreStepDecodeFollowsPriority : Prop :=
  ∀ (rst err tck vld gx : Bool) (s : SyncState) (n : Count) (b : Byte),
    let k := mkKey rst err tck vld gx s n b
    (rst = true → decodeKey k = .ok (.reset err tck vld gx s n b)) ∧
    (rst = false → err = true → decodeKey k = .ok (.errFlush tck vld gx s n b)) ∧
    (rst = false → err = false → vld = false → decodeKey k = .ok (.noByte tck gx s n b)) ∧
    (rst = false → err = false → vld = true → gx = true → decodeKey k = .ok (.gapFlush tck s n b)) ∧
    (rst = false → err = false → vld = true → gx = false → 25 ≤ n.toNat →
      decodeKey k = .ok (.guard tck s n b)) ∧
    (rst = false → err = false → vld = true → gx = false → n.toNat ≤ 24 →
      decodeKey k = decodeDispatch (mkDispatch s n b))

/-- The dispatch decode by fields: the rows of 30_encoding.md R83, and the unmatched keys of R84, which
are exactly `S' = IDLE` with `N' != 0`, and `S' = CAPTURING` with `N' = 0` or `N' >= 25`. -/
def Obligations.DispatchDecodeFollowsRows : Prop :=
  ∀ (s : SyncState) (n : Count) (b : Byte),
    let r := decodeDispatch (mkDispatch s n b)
    (r = .ok .huntHdr ↔ s = .idle ∧ n = 0#5 ∧ b = 0x0F#8) ∧
    (r = .ok (.huntSkip b) ↔ s = .idle ∧ n = 0#5 ∧ b ≠ 0x0F#8) ∧
    (r = .ok (.capture n b) ↔ s = .capturing ∧ 1 ≤ n.toNat ∧ n.toNat ≤ 23) ∧
    (r = .ok .footerOk ↔ s = .capturing ∧ n = 24#5 ∧ b = 0x00#8) ∧
    (r = .ok (.footerBad b) ↔ s = .capturing ∧ n = 24#5 ∧ b ≠ 0x00#8) ∧
    (r = .error (.unmatchedKey (mkDispatch s n b)) ↔
      (s = .idle ∧ n ≠ 0#5) ∨ (s = .capturing ∧ (n = 0#5 ∨ 25 ≤ n.toNat)))

/-! ## The step -/

/-- A step whose next input is a clock cycle decodes the step key of that cycle and runs the operation;
beside it the gap counter, the duplicate-suppression stage and the input count update. -/
def Obligations.StepRunsTheDecodedOperation : Prop :=
  ∀ (s : State) (c : Ciw) (i : Instr), nextInput s = .cycle c → decodeKey (stepKey c s) = .ok i →
    step s = andThen (exec i s.takeInput) (fun t => .next (t.besideStep c i))

/-- A context outside the invariant has no successor (10_state.md R21, 30_encoding.md R84, the spec's decision
D33): a cycle that is no reset, a buffer with a byte, `INGEST` and each operation of a step other than
`RESET` raise `InvariantViolation` there; and a key that matches no row comes from such a context only. -/
def Obligations.IllegalContextFaults : Prop :=
  (∀ (s : State) (c : Ciw) (e : DecodeError), decodeKey (stepKey c s) = .error e → ¬ s.ctx.legal) ∧
  ∀ s : State, ¬ s.ctx.legal →
    (∀ c, nextInput s = .cycle c → ciwRst c = false → step s = .fault .invariantViolation) ∧
    (∀ b bs, nextInput s = .batch (b :: bs) → step s = .fault .invariantViolation) ∧
    (∀ e v g b, exec (.ingest false e v g b) s = .fault .invariantViolation) ∧
    (∀ k v g st n b, exec (.errFlush k v g st n b) s = .fault .invariantViolation) ∧
    (∀ k g st n b, exec (.noByte k g st n b) s = .fault .invariantViolation) ∧
    (∀ k st n b, exec (.gapFlush k st n b) s = .fault .invariantViolation) ∧
    (∀ k st n b, exec (.guard k st n b) s = .fault .invariantViolation) ∧
    exec .huntHdr s = .fault .invariantViolation ∧
    (∀ b, exec (.huntSkip b) s = .fault .invariantViolation) ∧
    (∀ n b, exec (.capture n b) s = .fault .invariantViolation) ∧
    exec .footerOk s = .fault .invariantViolation ∧
    (∀ b, exec (.footerBad b) s = .fault .invariantViolation)

/-- `INGEST` (41_sync.md R131) is the composition of the pre-step decode and the dispatch decode
(30_encoding.md R85): in every legal context it answers exactly what the decoded operation answers; in
any context, a key that decodes to nothing is the fault of R84. -/
def Obligations.IngestIsTheDecodedStep : Prop :=
  ∀ (s : State) (rst err tck vld gx : Bool) (b : Byte),
    let k := mkKey rst err tck vld gx s.ctx.state s.ctx.nbytes b
    (s.ctx.legal → ∃ i t, decodeKey k = .ok i ∧ exec i s = .next t ∧
      exec (.ingest rst err vld gx b) s = .next t) ∧
    (∀ i, decodeKey k = .ok i → exec (.ingest rst err vld gx b) s = exec i s) ∧
    (∀ e, decodeKey k = .error e → exec (.ingest rst err vld gx b) s = .fault .invariantViolation)

/-- One clock edge (42_resync.md R190): the registers after the edge are those of the decoded operation,
of `GAP_TICK`, and of the duplicate-suppression stage: cleared by `rst`, updated by `DEDUP` at a
`FOOTER_OK`, and otherwise kept with `dd_notify_q` at 0. -/
def Obligations.ClockEdgeWritesEveryRegister : Prop :=
  ∀ (s t : State) (c : Ciw) (i : Instr), decodeKey (stepKey c s) = .ok i → exec i s = .next t →
    ∃ u, clockEdge c s = .next u ∧
      u.cfg = s.cfg ∧ u.ctx = t.ctx ∧ u.frameReadyQ = t.frameReadyQ ∧
      u.frameRejectedQ = t.frameRejectedQ ∧ u.tx = s.tx ∧ u.unpackOut = s.unpackOut ∧
      u.inputs = s.inputs ∧ u.obs.index = s.obs.index + 1 ∧
      (∃ g, exec (.gapTick (ciwRst c) (ciwErr c) (ciwVld c) (ciwTck c)) s = .next g ∧
        u.gapCnt = g.gapCnt) ∧
      (s.cfg.hasDedup = false →
        u.ddLast = s.ddLast ∧ u.ddHave = s.ddHave ∧ u.ddNotifyQ = s.ddNotifyQ) ∧
      (s.cfg.hasDedup = true → ciwRst c = true →
        u.ddLast = s.ddLast ∧ u.ddHave = false ∧ u.ddNotifyQ = false) ∧
      (s.cfg.hasDedup = true → ciwRst c = false → i ≠ .footerOk →
        u.ddLast = s.ddLast ∧ u.ddHave = s.ddHave ∧ u.ddNotifyQ = false) ∧
      (s.cfg.hasDedup = true → i = .footerOk →
        ∃ d, exec (.dedup t.ctx.buf) t = .next d ∧
          u.ddLast = d.ddLast ∧ u.ddHave = d.ddHave ∧ u.ddNotifyQ = d.ddNotifyQ ∧
          u.obs.notified = d.obs.notified)

/-! ## The synchronizer's operations -/

/-- `RESET` (70_reset_and_hazards.md R231; its form is the spec's decision D29): from any state and
whatever the other inputs. `buf` and `dd_last` keep their bytes; the `DEDUP` fields are cleared where
the stage exists. -/
def Obligations.ResetClearsTheSession : Prop :=
  ∀ (s : State) (e t v g : Bool) (st : SyncState) (n : Count) (b : Byte),
    ∃ u, exec (.reset e t v g st n b) s = .next u ∧
      u.ctx.state = .idle ∧ u.ctx.nbytes = 0#5 ∧ u.gapCnt = 0 ∧ u.frameReadyQ = false ∧
      u.frameRejectedQ = false ∧ frameAvail u = false ∧
      (s.cfg.hasDedup = true → u.ddHave = false ∧ u.ddNotifyQ = false) ∧
      (s.cfg.hasDedup = false → u.ddHave = s.ddHave ∧ u.ddNotifyQ = s.ddNotifyQ) ∧
      (∀ a, Memory.read u.ctx.buf a = Memory.read s.ctx.buf a) ∧
      (∀ a, Memory.read u.ddLast a = Memory.read s.ddLast a) ∧
      u.cfg = s.cfg ∧ u.tx = s.tx ∧ u.unpackOut = s.unpackOut ∧ u.inputs = s.inputs ∧
      u.obs.delivered = s.obs.delivered ∧ u.obs.notified = s.obs.notified

/-- `ERR_FLUSH` (41_sync.md R132): the forced reset, whatever the byte and the legal context; `buf` unchanged,
no pulse; from (IDLE, 0) the context does not change, and a second flush changes nothing more. -/
def Obligations.ErrFlushForcesIdle : Prop :=
  ∀ (s : State) (t v g : Bool) (st : SyncState) (n : Count) (b : Byte), s.ctx.legal →
    ∃ u, exec (.errFlush t v g st n b) s = .next u ∧
      u.ctx.state = .idle ∧ u.ctx.nbytes = 0#5 ∧
      (∀ a, Memory.read u.ctx.buf a = Memory.read s.ctx.buf a) ∧
      u.frameReadyQ = false ∧ u.frameRejectedQ = false ∧ frameAvail u = false ∧
      sameOutsideSync s u ∧ u.obs.delivered = s.obs.delivered ∧
      (s.ctx.state = .idle → s.ctx.nbytes = 0#5 → u.ctx = s.ctx) ∧
      exec (.errFlush t v g st n b) u = .next u

/-- A byte presented in an error cycle is dropped and is no delivery event: the gap counter goes on as in
an error cycle without it (the spec's decisions D11 and D12; 95_test_vectors.md G6, G7, G10). -/
def Obligations.ErrorCycleDropsTheByte : Prop :=
  ∀ (s : State) (t v : Bool) (b : Byte), s.ctx.legal → nextInput s = .cycle (mkCiw false true t v b) →
    ∃ u, step s = .next u ∧ u.ctx.state = .idle ∧ u.ctx.nbytes = 0#5 ∧
      (∀ a, Memory.read u.ctx.buf a = Memory.read s.ctx.buf a) ∧
      u.gapCnt = (if t = true ∧ s.gapCnt < s.cfg.gapMax then s.gapCnt + 1 else s.gapCnt) ∧
      u.ddLast = s.ddLast ∧ u.ddHave = s.ddHave

/-- `NO_BYTE` (41_sync.md R135): the context is unchanged, with `gap_exceeded` set too, and a held frame
stays. -/
def Obligations.NoByteKeepsTheContext : Prop :=
  ∀ (s : State) (t g : Bool) (st : SyncState) (n : Count) (b : Byte), s.ctx.legal →
    ∃ u, exec (.noByte t g st n b) s = .next u ∧ u.ctx = s.ctx ∧ frameAvail u = frameAvail s ∧
      heldPayload u = heldPayload s ∧ u.frameReadyQ = false ∧ u.frameRejectedQ = false ∧
      sameOutsideSync s u ∧ u.obs.delivered = s.obs.delivered

/-- `GAP_FLUSH` (41_sync.md R133): the context is flushed and the byte is hunted in the same step: a
header starts a capture at once, any other byte leaves (IDLE, 0); `ready` is 0. -/
def Obligations.GapFlushThenHunts : Prop :=
  ∀ (s : State) (t : Bool) (st : SyncState) (n : Count) (b : Byte), s.ctx.legal →
    decodeKey (mkKey false false t true true st n b) = .ok (.gapFlush t st n b) ∧
    ∃ u, exec (.gapFlush t st n b) s = .next u ∧
      (b = 0x0F#8 → u.ctx.state = .capturing ∧ u.ctx.nbytes = 1#5 ∧
        Memory.read u.ctx.buf 0 = 0x0F#8 ∧ sameBytesExcept 0 s.ctx.buf u.ctx.buf) ∧
      (b ≠ 0x0F#8 → u.ctx.state = .idle ∧ u.ctx.nbytes = 0#5 ∧
        ∀ a, Memory.read u.ctx.buf a = Memory.read s.ctx.buf a) ∧
      u.frameReadyQ = false ∧ u.frameRejectedQ = false ∧ frameAvail u = false ∧
      sameOutsideSync s u ∧ u.obs.delivered = s.obs.delivered

/-- `GUARD` (41_sync.md R134): selected at a count of 25 or more, which in a legal context is 25 in
CAPTURING; the capture is discarded and the byte is examined as a possible header in the same step. -/
def Obligations.GuardDiscardsThenHunts : Prop :=
  ∀ (s : State) (t : Bool) (st : SyncState) (n : Count) (b : Byte), s.ctx.legal → 25 ≤ n.toNat →
    decodeKey (mkKey false false t true false st n b) = .ok (.guard t st n b) ∧
    (s.ctx.nbytes = n → s.ctx.state = .capturing ∧ n = 25#5) ∧
    ∃ u, exec (.guard t st n b) s = .next u ∧
      (b = 0x0F#8 → u.ctx.state = .capturing ∧ u.ctx.nbytes = 1#5 ∧
        Memory.read u.ctx.buf 0 = 0x0F#8 ∧ sameBytesExcept 0 s.ctx.buf u.ctx.buf) ∧
      (b ≠ 0x0F#8 → u.ctx.state = .idle ∧ u.ctx.nbytes = 0#5 ∧
        ∀ a, Memory.read u.ctx.buf a = Memory.read s.ctx.buf a) ∧
      u.frameReadyQ = false ∧ u.frameRejectedQ = false ∧ frameAvail u = false ∧
      sameOutsideSync s u ∧ u.obs.delivered = s.obs.delivered

/-- `HUNT_HDR` (41_sync.md R136): a byte `0x0F` while hunting starts a capture. -/
def Obligations.HuntHdrStartsCapture : Prop :=
  decodeDispatch (mkDispatch .idle 0#5 0x0F#8) = .ok .huntHdr ∧
  ∀ s : State, s.ctx.legal → ∃ u, exec .huntHdr s = .next u ∧
    u.ctx.state = .capturing ∧ u.ctx.nbytes = 1#5 ∧ Memory.read u.ctx.buf 0 = 0x0F#8 ∧
    sameBytesExcept 0 s.ctx.buf u.ctx.buf ∧ u.frameReadyQ = false ∧ u.frameRejectedQ = false ∧
    sameOutsideSync s u ∧ u.obs.delivered = s.obs.delivered

/-- `HUNT_SKIP` (41_sync.md R137): any other byte is discarded and the state remains IDLE. -/
def Obligations.HuntSkipDiscardsTheByte : Prop :=
  ∀ (s : State) (b : Byte), s.ctx.legal → b ≠ 0x0F#8 →
    decodeDispatch (mkDispatch .idle 0#5 b) = .ok (.huntSkip b) ∧
    ∃ u, exec (.huntSkip b) s = .next u ∧ u.ctx.state = .idle ∧ u.ctx.nbytes = 0#5 ∧
      (∀ a, Memory.read u.ctx.buf a = Memory.read s.ctx.buf a) ∧
      u.frameReadyQ = false ∧ u.frameRejectedQ = false ∧
      sameOutsideSync s u ∧ u.obs.delivered = s.obs.delivered

/-- `CAPTURE` (41_sync.md R138): the byte, whatever it is, is written at `buf[n]` and the count goes up by
one; no frame is ready. -/
def Obligations.CaptureAppendsTheByte : Prop :=
  ∀ (s : State) (n : Count) (b : Byte), s.ctx.legal → 1 ≤ n.toNat → n.toNat ≤ 23 →
    decodeDispatch (mkDispatch .capturing n b) = .ok (.capture n b) ∧
    ∃ u, exec (.capture n b) s = .next u ∧ u.ctx.state = .capturing ∧
      u.ctx.nbytes.toNat = n.toNat + 1 ∧
      (∀ a : Fin 25, a.val = n.toNat → Memory.read u.ctx.buf a = b) ∧
      sameBytesExcept n.toNat s.ctx.buf u.ctx.buf ∧ u.frameReadyQ = false ∧
      u.frameRejectedQ = false ∧ frameAvail u = false ∧
      sameOutsideSync s u ∧ u.obs.delivered = s.obs.delivered

/-- `FOOTER_OK` (41_sync.md R139): the 25th byte `0x00` makes the frame ready, and the context stays at
(CAPTURING, 25) with the frame available; a byte that comes next meets the overflow guard. That the payload is
delivered is said in the record of 70_reset_and_hazards.md R246, whose form is the model's choice
(notes/assumptions/5.md). -/
def Obligations.FooterOkSignalsReady : Prop :=
  decodeDispatch (mkDispatch .capturing 24#5 0x00#8) = .ok .footerOk ∧
  ∀ s : State, s.ctx.legal → ∃ u, exec .footerOk s = .next u ∧
    u.ctx.state = .capturing ∧ u.ctx.nbytes = 25#5 ∧ Memory.read u.ctx.buf 24 = 0x00#8 ∧
    sameBytesExcept 24 s.ctx.buf u.ctx.buf ∧ u.frameReadyQ = true ∧ u.frameRejectedQ = false ∧
    frameAvail u = true ∧ sameOutsideSync s u ∧
    u.obs.delivered = s.obs.delivered ++ [{ index := s.obs.index, payload := u.ctx.buf }] ∧
    ∀ b, decodeKey (mkKey false false false true false u.ctx.state u.ctx.nbytes b) =
      .ok (.guard false u.ctx.state u.ctx.nbytes b)

/-- `FOOTER_BAD` (41_sync.md R140): a 25th byte other than `0x00` gives no ready pulse and no held frame;
the context stays at (CAPTURING, 25), `reject` is 1 exactly where `EXPOSE_REJECT`, and a byte that comes
next meets the overflow guard. -/
def Obligations.FooterBadRejects : Prop :=
  ∀ (s : State) (b : Byte), s.ctx.legal → b ≠ 0x00#8 →
    decodeDispatch (mkDispatch .capturing 24#5 b) = .ok (.footerBad b) ∧
    ∃ u, exec (.footerBad b) s = .next u ∧
      u.ctx.state = .capturing ∧ u.ctx.nbytes = 25#5 ∧ Memory.read u.ctx.buf 24 = b ∧
      sameBytesExcept 24 s.ctx.buf u.ctx.buf ∧ u.frameReadyQ = false ∧
      u.frameRejectedQ = s.cfg.exposeReject ∧ frameAvail u = false ∧
      sameOutsideSync s u ∧ u.obs.delivered = s.obs.delivered ∧
      ∀ b', decodeKey (mkKey false false false true false u.ctx.state u.ctx.nbytes b') =
        .ok (.guard false u.ctx.state u.ctx.nbytes b')

/-- The hunt is left only by a header (60_exceptions.md R209): a clock cycle that goes from IDLE to
CAPTURING delivered the byte `0x0F`, and the capture has just begun. -/
def Obligations.HuntIsLeftOnlyByAHeader : Prop :=
  ∀ (s t : State) (c : Ciw), nextInput s = .cycle c → step s = .next t → s.ctx.state = .idle →
    t.ctx.state = .capturing →
    ciwRst c = false ∧ ciwErr c = false ∧ ciwVld c = true ∧ ciwByte c = 0x0F#8 ∧ t.ctx.nbytes = 1#5

/-- What each operation is recorded as (60_exceptions.md R201; the codes are the spec's decision D27): one
code, or the code of the pre-step and then that of the byte rule. -/
def Obligations.EventCodesOfACycle : Prop :=
  ∀ (s t : State) (c : Ciw) (i : Instr), nextInput s = .cycle c → step s = .next t →
    decodeKey (stepKey c s) = .ok i →
    (∀ e k v g st n b, i = .reset e k v g st n b → eventCodes t = [5]) ∧
    (∀ k v g st n b, i = .errFlush k v g st n b → eventCodes t = [4]) ∧
    (∀ k g st n b, i = .noByte k g st n b → eventCodes t = [0]) ∧
    (∀ k st n b, i = .gapFlush k st n b → eventCodes t = if b = 0x0F#8 then [3, 0] else [3, 1]) ∧
    (∀ k st n b, i = .guard k st n b → eventCodes t = if b = 0x0F#8 then [6, 0] else [6, 1]) ∧
    (i = .huntHdr → eventCodes t = [0]) ∧ (∀ b, i = .huntSkip b → eventCodes t = [1]) ∧
    (∀ n b, i = .capture n b → eventCodes t = [0]) ∧ (i = .footerOk → eventCodes t = [0]) ∧
    (∀ b, i = .footerBad b → eventCodes t = [2]) ∧ (eventCodes t).length ≤ 2

/-! ## The codec -/

/-- `PACK` (40_codec.md R100): the wire frame of the inputs driven, bit by bit: channel `i` bit `k` at
`D[11*i + k]`, the flags in bits 0..3 of byte 23 and zeros above, the header and the footer; nothing
else of the machine changes. A channel port is `CH_IN_WIDTH` bits wide (10_state.md R40, 00_scope.md R12), and
a frame of that width passes as it is; that the port cuts a wider value to its low bits is the model's reading
(notes/assumptions/19.md). -/
def Obligations.PackLaysOutTheFrame : Prop :=
  ∀ (s : State) (f : FrameIn), ∃ t, exec (.pack f) s = .next t ∧ t = { s with tx := t.tx } ∧
    (frameFits s.cfg.chInWidth f → t.tx = f) ∧
    (txPayload t)[0] = 0x0F#8 ∧ (txPayload t)[24] = 0x00#8 ∧
    (∀ (i : Fin 16) (k : Fin 11), dataBit (txPayload t) (11 * i.val + k.val) =
      (decide (k.val < s.cfg.chInWidth) && f.channels[i].testBit k.val)) ∧
    (txPayload t)[23].getLsbD 0 = f.switches[0] ∧ (txPayload t)[23].getLsbD 1 = f.switches[1] ∧
    (txPayload t)[23].getLsbD 2 = f.frameLost ∧ (txPayload t)[23].getLsbD 3 = f.failsafe ∧
    (txPayload t)[23] &&& 0xF0#8 = 0x00#8

/-- `PACK` masks its channel inputs (40_codec.md R101): the payload depends on the low 11 bits of each
channel alone. -/
def Obligations.PackMasksChannels : Prop :=
  ∀ f g : FrameIn, (∀ i : Fin 16, f.channels[i] &&& 0x7FF = g.channels[i] &&& 0x7FF) →
    f.switches = g.switches → f.frameLost = g.frameLost → f.failsafe = g.failsafe → pack f = pack g

/-- `UNPACK` (40_codec.md R110): channel `i` bit `k` is `D[11*i + k]`, the flags are bits 0..3 of byte 23;
it is total, and nothing of the machine changes but the field `unpackOut`, the model's own, where the caller's
result stands (notes/assumptions/6.md). -/
def Obligations.UnpackReadsTheFrame : Prop :=
  ∀ (s : State) (p : Payload), ∃ t, exec (.unpack p) s = .next t ∧
    t = { s with unpackOut := t.unpackOut } ∧
    (∀ (i : Fin 16) (k : Fin 11),
      t.unpackOut.channels[i].getLsbD k.val = dataBit p (11 * i.val + k.val)) ∧
    t.unpackOut.switches[0] = p[23].getLsbD 0 ∧ t.unpackOut.switches[1] = p[23].getLsbD 1 ∧
    t.unpackOut.frameLost = p[23].getLsbD 2 ∧ t.unpackOut.failsafe = p[23].getLsbD 3

/-- What `UNPACK` does not read (40_codec.md R111): bytes 0 and 24 and status bits 4..7 do not affect the
result (the status bits are the spec's decision D16). -/
def Obligations.UnpackIgnoresUncheckedBits : Prop :=
  ∀ p q : Payload, (∀ j : Fin 25, 1 ≤ j.val → j.val ≤ 22 → p[j] = q[j]) →
    p[23] &&& 0x0F#8 = q[23] &&& 0x0F#8 → unpack p = unpack q

/-- The round trip (40_codec.md R112): `UNPACK(PACK(f))` is `f` with each channel masked to 11 bits, and is
`f` for every `Frame`. -/
def Obligations.UnpackOfPackIsTheFrame : Prop :=
  (∀ f : FrameIn, unpack (pack f) = maskedFrame f) ∧
  (∀ f : Frame, unpack (pack (frameAsInput f)) = f)

/-- The reverse round trip (40_codec.md R113): `PACK(UNPACK(p))` is `p` with the header, the footer and the
reserved status bits set right, and is `p` exactly when they are. -/
def Obligations.PackOfUnpackIsThePayload : Prop :=
  ∀ p : Payload,
    let q := pack (frameAsInput (unpack p))
    (∀ j : Fin 25, 1 ≤ j.val → j.val ≤ 22 → q[j] = p[j]) ∧ q[0] = 0x0F#8 ∧ q[24] = 0x00#8 ∧
    q[23] = p[23] &&& 0x0F#8 ∧
    (q = p ↔ p[0] = 0x0F#8 ∧ p[24] = 0x00#8 ∧ p[23] &&& 0xF0#8 = 0x00#8)

/-- The sixteen channel equations of 30_encoding.md R75 give the channels of `UNPACK`. -/
def Obligations.ChannelEquationsAgree : Prop :=
  ∀ p : Payload, channelEquations p = (unpack p).channels

/-- The twenty-two byte equations of 30_encoding.md R76 give the data bytes of `PACK`. -/
def Obligations.ByteEquationsAgree : Prop :=
  ∀ (f : FrameIn) (j : Fin 22),
    (byteEquations (f.channels.map maskChannel))[j] = (pack f).toList.getD (j.val + 1) 0#8

/-! ## The gap monitor -/

/-- `GAP_TICK` (42_resync.md R171, the spec's decisions D8, D10, D12 and D34): reset and a delivery clear
the counter, a tick otherwise counts up to saturation at `2^GAP_CNT_WIDTH - 1`, an error cycle counts like
an idle one; nothing else changes. -/
def Obligations.GapTickCountsTicks : Prop :=
  ∀ (s : State) (rst err vld tck : Bool), ∃ t, exec (.gapTick rst err vld tck) s = .next t ∧
    t = { s with gapCnt := t.gapCnt } ∧
    (rst = true → t.gapCnt = 0) ∧
    (rst = false → err = false → vld = true → t.gapCnt = 0) ∧
    (rst = false → (err = true ∨ vld = false) → tck = true →
      t.gapCnt = if s.gapCnt < s.cfg.gapMax then s.gapCnt + 1 else s.gapCnt) ∧
    (rst = false → (err = true ∨ vld = false) → tck = false → t.gapCnt = s.gapCnt)

/-- Between deliveries the counter holds the number of ticks, saturated (42_resync.md R172, 10_state.md
R26): over any run of cycles none of which is a reset or a delivery, from a count that fits its register
(a clause of `State.Inv`). -/
def Obligations.GapCounterCountsTicksSinceDelivery : Prop :=
  ∀ (cs : List Ciw) (s : State), s.ctx.legal → s.gapCnt ≤ s.cfg.gapMax →
    (∀ c ∈ cs, ciwRst c = false ∧ isDelivery (ciwRst c) (ciwErr c) (ciwVld c) = false) →
    ∃ t, stepMany cs.length { s with inputs := cs.map Input.cycle ++ s.inputs } = .next t ∧
      t.inputs = s.inputs ∧ t.gapCnt = min (s.gapCnt + (cs.filter ciwTck).length) s.cfg.gapMax

/-- The threshold is strict (42_resync.md R172, the spec's decision D35): a delivery is preceded by a gap
flush exactly when more than `GAP_LIMIT` ticks were counted; with the defaults, after 4 or more and not
after 0 to 3. -/
def Obligations.GapFlushAboveTheLimitOnly : Prop :=
  ∀ (s : State) (c : Ciw), isDelivery (ciwRst c) (ciwErr c) (ciwVld c) = true →
    ((∃ k st n b, decodeKey (stepKey c s) = .ok (.gapFlush k st n b)) ↔
      s.cfg.gapLimit < s.gapCnt) ∧
    (s.cfg = Config.defaultParams →
      ((∃ k st n b, decodeKey (stepKey c s) = .ok (.gapFlush k st n b)) ↔ 4 ≤ s.gapCnt))

/-- Ticks and wall-clock time (42_resync.md R174), with time in clock cycles and a tick source of period `T`:
from a delivery at cycle 0 on, over cycles that deliver nothing, to a delivery at cycle `t`, the counter holds
the pulses between (saturated), which are `floor(t/T)` or `ceil(t/T)`; so the block certainly flushes from
`(GAP_LIMIT+1)*T` on and certainly does not up to `GAP_LIMIT*T`. Where both deliveries fall on pulses, which
are both dropped (R171), the count is one less (notes/assumptions/12.md). -/
def Obligations.WallClockGapBounds : Prop :=
  ∀ (s : State) (cs : List Ciw) (c : Ciw) (T φ : Nat), s.ctx.legal → s.cfg.valid → s.gapCnt = 0 → φ < T →
    (∀ d ∈ cs, ciwRst d = false ∧ isDelivery (ciwRst d) (ciwErr d) (ciwVld d) = false) →
    (∀ (k : Nat) (h : k < cs.length), ciwTck cs[k] = tickAt T φ (k + 1)) →
    isDelivery (ciwRst c) (ciwErr c) (ciwVld c) = true →
    let t := cs.length + 1
    ∃ u n, stepMany cs.length { s with inputs := cs.map Input.cycle ++ s.inputs } = .next u ∧
      u.gapCnt = min n s.cfg.gapMax ∧
      (¬ (φ = 0 ∧ t % T = 0) → n = t / T ∨ n = (t + T - 1) / T) ∧
      (φ = 0 ∧ t % T = 0 → n = t / T - 1) ∧
      ((∃ k st m b, decodeKey (stepKey c u) = .ok (.gapFlush k st m b)) ↔ s.cfg.gapLimit < n) ∧
      (¬ (φ = 0 ∧ t % T = 0) → (s.cfg.gapLimit + 1) * T ≤ t →
        ∃ k st m b, decodeKey (stepKey c u) = .ok (.gapFlush k st m b)) ∧
      (t ≤ s.cfg.gapLimit * T → ¬ ∃ k st m b, decodeKey (stepKey c u) = .ok (.gapFlush k st m b))

/-! ## Batch ingest -/

/-- `INGEST_BATCH` (42_resync.md R180): an empty buffer changes nothing, with the gap flag set too; a
buffer is one `INGEST` with the gap flag and then the rest without it; from a legal context it always
completes, in a legal context, and touches nothing outside the synchronizer. -/
def Obligations.BatchIngestsByteByByte : Prop :=
  ∀ (s : State) (gx : Bool),
    exec (.ingestBatch gx []) s = .next s ∧
    (∀ b bs, exec (.ingestBatch gx (b :: bs)) s =
      andThen (exec (.ingest false false true gx b) s)
        (fun t => exec (.ingestBatch false bs) t.countInput)) ∧
    (s.ctx.legal → ∀ bs, ∃ t, exec (.ingestBatch gx bs) s = .next t ∧ t.ctx.legal ∧
      t.obs.index = s.obs.index + bs.length ∧ t.cfg = s.cfg ∧ t.gapCnt = s.gapCnt ∧
      t.ddLast = s.ddLast ∧ t.ddHave = s.ddHave ∧ t.ddNotifyQ = s.ddNotifyQ ∧ t.tx = s.tx ∧
      t.unpackOut = s.unpackOut ∧ t.inputs = s.inputs ∧ t.obs.notified = s.obs.notified)

/-- The batch and the cycle model agree (42_resync.md R181): delivering a buffer in one transaction gives
exactly the state of its bytes on consecutive cycles with no tick between, the frames passed on and the
notifications included. -/
def Obligations.BatchEqualsConsecutiveCycles : Prop :=
  ∀ (s : State) (bs : List Byte),
    step { s with inputs := .batch bs :: s.inputs } = stepMany bs.length (s.feed bs)

/-! ## Duplicate suppression -/

/-- `DEDUP` (42_resync.md R186): where the stage exists, a payload is notified exactly when it is the first
since reset or differs from the last delivered one in some byte, and it becomes the last delivered one;
where it does not exist nothing happens (notes/assumptions/10.md). -/
def Obligations.DedupNotifiesChanges : Prop :=
  ∀ (s : State) (p : Payload),
    (s.cfg.hasDedup = false → exec (.dedup p) s = .next s) ∧
    (s.cfg.hasDedup = true → ∃ t, exec (.dedup p) s = .next t ∧
      (t.ddNotifyQ = true ↔ s.ddHave = false ∨ ∃ i : Fin 25, Memory.read s.ddLast i ≠ p[i]) ∧
      (∀ i : Fin 25, Memory.read t.ddLast i = p[i]) ∧ t.ddHave = true ∧
      t = { s with
        ddLast := t.ddLast, ddHave := t.ddHave, ddNotifyQ := t.ddNotifyQ,
        obs := { s.obs with notified := t.obs.notified } })

/-- Only `rst` clears the history (42_resync.md R188, the spec's decision D19): a cycle that is neither a
reset nor an accepting step leaves `dd_last` and `dd_have`, whatever it flushes. -/
def Obligations.FlushesKeepTheDedupHistory : Prop :=
  ∀ (s t : State) (c : Ciw), nextInput s = .cycle c → ciwRst c = false → step s = .next t →
    t.frameReadyQ = false → t.ddLast = s.ddLast ∧ t.ddHave = s.ddHave

/-- The notified sequence (42_resync.md R189): over any run in which no reset is presented, the notified
payloads are those of the delivered ones that differ from the one delivered before. The two lists are the
record of 70_reset_and_hazards.md R246 (notes/assumptions/5.md). -/
def Obligations.NotifiedAreTheChangesOfDelivered : Prop :=
  ∀ (k : Nat) (s t : State), s.cfg.hasDedup = true → stepMany k s = .next t →
    (∀ i ∈ s.inputs.take k, i.isReset = false) →
    ∃ new, t.obs.delivered = s.obs.delivered ++ new ∧
      t.obs.notified =
        s.obs.notified ++ notifiedOf (if s.ddHave then some s.ddLast else none) new

/-! ## Outputs -/

/-- The pulses (10_state.md R25, R28; 42_resync.md R191): after a clock cycle, `frame_ready` is high exactly
when the cycle's operation was `FOOTER_OK`, `frame_rejected` exactly when it was `FOOTER_BAD` and the
output exists, and never both. -/
def Obligations.PulsesFollowTheOperation : Prop :=
  ∀ (s t : State) (c : Ciw), nextInput s = .cycle c → step s = .next t →
    (t.frameReadyQ = true ↔ decodeKey (stepKey c s) = .ok .footerOk) ∧
    (t.frameRejectedQ = true ↔
      s.cfg.exposeReject = true ∧ ∃ b, decodeKey (stepKey c s) = .ok (.footerBad b)) ∧
    ¬ (t.frameReadyQ = true ∧ t.frameRejectedQ = true)

/-- The window of a held frame (42_resync.md R191, 70_reset_and_hazards.md R241): a cycle that delivers
nothing, with no error and no reset, keeps the frame and its payload; any other cycle ends the window,
unless it accepts a frame itself. -/
def Obligations.HeldFrameWindow : Prop :=
  ∀ (s t : State) (c : Ciw), nextInput s = .cycle c → step s = .next t →
    (ciwRst c = false → ciwErr c = false → ciwVld c = false →
      frameAvail t = frameAvail s ∧ heldPayload t = heldPayload s) ∧
    (ciwRst c = true ∨ ciwErr c = true ∨ ciwVld c = true →
      (frameAvail t = true ↔ decodeKey (stepKey c s) = .ok .footerOk))

/-- A held frame is a complete accepted payload (10_state.md R23), and the ports show it and its `UNPACK`
(40_codec.md R116). -/
def Obligations.HeldFrameIsReadable : Prop :=
  ∀ s : State, s.Inv → frameAvail s = true →
    ∃ p, s.holds p ∧ p[0] = 0x0F#8 ∧ p[24] = 0x00#8 ∧
      readPort .rxPayload s = .next (.payload p) ∧
      (∀ i : Fin 16, readPort (.rxCh i) s = .next (.chan (unpack p).channels[i])) ∧
      (∀ k : Fin 2, readPort (.rxSw k) s = .next (.bit (unpack p).switches[k])) ∧
      readPort .rxFrameLost s = .next (.bit (unpack p).frameLost) ∧
      readPort .rxFailsafe s = .next (.bit (unpack p).failsafe)

/-- A read outside a port's window is refused (60_exceptions.md R204, the spec's decision D14). That a port
the instance does not have is refused under the name `absentPort` is the model's choice
(notes/assumptions/17.md). -/
def Obligations.UndefinedOutputsAreNotRead : Prop :=
  ∀ s : State,
    (frameAvail s = false →
      readPort .rxPayload s = .fault .undefinedOutputRead ∧
      (∀ i, readPort (.rxCh i) s = .fault .undefinedOutputRead) ∧
      (∀ k, readPort (.rxSw k) s = .fault .undefinedOutputRead) ∧
      readPort .rxFrameLost s = .fault .undefinedOutputRead ∧
      readPort .rxFailsafe s = .fault .undefinedOutputRead) ∧
    (s.cfg.hasDedup = true → s.ddHave = false →
      readPort .ddPayload s = .fault .undefinedOutputRead) ∧
    (s.cfg.exposeReject = false → readPort .frameRejected s = .refused (.absentPort .frameRejected)) ∧
    (s.cfg.hasDedup = false → readPort .ddNotify s = .refused (.absentPort .ddNotify) ∧
      readPort .ddPayload s = .refused (.absentPort .ddPayload))

/-- Reads have no side effect (20_memory.md R52): after a consumer's read every register and memory reads
as before, and so does every port. -/
def Obligations.ReadsHaveNoSideEffect : Prop :=
  ∀ (s t : State) (port : OutPort), nextInput s = .read port → step s = .next t →
    sameHardware s t ∧ t.tx = s.tx ∧ sameView s t ∧
    ∃ v, readPort port s = .next v ∧ t.obs.lastRead = some v

/-- In the cycle in which `dd_notify` is high, `dd_payload` equals `rx_payload` (42_resync.md R187). -/
def Obligations.NotifiedPayloadIsTheHeldOne : Prop :=
  ∀ s : State, s.Inv → s.cfg.hasDedup = true → s.ddNotifyQ = true →
    ∃ p, readPort .ddPayload s = .next (.payload p) ∧ readPort .rxPayload s = .next (.payload p)

/-- Two agents that feed the context in one step are the fault `ConcurrentFeed` (20_memory.md R61). -/
def Obligations.ConcurrentFeedFaults : Prop :=
  ∀ (s : State) (c d : Ciw), nextInput s = .contended c d → step s = .fault .concurrentFeed

/-! ## The whole machine -/

/-- The state after reset (10_state.md R32, 70_reset_and_hazards.md R232): IDLE, 0 bytes, the counter and
every pulse at 0, no delivered frame, no frame available. Each byte of `buf` and of `dd_last` is a draw, a
free value of which nothing is known (notes/assumptions/1.md). -/
def Obligations.ResetState : Prop :=
  State.reset.ctx.state = .idle ∧ State.reset.ctx.nbytes = 0#5 ∧ State.reset.gapCnt = 0 ∧
  State.reset.frameReadyQ = false ∧ State.reset.frameRejectedQ = false ∧ State.reset.ddHave = false ∧
  State.reset.ddNotifyQ = false ∧ frameAvail State.reset = false ∧
  State.reset.cfg = Config.defaultParams ∧
  (∀ a : Fin 25, Memory.read State.reset.ctx.buf a = Config.bufDraw a.val) ∧
  (∀ a : Fin 25, Memory.read State.reset.ddLast a = Config.ddLastDraw a.val)

/-- The invariant holds at reset. -/
def Obligations.InvariantAtReset : Prop := State.reset.Inv

/-- Every step keeps the invariant (10_state.md R21 and R22 among its clauses). -/
def Obligations.StepKeepsTheInvariant : Prop :=
  ∀ s t : State, s.Inv → step s = .next t → t.Inv

/-- No exception (60_exceptions.md R200), and the liberties and duties of the environment
(70_reset_and_hazards.md R245): in every state that meets the invariant, every input that is not a
consumer's read or two agents feeding at once has a successor; any cycles the byte source chooses run to
their end; and a run in which both parties keep their duties never stops. -/
def Obligations.EveryInputHasASuccessor : Prop :=
  (∀ s : State, s.Inv → (nextInput s).mayStop = false → ∃ t, step s = .next t) ∧
  (∀ (s : State) (cs : List Ciw), s.Inv →
    ∃ t, stepMany cs.length { s with inputs := cs.map Input.cycle ++ s.inputs } = .next t) ∧
  (∀ (s : State) (k : Nat) (src : ByteSource) (con : Consumer) (afterReset : Bool), s.Inv →
    src.Duties s.cfg afterReset ((trace k s).map Prod.snd) → con.Duties (trace k s) →
    ∃ t, stepMany k s = .next t)

/-- No operation changes the parameters (10_state.md R30), and a clock cycle changes neither the inputs of
`PACK` nor the inputs pending after it. -/
def Obligations.NothingChangesTheParameters : Prop :=
  ∀ s t : State, step s = .next t → t.cfg = s.cfg ∧ t.inputs = s.inputs.tail ∧
    ((nextInput s).isCycle = true → t.tx = s.tx ∧ t.unpackOut = s.unpackOut)

/-- Reset erases the past (70_reset_and_hazards.md R234): two machines with the same parameters, the same
held inputs and the same inputs pending, each in any state whatever, show the same on every port after
every number of steps that begin with a reset cycle. -/
def Obligations.ResetErasesThePast : Prop :=
  ∀ (s t : State) (c : Ciw) (k : Nat), s.cfg = t.cfg → s.tx = t.tx →
    s.inputs = t.inputs → nextInput s = .cycle c → ciwRst c = true →
    outcomesAgree sameView (stepMany (k + 1) s) (stepMany (k + 1) t)

/-- A flush is equivalent to a fresh context (41_sync.md R142). After an error flush of one machine and the
reset of any other with the same parameters, the same cycle inputs give the same `frame_ready`, the same
`frame_avail` and the same held payload after every step; and so do, from the very next step on, a machine
whose next delivery is preceded by a gap flush and a reset one that takes the same delivery. Whatever the
buffers, the gap counter and the `DEDUP` history hold. -/
def Obligations.FlushIsAFreshContext : Prop :=
  (∀ (s w u v : State) (k : Nat) (t x g : Bool) (st : SyncState) (n : Count) (b : Byte),
    s.cfg = w.cfg → s.inputs = w.inputs → (∀ i ∈ s.inputs, i.isCycle = true) →
    exec (.errFlush t x g st n b) s = .next u → exec (.reset false t x g st n b) w = .next v →
    outcomesAgree sameSyncView (stepMany k u) (stepMany k v)) ∧
  (∀ (s w v : State) (k : Nat) (c : Ciw) (e t x g : Bool) (st : SyncState) (n : Count) (b : Byte),
    s.cfg = w.cfg → s.inputs = w.inputs → (∀ i ∈ s.inputs, i.isCycle = true) → s.ctx.legal →
    nextInput s = .cycle c → isDelivery (ciwRst c) (ciwErr c) (ciwVld c) = true → gapExceeded s = true →
    exec (.reset e t x g st n b) w = .next v →
    outcomesAgree sameSyncView (stepMany (k + 1) s) (stepMany (k + 1) v))

/-! ## Streams -/

/-- The stream notation (30_encoding.md R87, R88): each operation is the cycle input word of the table. -/
def Obligations.StreamOperationsEncode : Prop :=
  StreamOp.inputs .reset = [.cycle (mkCiw true false false false 0x00#8)] ∧
  (∀ b, StreamOp.inputs (.byte b) = [.cycle (mkCiw false false false true b)]) ∧
  StreamOp.inputs .tick = [.cycle (mkCiw false false true false 0x00#8)] ∧
  (∀ b, StreamOp.inputs (.tickByte b) = [.cycle (mkCiw false false true true b)]) ∧
  StreamOp.inputs .err = [.cycle (mkCiw false true false false 0x00#8)] ∧
  StreamOp.inputs .nop = [.cycle (mkCiw false false false false 0x00#8)]

/-- Byte order is arrival order (20_memory.md R53): from (IDLE, 0), a header and up to 23 bytes after it
stand in `buf` in the order in which they came, whatever they are. -/
def Obligations.CaptureKeepsArrivalOrder : Prop :=
  ∀ (s : State) (bs : List Byte), s.ctx.state = .idle → s.ctx.nbytes = 0#5 → bs.length ≤ 23 →
    ∃ t, stepMany (bs.length + 1) (s.feed (0x0F#8 :: bs)) = .next t ∧ t.inputs = s.inputs ∧
      t.ctx.state = .capturing ∧ t.ctx.nbytes.toNat = bs.length + 1 ∧
      ∀ k : Fin 25, k.val ≤ bs.length → some (Memory.read t.ctx.buf k) = (0x0F#8 :: bs)[k.val]?

/-- Resynchronisation after noise (41_sync.md R145): from (IDLE, 0), noise without a header and then a
valid payload give exactly one ready signal, on the payload's last byte, and the payload is held and
delivered there. The index of the delivery is that of the record of 70_reset_and_hazards.md R246
(notes/assumptions/5.md). -/
def Obligations.ResyncAfterNoise : Prop :=
  ∀ (s : State) (noise : List Byte) (p : Payload), s.ctx.state = .idle → s.ctx.nbytes = 0#5 →
    (∀ b ∈ noise, b ≠ 0x0F#8) → validPayload p →
    (∀ j, 1 ≤ j → j ≤ noise.length + 24 →
      ∃ u, stepMany j (s.feed (noise ++ p.toList)) = .next u ∧ u.frameReadyQ = false) ∧
    ∃ t, stepMany (noise.length + 25) (s.feed (noise ++ p.toList)) = .next t ∧
      t.frameReadyQ = true ∧ t.holds p ∧ t.inputs = s.inputs ∧
      t.obs.delivered = s.obs.delivered ++
        [{ index := s.obs.index + noise.length + 24, payload := t.ctx.buf }]

/-- Back-to-back frames (41_sync.md R148): two valid payloads one right after the other, from (IDLE, 0),
are each signalled, the equal ones too, on bytes 24 and 49 and on no other byte. -/
def Obligations.BackToBackFramesAreEachReady : Prop :=
  ∀ (s : State) (p q : Payload), s.ctx.state = .idle → s.ctx.nbytes = 0#5 → validPayload p →
    validPayload q →
    (∃ t, stepMany 25 (s.feed (p.toList ++ q.toList)) = .next t ∧ t.frameReadyQ = true ∧ t.holds p) ∧
    (∃ t, stepMany 26 (s.feed (p.toList ++ q.toList)) = .next t ∧ frameAvail t = false ∧
      t.ctx.state = .capturing ∧ t.ctx.nbytes = 1#5) ∧
    (∃ t, stepMany 50 (s.feed (p.toList ++ q.toList)) = .next t ∧ t.frameReadyQ = true ∧ t.holds q) ∧
    (∀ j, 1 ≤ j → j ≤ 50 → j ≠ 25 → j ≠ 50 →
      ∃ t, stepMany j (s.feed (p.toList ++ q.toList)) = .next t ∧ t.frameReadyQ = false)

/-- Recovery after garbage (41_sync.md R146, resolved by 90_conflicts.md C5): 25 bytes that do not end in
the footer, then a valid payload. It is delivered when the garbage starts with a header or holds none;
when the first header is at a later place `j`, the false capture swallows the payload's header, ends at
its byte `j-1` (accepted exactly when that byte is `0x00`), and the payload is not delivered. -/
def Obligations.RecoveryAfterGarbage : Prop :=
  ∀ (s : State) (g p : Payload), s.ctx.state = .idle → s.ctx.nbytes = 0#5 → g[24] ≠ 0x00#8 →
    validPayload p →
    let r := fun k => stepMany k (s.feed (g.toList ++ p.toList))
    (g[0] = 0x0F#8 → (∃ t, r 25 = .next t ∧ t.frameReadyQ = false ∧ t.ctx.nbytes = 25#5) ∧
      ∃ t, r 50 = .next t ∧ t.frameReadyQ = true ∧ t.holds p) ∧
    ((∀ j : Fin 25, g[j] ≠ 0x0F#8) → (∃ t, r 25 = .next t ∧ t.ctx.state = .idle) ∧
      ∃ t, r 50 = .next t ∧ t.frameReadyQ = true ∧ t.holds p) ∧
    (∀ j : Fin 25, 1 ≤ j.val → g[j] = 0x0F#8 → (∀ i : Fin 25, i < j → g[i] ≠ 0x0F#8) →
      (∃ t, r (25 + j.val) = .next t ∧ t.ctx.nbytes = 25#5 ∧
        (t.frameReadyQ = true ↔ p.toList.getD (j.val - 1) 0x00#8 = 0x00#8)) ∧
      (∀ k, 1 ≤ k → k ≤ 50 → k ≠ 25 + j.val → ∃ t, r k = .next t ∧ t.frameReadyQ = false))

/-- No fatal state (41_sync.md R149): from (CAPTURING, n), with no gap exceeded, `25 - n` bytes of any
value reach a full capture, and one more byte that is no header passes the guard and leaves (IDLE, 0). -/
def Obligations.HuntIsReachedFromEveryCapture : Prop :=
  ∀ (s : State) (bs : List Byte) (b : Byte), s.ctx.state = .capturing → 1 ≤ s.ctx.nbytes.toNat →
    s.ctx.nbytes.toNat ≤ 25 → gapExceeded s = false → bs.length = 25 - s.ctx.nbytes.toNat → b ≠ 0x0F#8 →
    (∃ t, stepMany bs.length (s.feed (bs ++ [b])) = .next t ∧ t.ctx.state = .capturing ∧
      t.ctx.nbytes = 25#5) ∧
    (∃ t, stepMany (bs.length + 1) (s.feed (bs ++ [b])) = .next t ∧ t.ctx.state = .idle ∧
      t.ctx.nbytes = 0#5)

/-- A frame through the whole block (95_test_vectors.md P3; 40_codec.md R112, R116): `FRAME f` from (IDLE,
0) is packed, synchronized and unpacked to `f` with its channels masked. While the environment holds `f`, a
frame of `CH_IN_WIDTH` bits a channel, `tx_payload` is that payload (notes/assumptions/14.md). -/
def Obligations.FrameThroughTheBlock : Prop :=
  ∀ (s : State) (f : FrameIn), s.ctx.state = .idle → s.ctx.nbytes = 0#5 →
    ∃ t, stepMany 26 { s with inputs := StreamOp.inputs (.frame f) ++ s.inputs } = .next t ∧
      t.inputs = s.inputs ∧ t.frameReadyQ = true ∧ t.holds (pack f) ∧
      (frameFits s.cfg.chInWidth f → txPayload t = pack f) ∧
      (∀ i : Fin 16, readPort (.rxCh i) t = .next (.chan (maskChannel f.channels[i]))) ∧
      (∀ k : Fin 2, readPort (.rxSw k) t = .next (.bit f.switches[k])) ∧
      readPort .rxFrameLost t = .next (.bit f.frameLost) ∧
      readPort .rxFailsafe t = .next (.bit f.failsafe)
end

