-- ==== Sys2Proof/Laws/Key.lean ====
section
/-! SUPPORT. The bits of the two keys, the rows' masks read as conditions on the fields, and what the
decoder gives on a key made from fields: the later proofs cite these and never unfold a key. -/

namespace Sys2Proof

theorem stateBit_getLsbD (s : SyncState) : (stateBit s).getLsbD 0 = decide (s = .capturing) := by
  cases s <;> rfl

@[simp] theorem bitState_decide (s : SyncState) : bitState (decide (s = .capturing)) = s := by
  cases s <;> rfl

@[simp] theorem decide_bitState (b : Bool) : decide (bitState b = .capturing) = b := by
  cases b <;> rfl

/-! ## The step key -/

theorem getLsbD_mkKey (r e t v g : Bool) (s : SyncState) (n : Count) (b : Byte) (i : Nat) :
    (mkKey r e t v g s n b).getLsbD i =
      if i < 8 then b.getLsbD i
      else if i < 13 then n.getLsbD (i - 8)
      else if i = 13 then decide (s = .capturing)
      else if i = 14 then g
      else if i = 15 then v
      else if i = 16 then t
      else if i = 17 then e
      else if i = 18 then r
      else false := by
  by_cases h3 : i < 19
  · unfold mkKey
    change BitVec.getLsbD (w := 1 + 1 + 1 + 1 + 1 + 1 + 5 + 8) _ i = _
    have hs := stateBit_getLsbD s
    simp only [BitVec.getLsbD_append]
    by_cases h1 : i < 8
    · simp [h1]
    by_cases h2 : i < 13
    · simp [h1, h2, show i - 8 < 5 by omega]
    have : i = 13 ∨ i = 14 ∨ i = 15 ∨ i = 16 ∨ i = 17 ∨ i = 18 := by omega
    rcases this with rfl | rfl | rfl | rfl | rfl | rfl
    · simpa using hs
    all_goals simp
  · rw [BitVec.getLsbD_of_ge _ _ (by omega)]
    repeat rw [if_neg (by omega)]

section
variable (r e t v g : Bool) (s : SyncState) (n : Count) (b : Byte)

@[simp] theorem keyByte_mkKey : keyByte (mkKey r e t v g s n b) = b := by
  apply BitVec.eq_of_getLsbD_eq
  intro i hi
  rw [keyByte, BitVec.getLsbD_extractLsb', getLsbD_mkKey]
  simp [hi]

@[simp] theorem keyCount_mkKey : keyCount (mkKey r e t v g s n b) = n := by
  apply BitVec.eq_of_getLsbD_eq
  intro i hi
  rw [keyCount, BitVec.getLsbD_extractLsb', getLsbD_mkKey]
  simp [hi, show 8 + i < 13 by omega]

@[simp] theorem keyState_mkKey : keyState (mkKey r e t v g s n b) = s := by
  rw [keyState, getLsbD_mkKey]; simp

@[simp] theorem keyGx_mkKey : keyGx (mkKey r e t v g s n b) = g := by rw [keyGx, getLsbD_mkKey]; rfl
@[simp] theorem keyVld_mkKey : keyVld (mkKey r e t v g s n b) = v := by rw [keyVld, getLsbD_mkKey]; rfl
@[simp] theorem keyTck_mkKey : keyTck (mkKey r e t v g s n b) = t := by rw [keyTck, getLsbD_mkKey]; rfl
@[simp] theorem keyErr_mkKey : keyErr (mkKey r e t v g s n b) = e := by rw [keyErr, getLsbD_mkKey]; rfl
@[simp] theorem keyRst_mkKey : keyRst (mkKey r e t v g s n b) = r := by rw [keyRst, getLsbD_mkKey]; rfl

end

/-- A key is made of its fields: no bit is dropped. -/
theorem mkKey_fields (k : StepKey) :
    mkKey (keyRst k) (keyErr k) (keyTck k) (keyVld k) (keyGx k) (keyState k) (keyCount k) (keyByte k)
      = k := by
  apply BitVec.eq_of_getLsbD_eq
  intro i hi
  rw [getLsbD_mkKey]
  split
  · rw [keyByte, BitVec.getLsbD_extractLsb']; simp_all
  · split
    · rw [keyCount, BitVec.getLsbD_extractLsb', show 8 + (i - 8) = i by omega]
      simp [show i - 8 < 5 by omega]
    · have : i = 13 ∨ i = 14 ∨ i = 15 ∨ i = 16 ∨ i = 17 ∨ i = 18 := by omega
      rcases this with rfl | rfl | rfl | rfl | rfl | rfl
      · exact decide_bitState _
      all_goals rfl

/-! ## The dispatch key -/

theorem getLsbD_mkDispatch (s : SyncState) (n : Count) (b : Byte) (i : Nat) :
    (mkDispatch s n b).getLsbD i =
      if i < 8 then b.getLsbD i
      else if i < 13 then n.getLsbD (i - 8)
      else if i = 13 then decide (s = .capturing)
      else false := by
  by_cases h3 : i < 14
  · unfold mkDispatch
    change BitVec.getLsbD (w := 1 + 5 + 8) _ i = _
    have hs := stateBit_getLsbD s
    simp only [BitVec.getLsbD_append]
    by_cases h1 : i < 8
    · simp [h1]
    by_cases h2 : i < 13
    · simp [h1, h2, show i - 8 < 5 by omega]
    obtain rfl : i = 13 := by omega
    simpa using hs
  · rw [BitVec.getLsbD_of_ge _ _ (by omega)]
    repeat rw [if_neg (by omega)]

@[simp] theorem dispByte_mkDispatch (s : SyncState) (n : Count) (b : Byte) :
    dispByte (mkDispatch s n b) = b := by
  apply BitVec.eq_of_getLsbD_eq
  intro i hi
  rw [dispByte, BitVec.getLsbD_extractLsb', getLsbD_mkDispatch]
  simp [hi]

@[simp] theorem dispCount_mkDispatch (s : SyncState) (n : Count) (b : Byte) :
    dispCount (mkDispatch s n b) = n := by
  apply BitVec.eq_of_getLsbD_eq
  intro i hi
  rw [dispCount, BitVec.getLsbD_extractLsb', getLsbD_mkDispatch]
  simp [hi, show 8 + i < 13 by omega]

@[simp] theorem dispState_mkDispatch (s : SyncState) (n : Count) (b : Byte) :
    dispState (mkDispatch s n b) = s := by
  rw [dispState, getLsbD_mkDispatch]; simp

/-- A dispatch key is made of its fields: no bit is dropped. -/
theorem mkDispatch_fields (e : DispatchKey) :
    mkDispatch (dispState e) (dispCount e) (dispByte e) = e := by
  apply BitVec.eq_of_getLsbD_eq
  intro i hi
  rw [getLsbD_mkDispatch]
  split
  · rw [dispByte, BitVec.getLsbD_extractLsb']; simp_all
  · split
    · rw [dispCount, BitVec.getLsbD_extractLsb', show 8 + (i - 8) = i by omega]
      simp [show i - 8 < 5 by omega]
    · obtain rfl : i = 13 := by omega
      exact decide_bitState _

theorem keyDispatch_eq (k : StepKey) :
    keyDispatch k = mkDispatch (keyState k) (keyCount k) (keyByte k) := by
  have h : dispState (keyDispatch k) = keyState k ∧ dispCount (keyDispatch k) = keyCount k
      ∧ dispByte (keyDispatch k) = keyByte k := by
    refine ⟨?_, ?_, ?_⟩
    · rw [dispState, keyDispatch, BitVec.getLsbD_extractLsb']; rfl
    · apply BitVec.eq_of_getLsbD_eq
      intro i hi
      simp only [dispCount, keyDispatch, keyCount, BitVec.getLsbD_extractLsb']
      simp [hi, show 8 + i < 14 by omega]
    · apply BitVec.eq_of_getLsbD_eq
      intro i hi
      simp only [dispByte, keyDispatch, keyByte, BitVec.getLsbD_extractLsb']
      simp [hi, show i < 14 by omega]
  rw [← mkDispatch_fields (keyDispatch k), h.1, h.2.1, h.2.2]

@[simp] theorem keyDispatch_mkKey (r e t v g : Bool) (s : SyncState) (n : Count) (b : Byte) :
    keyDispatch (mkKey r e t v g s n b) = mkDispatch s n b := by
  simp [keyDispatch_eq]

/-! ## The rows' masks as conditions on the fields -/

theorem rowMatches_iff {w : Nat} (mask pat key : BitVec w) :
    rowMatches mask pat key = true ↔
      ∀ i, i < w → (key.getLsbD i && mask.getLsbD i) = pat.getLsbD i := by
  rw [rowMatches, beq_iff_eq, BitVec.eq_of_getLsbD_eq_iff]
  simp only [BitVec.getLsbD_and]

theorem row_reset (k : StepKey) : rowMatches 0x40000#19 0x40000#19 k = keyRst k := by
  rw [Bool.eq_iff_iff, rowMatches_iff, keyRst]
  refine ⟨fun h => by simpa using h 18 (by omega), fun h i hi => ?_⟩
  interval_cases i <;> simp_all

theorem row_errFlush (k : StepKey) :
    rowMatches 0x60000#19 0x20000#19 k = (!keyRst k && keyErr k) := by
  rw [Bool.eq_iff_iff, rowMatches_iff, keyRst, keyErr]
  refine ⟨fun h => ?_, fun h i hi => ?_⟩
  · have h1 := h 18 (by omega); have h2 := h 17 (by omega)
    simp_all
  · interval_cases i <;> simp_all

theorem row_noByte (k : StepKey) :
    rowMatches 0x68000#19 0x00000#19 k = (!keyRst k && !keyErr k && !keyVld k) := by
  rw [Bool.eq_iff_iff, rowMatches_iff, keyRst, keyErr, keyVld]
  refine ⟨fun h => ?_, fun h i hi => ?_⟩
  · have h1 := h 18 (by omega); have h2 := h 17 (by omega); have h3 := h 15 (by omega)
    simp_all
  · interval_cases i <;> simp_all

theorem row_gapFlush (k : StepKey) :
    rowMatches 0x6C000#19 0x0C000#19 k = (!keyRst k && !keyErr k && keyVld k && keyGx k) := by
  rw [Bool.eq_iff_iff, rowMatches_iff, keyRst, keyErr, keyVld, keyGx]
  refine ⟨fun h => ?_, fun h i hi => ?_⟩
  · have h1 := h 18 (by omega); have h2 := h 17 (by omega)
    have h3 := h 15 (by omega); have h4 := h 14 (by omega)
    simp_all
  · interval_cases i <;> simp_all

theorem row_guard (k : StepKey) :
    rowMatches 0x6C000#19 0x08000#19 k = (!keyRst k && !keyErr k && keyVld k && !keyGx k) := by
  rw [Bool.eq_iff_iff, rowMatches_iff, keyRst, keyErr, keyVld, keyGx]
  refine ⟨fun h => ?_, fun h i hi => ?_⟩
  · have h1 := h 18 (by omega); have h2 := h 17 (by omega)
    have h3 := h 15 (by omega); have h4 := h 14 (by omega)
    simp_all
  · interval_cases i <;> simp_all

/-- With every bit in the mask, a row matches one key only. -/
theorem rowMatches_all (pat e : DispatchKey) : rowMatches 0x3FFF#14 pat e = decide (e = pat) := by
  have h : e &&& 0x3FFF#14 = e := by
    apply BitVec.eq_of_getLsbD_eq
    intro i hi
    interval_cases i <;> simp
  rw [rowMatches, h]
  rfl

/-- With the mask on `E[13:8]`, a row fixes the state and the count. -/
theorem rowMatches_high (s s' : SyncState) (n n' : Count) (b : Byte) :
    rowMatches 0x3F00#14 (mkDispatch s' n' 0#8) (mkDispatch s n b)
      = decide (s = s' ∧ n = n') := by
  rw [Bool.eq_iff_iff, rowMatches_iff, decide_eq_true_iff]
  constructor
  · intro h
    have h13 := h 13 (by omega)
    simp only [getLsbD_mkDispatch] at h13
    have hs : s = s' := by cases s <;> cases s' <;> simp_all
    refine ⟨hs, BitVec.eq_of_getLsbD_eq fun i hi => ?_⟩
    have hi' := h (8 + i) (by omega)
    simp only [getLsbD_mkDispatch] at hi'
    interval_cases i <;> simpa using hi'
  · rintro ⟨rfl, rfl⟩ i hi
    simp only [getLsbD_mkDispatch]
    interval_cases i <;> simp

theorem rowMatches_capturing (s : SyncState) (n : Count) (b : Byte) :
    rowMatches 0x2000#14 0x2000#14 (mkDispatch s n b) = decide (s = .capturing) := by
  rw [Bool.eq_iff_iff, rowMatches_iff, decide_eq_true_iff]
  constructor
  · intro h
    have h13 := h 13 (by omega)
    rw [getLsbD_mkDispatch] at h13
    simpa using h13
  · rintro rfl i hi
    simp only [getLsbD_mkDispatch]
    interval_cases i <;> simp

theorem mkDispatch_inj {s s' : SyncState} {n n' : Count} {b b' : Byte} :
    mkDispatch s n b = mkDispatch s' n' b' ↔ s = s' ∧ n = n' ∧ b = b' := by
  refine ⟨fun h => ?_, by rintro ⟨rfl, rfl, rfl⟩; rfl⟩
  have h1 := congrArg dispState h
  have h2 := congrArg dispCount h
  have h3 := congrArg dispByte h
  simp at h1 h2 h3
  exact ⟨h1, h2, h3⟩

/-! ## What the decoder gives -/

/-- The dispatch decode on the fields (30_encoding.md R83, R84). -/
theorem decodeDispatch_mkDispatch (s : SyncState) (n : Count) (b : Byte) :
    decodeDispatch (mkDispatch s n b) =
      match s with
      | .idle =>
        if n = 0#5 then if b = Config.header then .ok .huntHdr else .ok (.huntSkip b)
        else .error (.unmatchedKey (mkDispatch .idle n b))
      | .capturing =>
        if 1 ≤ n.toNat ∧ n.toNat ≤ 23 then .ok (.capture n b)
        else if n = 24#5 then if b = Config.footer then .ok .footerOk else .ok (.footerBad b)
        else .error (.unmatchedKey (mkDispatch .capturing n b)) := by
  have h1 : (0x000F#14 : DispatchKey) = mkDispatch .idle 0#5 0x0F#8 := by decide
  have h2 : (0x0000#14 : DispatchKey) = mkDispatch .idle 0#5 0#8 := by decide
  have h3 : (0x3800#14 : DispatchKey) = mkDispatch .capturing 24#5 0#8 := by decide
  unfold decodeDispatch
  rw [rowMatches_all, rowMatches_all, h1, h2, h3, rowMatches_high, rowMatches_high,
    rowMatches_capturing]
  simp only [mkDispatch_inj, dispByte_mkDispatch, dispCount_mkDispatch, Config.header, Config.footer]
  cases s
  · by_cases hn : n = 0#5 <;> by_cases hb : b = 0x0F#8 <;> simp [hn, hb]
  · by_cases hn : 1 ≤ n.toNat ∧ n.toNat ≤ 23
    · simp [hn]
    · by_cases h24 : n = 24#5 <;> by_cases hb : b = 0#8 <;> simp [hn, h24, hb]

/-- The pre-step decode on the fields (30_encoding.md R82). -/
theorem decodeKey_mkKey (r e t v g : Bool) (s : SyncState) (n : Count) (b : Byte) :
    decodeKey (mkKey r e t v g s n b) =
      if r then .ok (.reset e t v g s n b)
      else if e then .ok (.errFlush t v g s n b)
      else if !v then .ok (.noByte t g s n b)
      else if g then .ok (.gapFlush t s n b)
      else if 25 ≤ n.toNat then .ok (.guard t s n b)
      else decodeDispatch (mkDispatch s n b) := by
  unfold decodeKey
  rw [row_reset, row_errFlush, row_noByte, row_gapFlush, row_guard]
  simp only [keyRst_mkKey, keyErr_mkKey, keyTck_mkKey, keyVld_mkKey, keyGx_mkKey, keyState_mkKey,
    keyCount_mkKey, keyByte_mkKey, keyDispatch_mkKey]
  cases r <;> cases e <;> cases v <;> cases g <;> simp

/-! ## The cycle input word -/

theorem getLsbD_mkCiw (r e t v : Bool) (b : Byte) (i : Nat) :
    (mkCiw r e t v b).getLsbD i =
      if i < 8 then b.getLsbD i
      else if i = 8 then v
      else if i = 9 then t
      else if i = 10 then e
      else if i = 11 then r
      else false := by
  by_cases h3 : i < 12
  · unfold mkCiw
    change BitVec.getLsbD (w := 1 + 1 + 1 + 1 + 8) _ i = _
    simp only [BitVec.getLsbD_append]
    by_cases h1 : i < 8
    · simp [h1]
    have : i = 8 ∨ i = 9 ∨ i = 10 ∨ i = 11 := by omega
    rcases this with rfl | rfl | rfl | rfl <;> simp
  · rw [BitVec.getLsbD_of_ge _ _ (by omega)]
    repeat rw [if_neg (by omega)]

section
variable (r e t v : Bool) (b : Byte)

@[simp] theorem ciwByte_mkCiw : ciwByte (mkCiw r e t v b) = b := by
  apply BitVec.eq_of_getLsbD_eq
  intro i hi
  rw [ciwByte, BitVec.getLsbD_extractLsb', getLsbD_mkCiw]
  simp [hi]

@[simp] theorem ciwVld_mkCiw : ciwVld (mkCiw r e t v b) = v := by rw [ciwVld, getLsbD_mkCiw]; rfl
@[simp] theorem ciwTck_mkCiw : ciwTck (mkCiw r e t v b) = t := by rw [ciwTck, getLsbD_mkCiw]; rfl
@[simp] theorem ciwErr_mkCiw : ciwErr (mkCiw r e t v b) = e := by rw [ciwErr, getLsbD_mkCiw]; rfl
@[simp] theorem ciwRst_mkCiw : ciwRst (mkCiw r e t v b) = r := by rw [ciwRst, getLsbD_mkCiw]; rfl

end

end Sys2Proof
end

