-- ==== Sys2Proof/Laws/Memory.lean ====
section
/-! SUPPORT. The byte memories: read after write, and equal readings. -/

namespace Sys2Proof.Machine

/-- A read after a write. -/
@[simp] theorem Memory.read_write (m : Memory) (a : Nat) (b : Fin 25) (v : Byte) :
    Memory.read (Memory.write m a v) b = if b.val = a then v else Memory.read m b := by
  simp [Memory.read, Memory.write, Vector.getElem_setIfInBounds, eq_comm]

/-- A read at the index just written gives the byte written. -/
theorem Memory.read_write_same (m : Memory) (a : Fin 25) (v : Byte) :
    Memory.read (Memory.write m a.val v) a = v := by
  rw [Memory.read_write, if_pos rfl]

/-- A write leaves every other index alone. -/
theorem Memory.read_write_ne (m : Memory) {a : Nat} {b : Fin 25} (v : Byte) (h : b.val ≠ a) :
    Memory.read (Memory.write m a v) b = Memory.read m b := by
  rw [Memory.read_write, if_neg h]

/-- Memories that read alike are equal. -/
theorem Memory.ext_read {m m' : Memory} (h : ∀ a : Fin 25, Memory.read m a = Memory.read m' a) : m = m' :=
  Vector.ext fun i hi => h ⟨i, hi⟩

/-- Two memories differ exactly where some cell does. -/
theorem Memory.ne_iff {m m' : Memory} : m ≠ m' ↔ ∃ a : Fin 25, Memory.read m a ≠ Memory.read m' a := by
  rw [Ne, ← not_forall, not_iff_not]
  exact ⟨fun h a => h ▸ rfl, Memory.ext_read⟩

end Sys2Proof.Machine
end

