-- ==== Sys2Proof/Laws/State.lean ====
section
/-! SUPPORT. One lemma per field per update of the state and of the context, true by rfl, so that no later
proof unfolds a record update. -/

namespace Sys2Proof.Machine

/-! ## The context -/

@[simp] theorem Context.flush_state (x : Context) : x.flush.state = .idle := rfl
@[simp] theorem Context.flush_nbytes (x : Context) : x.flush.nbytes = 0#5 := rfl
@[simp] theorem Context.flush_buf (x : Context) : x.flush.buf = x.buf := rfl
@[simp] theorem Context.flush_flush (x : Context) : x.flush.flush = x.flush := rfl
@[simp] theorem Context.flush_legal (x : Context) : x.flush.legal := .inl ⟨rfl, rfl⟩
@[simp] theorem Context.append_state (x : Context) (i : Nat) (b : Byte) (n : Count) :
    (x.append i b n).state = .capturing := rfl
@[simp] theorem Context.append_nbytes (x : Context) (i : Nat) (b : Byte) (n : Count) :
    (x.append i b n).nbytes = n := rfl
@[simp] theorem Context.append_buf (x : Context) (i : Nat) (b : Byte) (n : Count) :
    (x.append i b n).buf = Memory.write x.buf i b := rfl

/-! ## `setCtx` -/

@[simp] theorem State.setCtx_cfg (s : State) (x : Context) : (s.setCtx x).cfg = s.cfg := rfl
@[simp] theorem State.setCtx_ctx (s : State) (x : Context) : (s.setCtx x).ctx = x := rfl
@[simp] theorem State.setCtx_gapCnt (s : State) (x : Context) : (s.setCtx x).gapCnt = s.gapCnt := rfl
@[simp] theorem State.setCtx_frameReadyQ (s : State) (x : Context) :
    (s.setCtx x).frameReadyQ = s.frameReadyQ := rfl
@[simp] theorem State.setCtx_frameRejectedQ (s : State) (x : Context) :
    (s.setCtx x).frameRejectedQ = s.frameRejectedQ := rfl
@[simp] theorem State.setCtx_ddLast (s : State) (x : Context) : (s.setCtx x).ddLast = s.ddLast := rfl
@[simp] theorem State.setCtx_ddHave (s : State) (x : Context) : (s.setCtx x).ddHave = s.ddHave := rfl
@[simp] theorem State.setCtx_ddNotifyQ (s : State) (x : Context) :
    (s.setCtx x).ddNotifyQ = s.ddNotifyQ := rfl
@[simp] theorem State.setCtx_tx (s : State) (x : Context) : (s.setCtx x).tx = s.tx := rfl
@[simp] theorem State.setCtx_unpackOut (s : State) (x : Context) :
    (s.setCtx x).unpackOut = s.unpackOut := rfl
@[simp] theorem State.setCtx_inputs (s : State) (x : Context) : (s.setCtx x).inputs = s.inputs := rfl
@[simp] theorem State.setCtx_obs_ops (s : State) (x : Context) : (s.setCtx x).obs.ops = s.obs.ops := rfl
@[simp] theorem State.setCtx_obs_index (s : State) (x : Context) :
    (s.setCtx x).obs.index = s.obs.index := rfl
@[simp] theorem State.setCtx_obs_delivered (s : State) (x : Context) :
    (s.setCtx x).obs.delivered = s.obs.delivered := rfl
@[simp] theorem State.setCtx_obs_notified (s : State) (x : Context) :
    (s.setCtx x).obs.notified = s.obs.notified := rfl
@[simp] theorem State.setCtx_obs_lastRead (s : State) (x : Context) :
    (s.setCtx x).obs.lastRead = s.obs.lastRead := rfl

/-! ## `signal` -/

@[simp] theorem State.signal_cfg (s : State) (o : List Op) (r j : Bool) :
    (s.signal o r j).cfg = s.cfg := rfl
@[simp] theorem State.signal_ctx (s : State) (o : List Op) (r j : Bool) :
    (s.signal o r j).ctx = s.ctx := rfl
@[simp] theorem State.signal_gapCnt (s : State) (o : List Op) (r j : Bool) :
    (s.signal o r j).gapCnt = s.gapCnt := rfl
@[simp] theorem State.signal_frameReadyQ (s : State) (o : List Op) (r j : Bool) :
    (s.signal o r j).frameReadyQ = r := rfl
@[simp] theorem State.signal_frameRejectedQ (s : State) (o : List Op) (r j : Bool) :
    (s.signal o r j).frameRejectedQ = j := rfl
@[simp] theorem State.signal_ddLast (s : State) (o : List Op) (r j : Bool) :
    (s.signal o r j).ddLast = s.ddLast := rfl
@[simp] theorem State.signal_ddHave (s : State) (o : List Op) (r j : Bool) :
    (s.signal o r j).ddHave = s.ddHave := rfl
@[simp] theorem State.signal_ddNotifyQ (s : State) (o : List Op) (r j : Bool) :
    (s.signal o r j).ddNotifyQ = s.ddNotifyQ := rfl
@[simp] theorem State.signal_tx (s : State) (o : List Op) (r j : Bool) : (s.signal o r j).tx = s.tx := rfl
@[simp] theorem State.signal_unpackOut (s : State) (o : List Op) (r j : Bool) :
    (s.signal o r j).unpackOut = s.unpackOut := rfl
@[simp] theorem State.signal_inputs (s : State) (o : List Op) (r j : Bool) :
    (s.signal o r j).inputs = s.inputs := rfl
@[simp] theorem State.signal_obs_ops (s : State) (o : List Op) (r j : Bool) :
    (s.signal o r j).obs.ops = o := rfl
@[simp] theorem State.signal_obs_index (s : State) (o : List Op) (r j : Bool) :
    (s.signal o r j).obs.index = s.obs.index := rfl
@[simp] theorem State.signal_obs_delivered (s : State) (o : List Op) (r j : Bool) :
    (s.signal o r j).obs.delivered = s.obs.delivered := rfl
@[simp] theorem State.signal_obs_notified (s : State) (o : List Op) (r j : Bool) :
    (s.signal o r j).obs.notified = s.obs.notified := rfl
@[simp] theorem State.signal_obs_lastRead (s : State) (o : List Op) (r j : Bool) :
    (s.signal o r j).obs.lastRead = s.obs.lastRead := rfl

/-! ## `deliver` -/

@[simp] theorem State.deliver_cfg (s : State) : (s.deliver).cfg = s.cfg := rfl
@[simp] theorem State.deliver_ctx (s : State) : (s.deliver).ctx = s.ctx := rfl
@[simp] theorem State.deliver_gapCnt (s : State) : (s.deliver).gapCnt = s.gapCnt := rfl
@[simp] theorem State.deliver_frameReadyQ (s : State) : (s.deliver).frameReadyQ = s.frameReadyQ := rfl
@[simp] theorem State.deliver_frameRejectedQ (s : State) :
    (s.deliver).frameRejectedQ = s.frameRejectedQ := rfl
@[simp] theorem State.deliver_ddLast (s : State) : (s.deliver).ddLast = s.ddLast := rfl
@[simp] theorem State.deliver_ddHave (s : State) : (s.deliver).ddHave = s.ddHave := rfl
@[simp] theorem State.deliver_ddNotifyQ (s : State) : (s.deliver).ddNotifyQ = s.ddNotifyQ := rfl
@[simp] theorem State.deliver_tx (s : State) : (s.deliver).tx = s.tx := rfl
@[simp] theorem State.deliver_unpackOut (s : State) : (s.deliver).unpackOut = s.unpackOut := rfl
@[simp] theorem State.deliver_inputs (s : State) : (s.deliver).inputs = s.inputs := rfl
@[simp] theorem State.deliver_obs_ops (s : State) : (s.deliver).obs.ops = s.obs.ops := rfl
@[simp] theorem State.deliver_obs_index (s : State) : (s.deliver).obs.index = s.obs.index := rfl
@[simp] theorem State.deliver_obs_delivered (s : State) :
    (s.deliver).obs.delivered = s.obs.delivered ++ [{ index := s.obs.index, payload := s.ctx.buf }] := rfl
@[simp] theorem State.deliver_obs_notified (s : State) : (s.deliver).obs.notified = s.obs.notified := rfl
@[simp] theorem State.deliver_obs_lastRead (s : State) : (s.deliver).obs.lastRead = s.obs.lastRead := rfl

/-! ## `countInput` -/

@[simp] theorem State.countInput_cfg (s : State) : (s.countInput).cfg = s.cfg := rfl
@[simp] theorem State.countInput_ctx (s : State) : (s.countInput).ctx = s.ctx := rfl
@[simp] theorem State.countInput_gapCnt (s : State) : (s.countInput).gapCnt = s.gapCnt := rfl
@[simp] theorem State.countInput_frameReadyQ (s : State) : (s.countInput).frameReadyQ = s.frameReadyQ := rfl
@[simp] theorem State.countInput_frameRejectedQ (s : State) :
    (s.countInput).frameRejectedQ = s.frameRejectedQ := rfl
@[simp] theorem State.countInput_ddLast (s : State) : (s.countInput).ddLast = s.ddLast := rfl
@[simp] theorem State.countInput_ddHave (s : State) : (s.countInput).ddHave = s.ddHave := rfl
@[simp] theorem State.countInput_ddNotifyQ (s : State) : (s.countInput).ddNotifyQ = s.ddNotifyQ := rfl
@[simp] theorem State.countInput_tx (s : State) : (s.countInput).tx = s.tx := rfl
@[simp] theorem State.countInput_unpackOut (s : State) : (s.countInput).unpackOut = s.unpackOut := rfl
@[simp] theorem State.countInput_inputs (s : State) : (s.countInput).inputs = s.inputs := rfl
@[simp] theorem State.countInput_obs_ops (s : State) : (s.countInput).obs.ops = s.obs.ops := rfl
@[simp] theorem State.countInput_obs_index (s : State) : (s.countInput).obs.index = s.obs.index + 1 := rfl
@[simp] theorem State.countInput_obs_delivered (s : State) :
    (s.countInput).obs.delivered = s.obs.delivered := rfl
@[simp] theorem State.countInput_obs_notified (s : State) :
    (s.countInput).obs.notified = s.obs.notified := rfl
@[simp] theorem State.countInput_obs_lastRead (s : State) :
    (s.countInput).obs.lastRead = s.obs.lastRead := rfl

/-! ## `takeInput` -/

@[simp] theorem State.takeInput_cfg (s : State) : (s.takeInput).cfg = s.cfg := rfl
@[simp] theorem State.takeInput_ctx (s : State) : (s.takeInput).ctx = s.ctx := rfl
@[simp] theorem State.takeInput_gapCnt (s : State) : (s.takeInput).gapCnt = s.gapCnt := rfl
@[simp] theorem State.takeInput_frameReadyQ (s : State) : (s.takeInput).frameReadyQ = s.frameReadyQ := rfl
@[simp] theorem State.takeInput_frameRejectedQ (s : State) :
    (s.takeInput).frameRejectedQ = s.frameRejectedQ := rfl
@[simp] theorem State.takeInput_ddLast (s : State) : (s.takeInput).ddLast = s.ddLast := rfl
@[simp] theorem State.takeInput_ddHave (s : State) : (s.takeInput).ddHave = s.ddHave := rfl
@[simp] theorem State.takeInput_ddNotifyQ (s : State) : (s.takeInput).ddNotifyQ = s.ddNotifyQ := rfl
@[simp] theorem State.takeInput_tx (s : State) : (s.takeInput).tx = s.tx := rfl
@[simp] theorem State.takeInput_unpackOut (s : State) : (s.takeInput).unpackOut = s.unpackOut := rfl
@[simp] theorem State.takeInput_inputs (s : State) : (s.takeInput).inputs = s.inputs.tail := rfl
@[simp] theorem State.takeInput_obs_ops (s : State) : (s.takeInput).obs.ops = s.obs.ops := rfl
@[simp] theorem State.takeInput_obs_index (s : State) : (s.takeInput).obs.index = s.obs.index := rfl
@[simp] theorem State.takeInput_obs_delivered (s : State) :
    (s.takeInput).obs.delivered = s.obs.delivered := rfl
@[simp] theorem State.takeInput_obs_notified (s : State) :
    (s.takeInput).obs.notified = s.obs.notified := rfl
@[simp] theorem State.takeInput_obs_lastRead (s : State) :
    (s.takeInput).obs.lastRead = s.obs.lastRead := rfl

/-! ## `sessionReset` -/

@[simp] theorem State.sessionReset_cfg (s : State) : (s.sessionReset).cfg = s.cfg := rfl
@[simp] theorem State.sessionReset_ctx (s : State) : (s.sessionReset).ctx = s.ctx.flush := rfl
@[simp] theorem State.sessionReset_gapCnt (s : State) : (s.sessionReset).gapCnt = 0 := rfl
@[simp] theorem State.sessionReset_frameReadyQ (s : State) : (s.sessionReset).frameReadyQ = false := rfl
@[simp] theorem State.sessionReset_frameRejectedQ (s : State) :
    (s.sessionReset).frameRejectedQ = false := rfl
@[simp] theorem State.sessionReset_ddLast (s : State) : (s.sessionReset).ddLast = s.ddLast := rfl
@[simp] theorem State.sessionReset_ddHave (s : State) :
    (s.sessionReset).ddHave = if s.cfg.hasDedup then false else s.ddHave := rfl
@[simp] theorem State.sessionReset_ddNotifyQ (s : State) :
    (s.sessionReset).ddNotifyQ = if s.cfg.hasDedup then false else s.ddNotifyQ := rfl
@[simp] theorem State.sessionReset_tx (s : State) : (s.sessionReset).tx = s.tx := rfl
@[simp] theorem State.sessionReset_unpackOut (s : State) : (s.sessionReset).unpackOut = s.unpackOut := rfl
@[simp] theorem State.sessionReset_inputs (s : State) : (s.sessionReset).inputs = s.inputs := rfl
@[simp] theorem State.sessionReset_obs_ops (s : State) : (s.sessionReset).obs.ops = [.reset] := rfl
@[simp] theorem State.sessionReset_obs_index (s : State) : (s.sessionReset).obs.index = s.obs.index := rfl
@[simp] theorem State.sessionReset_obs_delivered (s : State) :
    (s.sessionReset).obs.delivered = s.obs.delivered := rfl
@[simp] theorem State.sessionReset_obs_notified (s : State) :
    (s.sessionReset).obs.notified = s.obs.notified := rfl
@[simp] theorem State.sessionReset_obs_lastRead (s : State) :
    (s.sessionReset).obs.lastRead = s.obs.lastRead := rfl

/-! ## `dedupDelivery` -/

@[simp] theorem State.dedupDelivery_cfg (s : State) (d : Delivery) : (s.dedupDelivery d).cfg = s.cfg := rfl
@[simp] theorem State.dedupDelivery_ctx (s : State) (d : Delivery) : (s.dedupDelivery d).ctx = s.ctx := rfl
@[simp] theorem State.dedupDelivery_gapCnt (s : State) (d : Delivery) :
    (s.dedupDelivery d).gapCnt = s.gapCnt := rfl
@[simp] theorem State.dedupDelivery_frameReadyQ (s : State) (d : Delivery) :
    (s.dedupDelivery d).frameReadyQ = s.frameReadyQ := rfl
@[simp] theorem State.dedupDelivery_frameRejectedQ (s : State) (d : Delivery) :
    (s.dedupDelivery d).frameRejectedQ = s.frameRejectedQ := rfl
@[simp] theorem State.dedupDelivery_ddLast (s : State) (d : Delivery) :
    (s.dedupDelivery d).ddLast = d.payload := rfl
@[simp] theorem State.dedupDelivery_ddHave (s : State) (d : Delivery) :
    (s.dedupDelivery d).ddHave = true := rfl
@[simp] theorem State.dedupDelivery_ddNotifyQ (s : State) (d : Delivery) :
    (s.dedupDelivery d).ddNotifyQ = (!s.ddHave || decide (d.payload ≠ s.ddLast)) := rfl
@[simp] theorem State.dedupDelivery_tx (s : State) (d : Delivery) : (s.dedupDelivery d).tx = s.tx := rfl
@[simp] theorem State.dedupDelivery_unpackOut (s : State) (d : Delivery) :
    (s.dedupDelivery d).unpackOut = s.unpackOut := rfl
@[simp] theorem State.dedupDelivery_inputs (s : State) (d : Delivery) :
    (s.dedupDelivery d).inputs = s.inputs := rfl
@[simp] theorem State.dedupDelivery_obs_ops (s : State) (d : Delivery) :
    (s.dedupDelivery d).obs.ops = s.obs.ops := rfl
@[simp] theorem State.dedupDelivery_obs_index (s : State) (d : Delivery) :
    (s.dedupDelivery d).obs.index = s.obs.index := rfl
@[simp] theorem State.dedupDelivery_obs_delivered (s : State) (d : Delivery) :
    (s.dedupDelivery d).obs.delivered = s.obs.delivered := rfl
@[simp] theorem State.dedupDelivery_obs_notified (s : State) (d : Delivery) :
    (s.dedupDelivery d).obs.notified =
      if (!s.ddHave || decide (d.payload ≠ s.ddLast)) = true then s.obs.notified ++ [d] else s.obs.notified := rfl
@[simp] theorem State.dedupDelivery_obs_lastRead (s : State) (d : Delivery) :
    (s.dedupDelivery d).obs.lastRead = s.obs.lastRead := rfl

/-! ## `setGap` -/

@[simp] theorem State.setGap_cfg (s : State) (g : Nat) : (s.setGap g).cfg = s.cfg := rfl
@[simp] theorem State.setGap_ctx (s : State) (g : Nat) : (s.setGap g).ctx = s.ctx := rfl
@[simp] theorem State.setGap_gapCnt (s : State) (g : Nat) : (s.setGap g).gapCnt = g := rfl
@[simp] theorem State.setGap_frameReadyQ (s : State) (g : Nat) : (s.setGap g).frameReadyQ = s.frameReadyQ := rfl
@[simp] theorem State.setGap_frameRejectedQ (s : State) (g : Nat) : (s.setGap g).frameRejectedQ = s.frameRejectedQ := rfl
@[simp] theorem State.setGap_ddLast (s : State) (g : Nat) : (s.setGap g).ddLast = s.ddLast := rfl
@[simp] theorem State.setGap_ddHave (s : State) (g : Nat) : (s.setGap g).ddHave = s.ddHave := rfl
@[simp] theorem State.setGap_ddNotifyQ (s : State) (g : Nat) : (s.setGap g).ddNotifyQ = s.ddNotifyQ := rfl
@[simp] theorem State.setGap_tx (s : State) (g : Nat) : (s.setGap g).tx = s.tx := rfl
@[simp] theorem State.setGap_unpackOut (s : State) (g : Nat) : (s.setGap g).unpackOut = s.unpackOut := rfl
@[simp] theorem State.setGap_inputs (s : State) (g : Nat) : (s.setGap g).inputs = s.inputs := rfl
@[simp] theorem State.setGap_obs_ops (s : State) (g : Nat) : (s.setGap g).obs.ops = s.obs.ops := rfl
@[simp] theorem State.setGap_obs_index (s : State) (g : Nat) : (s.setGap g).obs.index = s.obs.index := rfl
@[simp] theorem State.setGap_obs_delivered (s : State) (g : Nat) : (s.setGap g).obs.delivered = s.obs.delivered := rfl
@[simp] theorem State.setGap_obs_notified (s : State) (g : Nat) : (s.setGap g).obs.notified = s.obs.notified := rfl
@[simp] theorem State.setGap_obs_lastRead (s : State) (g : Nat) : (s.setGap g).obs.lastRead = s.obs.lastRead := rfl

/-! ## `gateNotify` -/

@[simp] theorem State.gateNotify_cfg (s : State) : (s.gateNotify).cfg = s.cfg := rfl
@[simp] theorem State.gateNotify_ctx (s : State) : (s.gateNotify).ctx = s.ctx := rfl
@[simp] theorem State.gateNotify_gapCnt (s : State) : (s.gateNotify).gapCnt = s.gapCnt := rfl
@[simp] theorem State.gateNotify_frameReadyQ (s : State) : (s.gateNotify).frameReadyQ = s.frameReadyQ := rfl
@[simp] theorem State.gateNotify_frameRejectedQ (s : State) : (s.gateNotify).frameRejectedQ = s.frameRejectedQ := rfl
@[simp] theorem State.gateNotify_ddLast (s : State) : (s.gateNotify).ddLast = s.ddLast := rfl
@[simp] theorem State.gateNotify_ddHave (s : State) : (s.gateNotify).ddHave = s.ddHave := rfl
@[simp] theorem State.gateNotify_ddNotifyQ (s : State) : (s.gateNotify).ddNotifyQ = (s.frameReadyQ && s.ddNotifyQ) := rfl
@[simp] theorem State.gateNotify_tx (s : State) : (s.gateNotify).tx = s.tx := rfl
@[simp] theorem State.gateNotify_unpackOut (s : State) : (s.gateNotify).unpackOut = s.unpackOut := rfl
@[simp] theorem State.gateNotify_inputs (s : State) : (s.gateNotify).inputs = s.inputs := rfl
@[simp] theorem State.gateNotify_obs_ops (s : State) : (s.gateNotify).obs.ops = s.obs.ops := rfl
@[simp] theorem State.gateNotify_obs_index (s : State) : (s.gateNotify).obs.index = s.obs.index := rfl
@[simp] theorem State.gateNotify_obs_delivered (s : State) : (s.gateNotify).obs.delivered = s.obs.delivered := rfl
@[simp] theorem State.gateNotify_obs_notified (s : State) : (s.gateNotify).obs.notified = s.obs.notified := rfl
@[simp] theorem State.gateNotify_obs_lastRead (s : State) : (s.gateNotify).obs.lastRead = s.obs.lastRead := rfl

end Sys2Proof.Machine
end

