-- ==== Sys2Proof/Laws/Exec.lean ====
section
/-! SUPPORT. What a clock cycle selects and what each operation does, said once: `Selects` reads the decode
of a cycle as ten cases with their conditions, and the effect lemmas give the outcome of each. -/

namespace Sys2Proof.Machine

/-! ## What a cycle selects -/

/-- The operation a clock cycle with input `c` selects in state `s`, with the conditions of its row
(30_encoding.md R82, R83). -/
inductive Selects (c : Ciw) (s : State) : Instr → Prop where
  | reset : ciwRst c = true →
      Selects c s (.reset (ciwErr c) (ciwTck c) (ciwVld c) (gapExceeded s) s.ctx.state s.ctx.nbytes (ciwByte c))
  | errFlush : ciwRst c = false → ciwErr c = true →
      Selects c s (.errFlush (ciwTck c) (ciwVld c) (gapExceeded s) s.ctx.state s.ctx.nbytes (ciwByte c))
  | noByte : ciwRst c = false → ciwErr c = false → ciwVld c = false →
      Selects c s (.noByte (ciwTck c) (gapExceeded s) s.ctx.state s.ctx.nbytes (ciwByte c))
  | gapFlush : ciwRst c = false → ciwErr c = false → ciwVld c = true → gapExceeded s = true →
      Selects c s (.gapFlush (ciwTck c) s.ctx.state s.ctx.nbytes (ciwByte c))
  | guard : ciwRst c = false → ciwErr c = false → ciwVld c = true → gapExceeded s = false →
      25 ≤ s.ctx.nbytes.toNat →
      Selects c s (.guard (ciwTck c) s.ctx.state s.ctx.nbytes (ciwByte c))
  | huntHdr : ciwRst c = false → ciwErr c = false → ciwVld c = true → gapExceeded s = false →
      s.ctx.state = .idle → s.ctx.nbytes = 0#5 → ciwByte c = Config.header → Selects c s .huntHdr
  | huntSkip : ciwRst c = false → ciwErr c = false → ciwVld c = true → gapExceeded s = false →
      s.ctx.state = .idle → s.ctx.nbytes = 0#5 → ciwByte c ≠ Config.header →
      Selects c s (.huntSkip (ciwByte c))
  | capture : ciwRst c = false → ciwErr c = false → ciwVld c = true → gapExceeded s = false →
      s.ctx.state = .capturing → 1 ≤ s.ctx.nbytes.toNat → s.ctx.nbytes.toNat ≤ 23 →
      Selects c s (.capture s.ctx.nbytes (ciwByte c))
  | footerOk : ciwRst c = false → ciwErr c = false → ciwVld c = true → gapExceeded s = false →
      s.ctx.state = .capturing → s.ctx.nbytes = 24#5 → ciwByte c = Config.footer → Selects c s .footerOk
  | footerBad : ciwRst c = false → ciwErr c = false → ciwVld c = true → gapExceeded s = false →
      s.ctx.state = .capturing → s.ctx.nbytes = 24#5 → ciwByte c ≠ Config.footer →
      Selects c s (.footerBad (ciwByte c))

/-- The decode of the step key of a cycle, in terms of its inputs and of the context. -/
theorem decodeKey_stepKey (c : Ciw) (s : State) :
    decodeKey (stepKey c s) =
      if ciwRst c then .ok (.reset (ciwErr c) (ciwTck c) (ciwVld c) (gapExceeded s) s.ctx.state s.ctx.nbytes
        (ciwByte c))
      else if ciwErr c then
        .ok (.errFlush (ciwTck c) (ciwVld c) (gapExceeded s) s.ctx.state s.ctx.nbytes (ciwByte c))
      else if !ciwVld c then .ok (.noByte (ciwTck c) (gapExceeded s) s.ctx.state s.ctx.nbytes (ciwByte c))
      else if gapExceeded s then .ok (.gapFlush (ciwTck c) s.ctx.state s.ctx.nbytes (ciwByte c))
      else if 25 ≤ s.ctx.nbytes.toNat then .ok (.guard (ciwTck c) s.ctx.state s.ctx.nbytes (ciwByte c))
      else decodeDispatch (mkDispatch s.ctx.state s.ctx.nbytes (ciwByte c)) :=
  decodeKey_mkKey ..

/-- A cycle decodes to an operation exactly when it selects it. -/
theorem decodeKey_stepKey_iff (c : Ciw) (s : State) (i : Instr) :
    decodeKey (stepKey c s) = .ok i ↔ Selects c s i := by
  rw [decodeKey_stepKey]
  constructor
  · intro h
    split at h
    · cases h; exact .reset ‹_›
    · rename_i h1
      simp only [Bool.not_eq_true] at h1
      split at h
      · cases h; exact .errFlush h1 ‹_›
      · rename_i h2
        simp only [Bool.not_eq_true] at h2
        split at h
        · rename_i h3
          cases h; exact .noByte h1 h2 (by simpa using h3)
        · rename_i h3
          simp only [Bool.not_eq_true, Bool.not_eq_false'] at h3
          split at h
          · cases h; exact .gapFlush h1 h2 h3 ‹_›
          · rename_i h4
            simp only [Bool.not_eq_true] at h4
            split at h
            · cases h; exact .guard h1 h2 h3 h4 ‹_›
            · rw [decodeDispatch_mkDispatch] at h
              split at h
              · rename_i hs
                split at h
                · split at h <;> cases h
                  · exact .huntHdr h1 h2 h3 h4 hs ‹_› ‹_›
                  · exact .huntSkip h1 h2 h3 h4 hs ‹_› ‹_›
                · cases h
              · rename_i hs
                split at h
                · rename_i hn
                  cases h; exact .capture h1 h2 h3 h4 hs hn.1 hn.2
                · split at h
                  · split at h <;> cases h
                    · exact .footerOk h1 h2 h3 h4 hs ‹_› ‹_›
                    · exact .footerBad h1 h2 h3 h4 hs ‹_› ‹_›
                  · cases h
  · intro h
    cases h <;> simp_all [decodeDispatch_mkDispatch]
    all_goals omega

/-- In a legal context every cycle selects an operation (60_exceptions.md R200). -/
theorem exists_selects (c : Ciw) {s : State} (h : s.ctx.legal) : ∃ i, Selects c s i := by
  cases h1 : ciwRst c
  case true => exact ⟨_, .reset h1⟩
  cases h2 : ciwErr c
  case true => exact ⟨_, .errFlush h1 h2⟩
  cases h3 : ciwVld c
  case false => exact ⟨_, .noByte h1 h2 h3⟩
  cases h4 : gapExceeded s
  case true => exact ⟨_, .gapFlush h1 h2 h3 h4⟩
  obtain ⟨hs, hn⟩ | ⟨hs, hl, hu⟩ := h
  · by_cases hb : ciwByte c = Config.header
    · exact ⟨_, .huntHdr h1 h2 h3 h4 hs hn hb⟩
    · exact ⟨_, .huntSkip h1 h2 h3 h4 hs hn hb⟩
  · by_cases h25 : 25 ≤ s.ctx.nbytes.toNat
    · exact ⟨_, .guard h1 h2 h3 h4 h25⟩
    · by_cases h23 : s.ctx.nbytes.toNat ≤ 23
      · exact ⟨_, .capture h1 h2 h3 h4 hs hl h23⟩
      · have hn : s.ctx.nbytes = 24#5 := BitVec.eq_of_toNat_eq (by simp; omega)
        by_cases hb : ciwByte c = Config.footer
        · exact ⟨_, .footerOk h1 h2 h3 h4 hs hn hb⟩
        · exact ⟨_, .footerBad h1 h2 h3 h4 hs hn hb⟩

/-! ## What each operation does -/

/-- What a step other than `RESET` can do with the context's legality. -/
theorem ifLegal_of_legal {s : State} (h : s.ctx.legal) (o : Host.Outcome State Fault Refusal) :
    s.ifLegal o = o := if_pos h

theorem ifLegal_of_illegal {s : State} (h : ¬ s.ctx.legal) (o : Host.Outcome State Fault Refusal) :
    s.ifLegal o = .fault .invariantViolation := if_neg h

theorem ifLegal_eq_next {s t : State} {o : Host.Outcome State Fault Refusal} :
    s.ifLegal o = .next t ↔ s.ctx.legal ∧ o = .next t := by
  unfold State.ifLegal
  split_ifs with h <;> simp [h]

section
variable {s : State}

theorem exec_reset (e t v g : Bool) (st : SyncState) (n : Count) (b : Byte) :
    exec (.reset e t v g st n b) s = .next s.sessionReset := rfl

variable (h : s.ctx.legal)
include h

theorem exec_errFlush (t v g : Bool) (st : SyncState) (n : Count) (b : Byte) :
    exec (.errFlush t v g st n b) s = .next s.errorFlush := if_pos h

theorem exec_noByte (t g : Bool) (st : SyncState) (n : Count) (b : Byte) :
    exec (.noByte t g st n b) s = .next s.noByte := if_pos h

theorem exec_gapFlush (t : Bool) (st : SyncState) (n : Count) (b : Byte) :
    exec (.gapFlush t st n b) s = .next ((s.setCtx s.ctx.flush).hunt [.gapFlush] b) := if_pos h

theorem exec_guard (t : Bool) (st : SyncState) (n : Count) (b : Byte) :
    exec (.guard t st n b) s = .next ((s.setCtx s.ctx.flush).hunt [.guard] b) := if_pos h

theorem exec_huntHdr : exec .huntHdr s = .next (s.huntHeader []) := if_pos h

theorem exec_huntSkip (b : Byte) : exec (.huntSkip b) s = .next (s.huntSkip []) := if_pos h

theorem exec_capture {n : Count} (hn : n.toNat < 25) (b : Byte) :
    exec (.capture n b) s =
      .next ((s.setCtx (s.ctx.append n.toNat b (n + 1#5))).signal [.capture] false false) := by
  show s.ifLegal (s.captureByte n b) = _
  rw [ifLegal_of_legal h, State.captureByte, if_pos (show n.toNat < Config.frameLen from hn)]

theorem exec_footerOk : exec .footerOk s = .next s.acceptFrame := if_pos h

theorem exec_footerBad (b : Byte) : exec (.footerBad b) s = .next (s.rejectFrame b) := if_pos h

end

/-- A selected operation has a next state in a legal context. -/
theorem exec_of_selects {c : Ciw} {s : State} {i : Instr} (h : Selects c s i) (hl : s.ctx.legal) :
    ∃ u, exec i s = .next u := by
  cases h
  case reset => exact ⟨_, rfl⟩
  case capture => exact ⟨_, exec_capture hl (by omega) _⟩
  all_goals exact ⟨_, if_pos hl⟩

/-- And, but for `RESET`, in no other. -/
theorem Selects.exec_illegal {c : Ciw} {s : State} {i : Instr} (h : Selects c s i) (hr : ciwRst c = false)
    (hl : ¬ s.ctx.legal) : exec i s = .fault .invariantViolation := by
  cases h
  case reset h => rw [hr] at h; cases h
  all_goals exact if_neg hl

theorem Selects.legal_of_next {c : Ciw} {s u : State} {i : Instr} (h : Selects c s i)
    (hr : ciwRst c = false) (hx : exec i s = .next u) : s.ctx.legal := by
  by_contra hl
  rw [h.exec_illegal hr hl] at hx
  cases hx

/-- `INGEST` is the decoded step (30_encoding.md R85): what its pseudocode gives is what the decoded
operation gives. -/
theorem execIngest_of_decode {s : State} {r e t v g : Bool} {b : Byte} {i : Instr}
    (h : decodeKey (mkKey r e t v g s.ctx.state s.ctx.nbytes b) = .ok i) :
    execIngest r e v g b s = exec i s := by
  rw [decodeKey_mkKey] at h
  cases r
  case true => cases h; rfl
  cases e
  case true => cases h; rfl
  cases v
  case false => cases h; rfl
  cases g
  case true => cases h; rfl
  show s.ifLegal (if 25 ≤ s.ctx.nbytes.toNat then _ else s.byteRules s.ctx.state s.ctx.nbytes b) = _
  replace h : (if 25 ≤ s.ctx.nbytes.toNat then Except.ok (Instr.guard t s.ctx.state s.ctx.nbytes b)
    else decodeDispatch (mkDispatch s.ctx.state s.ctx.nbytes b)) = .ok i := h
  by_cases h25 : 25 ≤ s.ctx.nbytes.toNat
  · rw [if_pos h25] at h ⊢
    cases h; rfl
  rw [if_neg h25] at h ⊢
  rw [decodeDispatch_mkDispatch] at h
  unfold State.byteRules
  cases hs : s.ctx.state
  case idle =>
    simp only [hs, State.hunt] at h ⊢
    split at h
    · split at h <;> cases h
      · rw [if_pos ‹_›]; rfl
      · rw [if_neg ‹_›]; rfl
    · cases h
  case capturing =>
    simp only [hs] at h ⊢
    split at h
    · rename_i hn
      cases h
      rw [if_pos hn.2]; rfl
    · split at h
      · rename_i hn
        have hn' : ¬ s.ctx.nbytes.toNat ≤ 23 := by rw [hn]; decide
        rw [if_neg hn']
        split at h <;> cases h
        · rw [if_pos ‹_›]; rfl
        · rw [if_neg ‹_›]; rfl
      · cases h

/-- A key that decodes to nothing comes from an illegal context (30_encoding.md R84). -/
theorem not_legal_of_error {s : State} {r e t v g : Bool} {b : Byte} {x : DecodeError}
    (h : decodeKey (mkKey r e t v g s.ctx.state s.ctx.nbytes b) = .error x) :
    r = false ∧ ¬ s.ctx.legal := by
  rw [decodeKey_mkKey, decodeDispatch_mkDispatch] at h
  cases r
  case true => cases h
  refine ⟨rfl, fun hl => ?_⟩
  obtain ⟨hs, hn⟩ | ⟨hs, h1, h2⟩ := hl
  · simp only [hs, hn, Bool.false_eq_true, if_false, if_true] at h
    split_ifs at h
  · simp only [hs, Bool.false_eq_true, if_false] at h
    by_cases h24 : s.ctx.nbytes = 24#5
    · simp only [h24, if_true] at h
      split_ifs at h
    · have : s.ctx.nbytes.toNat ≠ 24 := fun h0 => h24 (BitVec.eq_of_toNat_eq h0)
      split_ifs at h
      omega

/-- So `INGEST` has no successor there. -/
theorem execIngest_of_error {s : State} {r e t v g : Bool} {b : Byte} {x : DecodeError}
    (h : decodeKey (mkKey r e t v g s.ctx.state s.ctx.nbytes b) = .error x) :
    execIngest r e v g b s = .fault .invariantViolation := by
  obtain ⟨rfl, hl⟩ := not_legal_of_error h
  exact if_neg hl

/-! ## Clock edges -/

/-- What one clock edge can do, said once. -/
theorem clockEdge_next_iff {c : Ciw} {s t : State} :
    clockEdge c s = .next t ↔ ∃ i u, Selects c s i ∧ exec i s = .next u ∧ t = u.besideStep c i := by
  unfold clockEdge
  constructor
  · intro h
    split at h
    · rename_i i hi
      cases hx : exec i s with
      | next u =>
        rw [hx] at h
        cases h
        exact ⟨i, u, (decodeKey_stepKey_iff c s i).mp hi, hx, rfl⟩
      | fault r => rw [hx] at h; cases h
      | refused r => rw [hx] at h; cases h
    · cases h
  · rintro ⟨i, u, hi, hx, rfl⟩
    rw [(decodeKey_stepKey_iff c s i).mpr hi]
    show andThen (exec i s) _ = _
    rw [hx]; rfl

theorem clockEdge_of_selects {c : Ciw} {s u : State} {i : Instr} (hi : Selects c s i)
    (hx : exec i s = .next u) : clockEdge c s = .next (u.besideStep c i) :=
  clockEdge_next_iff.mpr ⟨i, u, hi, hx, rfl⟩

/-- A cycle in an illegal context that is no reset has no successor (10_state.md R21). -/
theorem clockEdge_illegal {c : Ciw} {s : State} (hr : ciwRst c = false) (hl : ¬ s.ctx.legal) :
    clockEdge c s = .fault .invariantViolation := by
  unfold clockEdge
  split
  · rename_i i hi
    rw [((decodeKey_stepKey_iff c s i).mp hi).exec_illegal hr hl]; rfl
  · rfl

section
variable (c : Ciw) (i : Instr) (u : State)

@[simp] theorem dedupEdge_cfg (r : Bool) : (u.dedupEdge r i).cfg = u.cfg := by
  unfold State.dedupEdge; split_ifs <;> rfl
@[simp] theorem dedupEdge_ctx (r : Bool) : (u.dedupEdge r i).ctx = u.ctx := by
  unfold State.dedupEdge; split_ifs <;> rfl
@[simp] theorem dedupEdge_gapCnt (r : Bool) : (u.dedupEdge r i).gapCnt = u.gapCnt := by
  unfold State.dedupEdge; split_ifs <;> rfl
@[simp] theorem dedupEdge_frameReadyQ (r : Bool) : (u.dedupEdge r i).frameReadyQ = u.frameReadyQ := by
  unfold State.dedupEdge; split_ifs <;> rfl
@[simp] theorem dedupEdge_frameRejectedQ (r : Bool) : (u.dedupEdge r i).frameRejectedQ = u.frameRejectedQ := by
  unfold State.dedupEdge; split_ifs <;> rfl
@[simp] theorem dedupEdge_tx (r : Bool) : (u.dedupEdge r i).tx = u.tx := by
  unfold State.dedupEdge; split_ifs <;> rfl
@[simp] theorem dedupEdge_unpackOut (r : Bool) : (u.dedupEdge r i).unpackOut = u.unpackOut := by
  unfold State.dedupEdge; split_ifs <;> rfl
@[simp] theorem dedupEdge_inputs (r : Bool) : (u.dedupEdge r i).inputs = u.inputs := by
  unfold State.dedupEdge; split_ifs <;> rfl
@[simp] theorem dedupEdge_obs_ops (r : Bool) : (u.dedupEdge r i).obs.ops = u.obs.ops := by
  unfold State.dedupEdge; split_ifs <;> rfl
@[simp] theorem dedupEdge_obs_index (r : Bool) : (u.dedupEdge r i).obs.index = u.obs.index := by
  unfold State.dedupEdge; split_ifs <;> rfl
@[simp] theorem dedupEdge_obs_delivered (r : Bool) : (u.dedupEdge r i).obs.delivered = u.obs.delivered := by
  unfold State.dedupEdge; split_ifs <;> rfl
@[simp] theorem dedupEdge_obs_lastRead (r : Bool) : (u.dedupEdge r i).obs.lastRead = u.obs.lastRead := by
  unfold State.dedupEdge; split_ifs <;> rfl

@[simp] theorem besideStep_cfg : (u.besideStep c i).cfg = u.cfg := by
  simp [State.besideStep]
@[simp] theorem besideStep_ctx : (u.besideStep c i).ctx = u.ctx := by
  simp [State.besideStep]
@[simp] theorem besideStep_gapCnt : (u.besideStep c i).gapCnt =
    nextGapCount u.cfg.gapCntWidth (ciwRst c) (ciwErr c) (ciwVld c) (ciwTck c) u.gapCnt := by
  simp [State.besideStep]
@[simp] theorem besideStep_frameReadyQ : (u.besideStep c i).frameReadyQ = u.frameReadyQ := by
  simp [State.besideStep]
@[simp] theorem besideStep_frameRejectedQ : (u.besideStep c i).frameRejectedQ = u.frameRejectedQ := by
  simp [State.besideStep]
@[simp] theorem besideStep_tx : (u.besideStep c i).tx = u.tx := by
  simp [State.besideStep]
@[simp] theorem besideStep_unpackOut : (u.besideStep c i).unpackOut = u.unpackOut := by
  simp [State.besideStep]
@[simp] theorem besideStep_inputs : (u.besideStep c i).inputs = u.inputs := by
  simp [State.besideStep]
@[simp] theorem besideStep_obs_ops : (u.besideStep c i).obs.ops = u.obs.ops := by
  simp [State.besideStep]
@[simp] theorem besideStep_obs_index : (u.besideStep c i).obs.index = u.obs.index + 1 := by
  simp [State.besideStep]
@[simp] theorem besideStep_obs_delivered : (u.besideStep c i).obs.delivered = u.obs.delivered := by
  simp [State.besideStep]
@[simp] theorem besideStep_obs_lastRead : (u.besideStep c i).obs.lastRead = u.obs.lastRead := by
  simp [State.besideStep]

/-- The duplicate-suppression stage of an edge, where it is absent. -/
theorem besideStep_dedup_absent (h : u.cfg.hasDedup = false) :
    (u.besideStep c i).ddLast = u.ddLast ∧ (u.besideStep c i).ddHave = u.ddHave ∧
      (u.besideStep c i).ddNotifyQ = u.ddNotifyQ ∧ (u.besideStep c i).obs.notified = u.obs.notified := by
  unfold State.besideStep State.dedupEdge
  simp [h, State.countInput]

/-- The stage at a reset edge. -/
theorem besideStep_dedup_reset (h : u.cfg.hasDedup = true) (hr : ciwRst c = true) :
    (u.besideStep c i).ddLast = u.ddLast ∧ (u.besideStep c i).ddHave = false ∧
      (u.besideStep c i).ddNotifyQ = false ∧ (u.besideStep c i).obs.notified = u.obs.notified := by
  unfold State.besideStep State.dedupEdge
  simp [h, hr, State.countInput]

/-- The stage at an edge that is neither a reset nor accepts a frame. -/
theorem besideStep_dedup_other (h : u.cfg.hasDedup = true) (hr : ciwRst c = false) (hi : i ≠ .footerOk) :
    (u.besideStep c i).ddLast = u.ddLast ∧ (u.besideStep c i).ddHave = u.ddHave ∧
      (u.besideStep c i).ddNotifyQ = false ∧ (u.besideStep c i).obs.notified = u.obs.notified := by
  unfold State.besideStep State.dedupEdge
  simp [h, hr, hi, State.countInput]

/-- The stage at an accepting edge. -/
theorem besideStep_dedup_accept (h : u.cfg.hasDedup = true) (hr : ciwRst c = false) :
    let d : Delivery := { index := u.obs.index, payload := u.ctx.buf }
    (u.besideStep c .footerOk).ddLast = u.ctx.buf ∧ (u.besideStep c .footerOk).ddHave = true ∧
      (u.besideStep c .footerOk).ddNotifyQ = (!u.ddHave || decide (u.ctx.buf ≠ u.ddLast)) ∧
      (u.besideStep c .footerOk).obs.notified =
        (if (!u.ddHave || decide (u.ctx.buf ≠ u.ddLast)) = true then u.obs.notified ++ [d]
          else u.obs.notified) := by
  unfold State.besideStep State.dedupEdge
  simp [h, hr, State.countInput, State.dedupDelivery]

end

/-! ## Steps -/

theorem step_of_nextInput {s : State} {inp : Input} (h : nextInput s = inp) :
    step s = runInput inp s.takeInput := by
  rw [step, h]

theorem gapExceeded_takeInput (s : State) : gapExceeded s.takeInput = gapExceeded s := rfl

theorem stepKey_takeInput (c : Ciw) (s : State) : stepKey c s.takeInput = stepKey c s := rfl

theorem step_cycle {s : State} {c : Ciw} (h : nextInput s = .cycle c) :
    step s = clockEdge c s.takeInput :=
  step_of_nextInput h

end Sys2Proof.Machine
end

