-- ==== Sys2Proof/Laws/Run.lean ====
section
/-! SUPPORT. Runs: what a step takes from the inputs, the composition of runs, and the run of a byte stream
as successive clock edges. -/

namespace Sys2Proof.Machine

/-! ## Arithmetic of the gap counter -/

/-- A count that fits its register stays within it, and grows by one until it is full. -/
theorem satInc_eq_min {w v : Nat} (h : v ≤ 2 ^ w - 1) : satInc w v = min (v + 1) (2 ^ w - 1) := by
  unfold satInc
  split <;> omega

/-- The next count, where the count fits its register (42_resync.md R171). -/
theorem nextGapCount_eq (r e v t : Bool) {w : Nat} {g : Nat} (h : g ≤ 2 ^ w - 1) :
    nextGapCount w r e v t g =
      if r = true ∨ isDelivery r e v = true then 0 else if t then min (g + 1) (2 ^ w - 1) else g := by
  unfold nextGapCount
  cases r <;> cases hd : isDelivery _ e v <;> cases t <;> simp [satInc_eq_min h]

theorem nextGapCount_le (r e v t : Bool) {w : Nat} {g : Nat} (h : g ≤ 2 ^ w - 1) :
    nextGapCount w r e v t g ≤ 2 ^ w - 1 := by
  rw [nextGapCount_eq r e v t h]
  split_ifs
  · exact Nat.zero_le _
  · exact Nat.min_le_right _ _
  · exact h

/-! ## Selection -/

theorem selects_takeInput {c : Ciw} {s : State} {i : Instr} :
    Selects c s.takeInput i ↔ Selects c s i := by
  rw [← decodeKey_stepKey_iff, stepKey_takeInput, decodeKey_stepKey_iff]

/-- A cycle selects at most one operation. -/
theorem Selects.unique {c : Ciw} {s : State} {i j : Instr} (hi : Selects c s i) (hj : Selects c s j) :
    i = j := by
  rw [← decodeKey_stepKey_iff] at hi hj
  exact Except.ok.inj (hi.symm.trans hj)

/-- What a step on a clock cycle can do, said once. -/
theorem step_cycle_next_iff {s t : State} {c : Ciw} (h : nextInput s = .cycle c) :
    step s = .next t ↔ ∃ i u, Selects c s i ∧ exec i s.takeInput = .next u ∧ t = u.besideStep c i := by
  rw [step_cycle h, clockEdge_next_iff]
  simp only [selects_takeInput]

/-! ## Outcomes and runs -/

@[simp] theorem andThen_next (s : State) (f : State → Host.Outcome State Fault Refusal) :
    andThen (.next s) f = f s := rfl
@[simp] theorem andThen_fault (r : Fault) (f : State → Host.Outcome State Fault Refusal) :
    andThen (.fault r) f = .fault r := rfl
@[simp] theorem andThen_refused (r : Refusal) (f : State → Host.Outcome State Fault Refusal) :
    andThen (.refused r) f = .refused r := rfl

theorem andThen_assoc (o : Host.Outcome State Fault Refusal)
    (f g : State → Host.Outcome State Fault Refusal) :
    andThen (andThen o f) g = andThen o fun s => andThen (f s) g := by
  cases o <;> rfl

theorem andThen_eq_next {o : Host.Outcome State Fault Refusal}
    {f : State → Host.Outcome State Fault Refusal} {t : State} :
    andThen o f = .next t ↔ ∃ u, o = .next u ∧ f u = .next t := by
  cases o <;> simp [andThen]

@[simp] theorem stepMany_zero (s : State) : stepMany 0 s = .next s := rfl

theorem stepMany_succ (k : Nat) (s : State) : stepMany (k + 1) s = andThen (step s) (stepMany k) := rfl

/-- A run of `m + n` steps is a run of `m` and then one of `n`. -/
theorem stepMany_add (m n : Nat) (s : State) :
    stepMany (m + n) s = andThen (stepMany m s) (stepMany n) := by
  induction m generalizing s with
  | zero => simp
  | succ m ih =>
    rw [Nat.add_right_comm, stepMany_succ, stepMany_succ, andThen_assoc]
    congr 1
    funext u
    exact ih u

/-! ## Byte streams -/

@[simp] theorem ciwRst_byteCiw (b : Byte) : ciwRst (byteCiw b) = false := by
  simp [ciwRst, byteCiw]
@[simp] theorem ciwErr_byteCiw (b : Byte) : ciwErr (byteCiw b) = false := by
  simp [ciwErr, byteCiw]
@[simp] theorem ciwTck_byteCiw (b : Byte) : ciwTck (byteCiw b) = false := by
  simp [ciwTck, byteCiw]
@[simp] theorem ciwVld_byteCiw (b : Byte) : ciwVld (byteCiw b) = true := by
  simp [ciwVld, byteCiw]
@[simp] theorem ciwByte_byteCiw (b : Byte) : ciwByte (byteCiw b) = b := by
  refine BitVec.eq_of_getLsbD_eq fun i hi => ?_
  rw [ciwByte, BitVec.getLsbD_extractLsb', byteCiw, BitVec.getLsbD_or]
  interval_cases i <;> simp

/-- The successive clock edges of a byte stream, one byte a cycle. -/
def byteRun : List Byte → State → Host.Outcome State Fault Refusal
  | [], s => .next s
  | b :: bs, s => andThen (clockEdge (byteCiw b) s) (byteRun bs)

theorem byteRun_append (bs cs : List Byte) (s : State) :
    byteRun (bs ++ cs) s = andThen (byteRun bs s) (byteRun cs) := by
  induction bs generalizing s with
  | nil => rfl
  | cons b bs ih =>
    show andThen _ _ = andThen (andThen _ _) _
    rw [andThen_assoc]
    congr 1
    funext u
    exact ih u

@[simp] theorem feed_nil (s : State) : s.feed [] = s := rfl

section
variable (s : State) (l : List Input)

theorem captureByte_inputs (n : Count) (b : Byte) :
    State.captureByte n b { s with inputs := l } =
      andThen (State.captureByte n b s) fun t => .next { t with inputs := l } := by
  unfold State.captureByte
  split_ifs <;> rfl

theorem hunt_inputs (pre : List Op) (b : Byte) :
    State.hunt pre b { s with inputs := l } = { State.hunt pre b s with inputs := l } := by
  unfold State.hunt
  split_ifs <;> rfl

theorem byteRules_inputs (st : SyncState) (n : Count) (b : Byte) :
    State.byteRules st n b { s with inputs := l } =
      andThen (State.byteRules st n b s) fun t => .next { t with inputs := l } := by
  cases st <;> simp only [State.byteRules]
  · exact congrArg Host.Outcome.next (hunt_inputs s l _ b)
  · split_ifs
    · exact captureByte_inputs s l n b
    all_goals rfl

/-- The legality of the context does not look at the pending inputs. -/
theorem ifLegal_inputs {o o' : Host.Outcome State Fault Refusal}
    (h : o' = andThen o fun t => .next { t with inputs := l }) :
    State.ifLegal { s with inputs := l } o' =
      andThen (s.ifLegal o) fun t => .next { t with inputs := l } := by
  subst h
  by_cases hl : s.ctx.legal
  · rw [ifLegal_of_legal hl, ifLegal_of_legal (s := { s with inputs := l }) hl]
  · rw [ifLegal_of_illegal hl, ifLegal_of_illegal (s := { s with inputs := l }) hl]; rfl

theorem execIngest_inputs (r e v g : Bool) (b : Byte) :
    execIngest r e v g b { s with inputs := l } =
      andThen (execIngest r e v g b s) fun t => .next { t with inputs := l } := by
  cases r
  case true => rfl
  refine ifLegal_inputs s l ?_
  cases e
  case true => rfl
  cases v
  case false => rfl
  cases g
  case true => exact congrArg Host.Outcome.next (hunt_inputs (s.setCtx s.ctx.flush) l _ b)
  show (if 25 ≤ s.ctx.nbytes.toNat then _ else _) = andThen (if 25 ≤ s.ctx.nbytes.toNat then _ else _) _
  split_ifs
  · exact congrArg Host.Outcome.next (hunt_inputs (s.setCtx s.ctx.flush) l _ b)
  · exact byteRules_inputs s l s.ctx.state s.ctx.nbytes b

end

/-- `INGEST_BATCH` reads no input that is pending. -/
theorem ingestBytes_inputs (gx : Bool) (bs : List Byte) (s : State) (l : List Input) :
    ingestBytes gx bs { s with inputs := l } =
      andThen (ingestBytes gx bs s) fun t => .next { t with inputs := l } := by
  induction bs generalizing gx s with
  | nil => rfl
  | cons b bs ih =>
    show andThen (execIngest _ _ _ _ _ _) _ = andThen (andThen (execIngest _ _ _ _ _ _) _) _
    rw [execIngest_inputs, andThen_assoc, andThen_assoc]
    congr 1
    funext u
    exact ih false u.countInput

/-- An operation reads no input that is pending, and leaves them all. -/
theorem exec_inputs (i : Instr) (s : State) (l : List Input) :
    exec i { s with inputs := l } = andThen (exec i s) fun t => .next { t with inputs := l } := by
  cases i
  case errFlush => exact ifLegal_inputs s l rfl
  case noByte => exact ifLegal_inputs s l rfl
  case gapFlush b =>
    exact ifLegal_inputs s l (congrArg Host.Outcome.next (hunt_inputs (s.setCtx s.ctx.flush) l _ b))
  case guard b =>
    exact ifLegal_inputs s l (congrArg Host.Outcome.next (hunt_inputs (s.setCtx s.ctx.flush) l _ b))
  case huntHdr => exact ifLegal_inputs s l rfl
  case huntSkip => exact ifLegal_inputs s l rfl
  case capture n b => exact ifLegal_inputs s l (captureByte_inputs s l n b)
  case footerOk => exact ifLegal_inputs s l rfl
  case footerBad => exact ifLegal_inputs s l rfl
  case ingest r e v g b => exact execIngest_inputs s l r e v g b
  case ingestBatch gx bs => exact ingestBytes_inputs gx bs s l
  case dedup p =>
    show execDedup p _ = andThen (execDedup p s) _
    unfold execDedup
    split_ifs <;> rfl
  all_goals rfl

theorem besideStep_with_inputs (c : Ciw) (i : Instr) (u : State) (l : List Input) :
    State.besideStep c i { u with inputs := l } = { State.besideStep c i u with inputs := l } := by
  cases h : u.cfg.hasDedup <;> by_cases hr : ciwRst c = true <;> by_cases hi : i = .footerOk <;>
    simp [State.besideStep, State.dedupEdge, State.setGap, h, hr, hi, State.countInput,
      State.dedupDelivery]

/-- A clock edge reads no input that is pending, and leaves them all. -/
theorem clockEdge_inputs (c : Ciw) (s : State) (l : List Input) :
    clockEdge c { s with inputs := l } = andThen (clockEdge c s) fun t => .next { t with inputs := l } := by
  have hk : stepKey c { s with inputs := l } = stepKey c s := rfl
  unfold clockEdge
  rw [hk]
  split
  · rw [exec_inputs, andThen_assoc, andThen_assoc]
    congr 1
    funext u
    exact congrArg Host.Outcome.next (besideStep_with_inputs c _ u l)
  · rfl

theorem step_feed (b : Byte) (bs : List Byte) (s : State) :
    step (s.feed (b :: bs)) = andThen (clockEdge (byteCiw b) s) fun t =>
      .next { t with inputs := byteInputs bs ++ s.inputs } :=
  clockEdge_inputs (byteCiw b) s (byteInputs bs ++ s.inputs)

theorem clockEdge_keeps_inputs {c : Ciw} {s t : State} (h : clockEdge c s = .next t) :
    t.inputs = s.inputs := by
  have := clockEdge_inputs c s s.inputs
  rw [show ({ s with inputs := s.inputs } : State) = s from rfl, h] at this
  have ht := congrArg State.inputs (Host.Outcome.next.inj this)
  exact ht

/-- The run of a fed byte stream, with the rest of it still to come. -/
theorem stepMany_feed (bs rest : List Byte) (s : State) :
    stepMany bs.length (s.feed (bs ++ rest)) = andThen (byteRun bs s) fun t => .next (t.feed rest) := by
  induction bs generalizing s with
  | nil => rfl
  | cons b bs ih =>
    rw [List.cons_append, List.length_cons, stepMany_succ, step_feed]
    show _ = andThen (andThen _ _) _
    rw [andThen_assoc, andThen_assoc]
    cases h : clockEdge (byteCiw b) s with
    | next u =>
      simp only [andThen_next]
      rw [← ih u, State.feed, clockEdge_keeps_inputs h]
    | fault r => rfl
    | refused r => rfl

theorem stepMany_feed_all (bs : List Byte) (s : State) :
    stepMany bs.length (s.feed bs) = byteRun bs s := by
  have := stepMany_feed bs [] s
  rw [List.append_nil] at this
  rw [this]
  cases byteRun bs s <;> rfl

/-! ## Cycles and the environment -/

/-- The first of several cycles to come. -/
theorem step_cycles (c : Ciw) (cs : List Ciw) (s : State) :
    step { s with inputs := (c :: cs).map Input.cycle ++ s.inputs } =
      andThen (clockEdge c s) fun t => .next { t with inputs := cs.map Input.cycle ++ s.inputs } :=
  clockEdge_inputs c s (cs.map Input.cycle ++ s.inputs)

@[simp] theorem trace_zero (s : State) : trace 0 s = [] := rfl

/-- The first step of a run that goes on. -/
theorem trace_succ {s t : State} (h : step s = .next t) (k : Nat) :
    trace (k + 1) s = (s, nextInput s) :: trace k t := by
  rw [trace, h]

/-- A train whose first pulse falls within its period pulses in one residue class. -/
theorem tickAt_eq_mod {T φ : Nat} (h : φ < T) (x : Nat) : tickAt T φ x = decide (x % T = φ) := by
  rw [tickAt, ← Bool.decide_and, decide_eq_decide]
  constructor
  · rintro ⟨hx, hd⟩
    obtain ⟨q, hq⟩ := Nat.dvd_of_mod_eq_zero hd
    rw [show x = φ + T * q by omega, Nat.add_mul_mod_self_left, Nat.mod_eq_of_lt h]
  · intro hm
    have hd := Nat.div_add_mod x T
    rw [hm] at hd
    exact ⟨by omega, by rw [show x - φ = T * (x / T) by omega, Nat.mul_mod_right]⟩

/-- Seen from any later cycle, it is such a train again. -/
theorem tickAt_add {T φ : Nat} (h : φ < T) (a : Nat) :
    ∃ ψ, ψ < T ∧ ∀ k, tickAt T φ (a + k) = tickAt T ψ k := by
  have ha := Nat.mod_lt a (Nat.zero_lt_of_lt h)
  refine ⟨(φ + (T - a % T)) % T, Nat.mod_lt _ (Nat.zero_lt_of_lt h), fun k => ?_⟩
  rw [tickAt_eq_mod h, tickAt_eq_mod (Nat.mod_lt _ (Nat.zero_lt_of_lt h)), decide_eq_decide, Nat.add_mod]
  have hk := Nat.mod_lt k (Nat.zero_lt_of_lt h)
  have wrap : ∀ x, x < 2 * T → x % T = if x < T then x else x - T := fun x hx => by
    split
    · exact Nat.mod_eq_of_lt ‹_›
    · rw [Nat.mod_eq_sub_mod (by omega), Nat.mod_eq_of_lt (by omega)]
  rw [wrap (a % T + k % T) (by omega), wrap (φ + (T - a % T)) (by omega)]
  split_ifs <;> omega

/-- From any cycle of a run on, the ticks of a byte source that keeps its duties are the train that
42_resync.md R174 speaks of. -/
theorem ByteSource.Duties.ticks_from {src : ByteSource} {p : Config.Params} {r : Bool} {run : List Input}
    (h : src.Duties p r run) (a : Nat) :
    ∃ φ, φ < Sys2Proof.Machine.tickPeriod p ∧ ∀ (k : Nat) (hk : a + k < (run.flatMap Input.cycles).length),
      ciwTck (run.flatMap Input.cycles)[a + k] = tickAt (Sys2Proof.Machine.tickPeriod p) φ k := by
  obtain ⟨φ, hφ, hk⟩ := tickAt_add h.tickPhase a
  exact ⟨φ, hφ, fun k hl => (h.tickPeriod (a + k) hl).trans (hk k)⟩

/-- So it pulses in every period of the run. -/
theorem ByteSource.Duties.pulses {src : ByteSource} {p : Config.Params} {r : Bool} {run : List Input}
    (h : src.Duties p r run) {a : Nat}
    (ha : a + Sys2Proof.Machine.tickPeriod p ≤ (run.flatMap Input.cycles).length) :
    ∃ (k : Nat) (hk : a + k < (run.flatMap Input.cycles).length),
      k < Sys2Proof.Machine.tickPeriod p ∧ ciwTck (run.flatMap Input.cycles)[a + k] = true := by
  obtain ⟨φ, hφ, hk⟩ := h.ticks_from a
  exact ⟨φ, by omega, hφ, by rw [hk φ (by omega)]; simp [tickAt]⟩

/-- A port shows a value exactly where it exists and its window is open. -/
theorem portDefined_iff {port : OutPort} {s : State} :
    portDefined port s = true ↔ ∃ v, readPort port s = .next v := by
  cases port <;> simp only [portDefined, readPort, readHeld, heldPayload, Bool.and_eq_true, true_iff] <;>
    first
      | exact ⟨_, rfl⟩
      | split_ifs <;> simp_all

end Sys2Proof.Machine
end

