-- ==== Sys2Proof/Laws/Flow.lean ====
section
/-! SUPPORT. A clock cycle as a function: which fields an operation writes, and the context, the ready signal
and the delivery of a cycle in a legal context, in terms of its inputs alone. -/

namespace Sys2Proof.Machine

/-! ## The fields an operation of a cycle leaves -/

/-- What the operation of a cycle does outside the context and the step outputs, said once. -/
theorem Selects.exec_frame {c : Ciw} {s u : State} {i : Instr} (h : Selects c s i)
    (hx : exec i s = .next u) :
    u.cfg = s.cfg ∧ u.tx = s.tx ∧ u.unpackOut = s.unpackOut ∧ u.inputs = s.inputs ∧
      u.obs.index = s.obs.index ∧ u.gapCnt = (if ciwRst c then 0 else s.gapCnt) ∧
      u.ddLast = s.ddLast ∧ u.obs.notified = s.obs.notified ∧ u.obs.lastRead = s.obs.lastRead ∧
      (ciwRst c = false → u.ddHave = s.ddHave ∧ u.ddNotifyQ = s.ddNotifyQ) ∧
      (s.cfg.hasDedup = false → u.ddHave = s.ddHave ∧ u.ddNotifyQ = s.ddNotifyQ) := by
  cases h
  case reset h => cases hx; simp_all
  case gapFlush h _ _ _ =>
    obtain ⟨-, hx⟩ := ifLegal_eq_next.mp hx
    cases hx; unfold State.hunt; split <;> simp [State.huntHeader, State.huntSkip, h]
  case guard h _ _ _ _ =>
    obtain ⟨-, hx⟩ := ifLegal_eq_next.mp hx
    cases hx; unfold State.hunt; split <;> simp [State.huntHeader, State.huntSkip, h]
  case capture h _ _ _ _ _ _ =>
    rw [exec_capture (ifLegal_eq_next.mp hx).1 (by omega)] at hx; cases hx; simp [h]
  case errFlush h _ => cases (ifLegal_eq_next.mp hx).2; simp [State.errorFlush, h]
  case noByte h _ _ => cases (ifLegal_eq_next.mp hx).2; simp [State.noByte, h]
  case huntHdr h _ _ _ _ _ _ => cases (ifLegal_eq_next.mp hx).2; simp [State.huntHeader, h]
  case huntSkip h _ _ _ _ _ _ => cases (ifLegal_eq_next.mp hx).2; simp [State.huntSkip, h]
  case footerOk h _ _ _ _ _ _ => cases (ifLegal_eq_next.mp hx).2; simp [State.acceptFrame, h]
  case footerBad h _ _ _ _ _ _ => cases (ifLegal_eq_next.mp hx).2; simp [State.rejectFrame, h]

theorem Selects.rst_of_footerOk {c : Ciw} {s : State} (h : Selects c s .footerOk) : ciwRst c = false := by
  cases h; assumption

/-! ## The context and the ready signal of a cycle -/

/-- The context after a cycle, from a legal one. -/
def Context.next (r e v g : Bool) (b : Byte) (x : Context) : Context :=
  if r || e then x.flush
  else if !v then x
  else if g || decide (25 ≤ x.nbytes.toNat) || decide (x.state = .idle) then
    if b = Config.header then x.append 0 Config.header 1#5 else x.flush
  else x.append x.nbytes.toNat b (x.nbytes + 1#5)

/-- Whether a cycle accepts a frame. -/
def Context.accepts (r e v g : Bool) (b : Byte) (x : Context) : Bool :=
  !r && !e && v && !g && decide (x.state = .capturing) && decide (x.nbytes = 24#5)
    && decide (b = Config.footer)

theorem hunt_effect (pre : List Op) (b : Byte) (s : State) :
    (State.hunt pre b s).ctx =
        (if b = Config.header then s.ctx.append 0 Config.header 1#5 else s.ctx.flush) ∧
      (State.hunt pre b s).frameReadyQ = false ∧
      (State.hunt pre b s).obs.delivered = s.obs.delivered := by
  unfold State.hunt; split_ifs <;> exact ⟨rfl, rfl, rfl⟩

/-- The context, the ready signal and the delivery of the operation a cycle selects. -/
theorem Selects.exec_effect {c : Ciw} {s u : State} {i : Instr} (hs : Selects c s i)
    (hx : exec i s = .next u) :
    let a := s.ctx.accepts (ciwRst c) (ciwErr c) (ciwVld c) (gapExceeded s) (ciwByte c)
    u.ctx = s.ctx.next (ciwRst c) (ciwErr c) (ciwVld c) (gapExceeded s) (ciwByte c) ∧
      u.frameReadyQ = a ∧
      u.obs.delivered =
        (if a then s.obs.delivered ++ [{ index := s.obs.index, payload := u.ctx.buf }]
          else s.obs.delivered) := by
  cases hs
  case reset h => cases hx; simp [Context.next, Context.accepts, h]
  case errFlush h1 h2 =>
    cases (ifLegal_eq_next.mp hx).2; simp [Context.next, Context.accepts, h1, h2, State.errorFlush]
  case noByte h1 h2 h3 =>
    cases (ifLegal_eq_next.mp hx).2; simp [Context.next, Context.accepts, h1, h2, h3, State.noByte]
  case gapFlush h1 h2 h3 h4 =>
    cases (ifLegal_eq_next.mp hx).2
    have := hunt_effect [.gapFlush] (ciwByte c) (s.setCtx s.ctx.flush)
    simp [this.1, this.2, Context.next, Context.accepts, h1, h2, h3, h4]; rfl
  case guard h1 h2 h3 h4 h5 =>
    cases (ifLegal_eq_next.mp hx).2
    have := hunt_effect [.guard] (ciwByte c) (s.setCtx s.ctx.flush)
    have hn : s.ctx.nbytes ≠ 24#5 := by intro h; rw [h] at h5; simp at h5
    simp [this.1, this.2, Context.next, Context.accepts, h1, h2, h3, h4, h5, hn]; rfl
  case huntHdr h1 h2 h3 h4 h5 h6 h7 =>
    cases (ifLegal_eq_next.mp hx).2; simp [State.huntHeader, Context.next, Context.accepts, h1, h2, h3, h4, h5, h7]
  case huntSkip h1 h2 h3 h4 h5 h6 h7 =>
    cases (ifLegal_eq_next.mp hx).2; simp [State.huntSkip, Context.next, Context.accepts, h1, h2, h3, h4, h5, h7]
  case capture h1 h2 h3 h4 h5 h6 h7 =>
    rw [exec_capture (ifLegal_eq_next.mp hx).1 (by omega)] at hx; cases hx
    have hn : s.ctx.nbytes ≠ 24#5 := by intro h; rw [h] at h7; simp at h7
    simp [Context.next, Context.accepts, h1, h2, h3, h4, h5, hn, show ¬ 25 ≤ s.ctx.nbytes.toNat by omega]
  case footerOk h1 h2 h3 h4 h5 h6 h7 =>
    cases (ifLegal_eq_next.mp hx).2
    simp [State.acceptFrame, State.deliver, Context.next, Context.accepts, h1, h2, h3, h4, h5, h6, h7]
  case footerBad h1 h2 h3 h4 h5 h6 h7 =>
    cases (ifLegal_eq_next.mp hx).2; simp [State.rejectFrame, Context.next, Context.accepts, h1, h2, h3, h4, h5, h6, h7]

/-- The pulses of the operation a cycle selects. -/
theorem Selects.exec_pulses {c : Ciw} {s u : State} {i : Instr} (h : Selects c s i)
    (hx : exec i s = .next u) :
    (u.frameReadyQ = true ↔ i = .footerOk) ∧
      (u.frameRejectedQ = true ↔ s.cfg.exposeReject = true ∧ ∃ b, i = .footerBad b) := by
  cases h
  case reset => cases hx; simp
  case capture => rw [exec_capture (ifLegal_eq_next.mp hx).1 (by omega)] at hx; cases hx; simp
  case gapFlush =>
    cases (ifLegal_eq_next.mp hx).2
    unfold State.hunt; split <;> simp [State.huntHeader, State.huntSkip]
  case guard =>
    cases (ifLegal_eq_next.mp hx).2
    unfold State.hunt; split <;> simp [State.huntHeader, State.huntSkip]
  all_goals
    cases (ifLegal_eq_next.mp hx).2
    simp [State.errorFlush, State.noByte, State.huntHeader, State.huntSkip, State.acceptFrame,
      State.rejectFrame, State.deliver]

/-- A cycle from a legal context, said once. -/
theorem clockEdge_effect (c : Ciw) {s : State} (hl : s.ctx.legal) :
    let a := s.ctx.accepts (ciwRst c) (ciwErr c) (ciwVld c) (gapExceeded s) (ciwByte c)
    ∃ t, clockEdge c s = .next t ∧
      t.ctx = s.ctx.next (ciwRst c) (ciwErr c) (ciwVld c) (gapExceeded s) (ciwByte c) ∧
      t.frameReadyQ = a ∧
      t.obs.delivered =
        (if a then s.obs.delivered ++ [{ index := s.obs.index, payload := t.ctx.buf }]
          else s.obs.delivered) ∧
      t.gapCnt = nextGapCount s.cfg.gapCntWidth (ciwRst c) (ciwErr c) (ciwVld c) (ciwTck c) s.gapCnt ∧ t.cfg = s.cfg ∧
      t.inputs = s.inputs ∧ t.tx = s.tx ∧ t.obs.index = s.obs.index + 1 := by
  obtain ⟨i, hs⟩ := exists_selects c hl
  obtain ⟨u, hx⟩ := exec_of_selects hs hl
  obtain ⟨h1, h2, h3⟩ := hs.exec_effect hx
  obtain ⟨a1, a2, a3, a4, a5, a6, _⟩ := hs.exec_frame hx
  refine ⟨_, clockEdge_of_selects hs hx, by simpa, by simpa, by simpa, ?_, by simpa, by simpa, by simpa,
    by simpa⟩
  rw [besideStep_gapCnt, a6, a1]; cases ciwRst c <;> simp [nextGapCount]

theorem Context.legal_next {r e v g : Bool} {b : Byte} {x : Context} (h : x.legal) :
    (x.next r e v g b).legal := by
  unfold Context.next
  split_ifs with h1 h2 h3
  · exact .inl ⟨rfl, rfl⟩
  · exact h
  · exact .inr ⟨rfl, by simp, by simp⟩
  · exact .inl ⟨rfl, rfl⟩
  · simp only [Bool.or_eq_true, decide_eq_true_eq, not_or] at h3
    obtain ⟨h, _⟩ | ⟨h, h5, h6⟩ := h
    · exact absurd h h3.2
    · have hn : (x.nbytes + 1#5).toNat = x.nbytes.toNat + 1 := by simp [BitVec.toNat_add]; omega
      exact .inr ⟨rfl, by rw [Context.append_nbytes, hn]; omega, by rw [Context.append_nbytes, hn]; omega⟩

/-! ## Equal readings -/

theorem frameAvail_congr {s t : State} (h : s.ctx = t.ctx) : frameAvail s = frameAvail t := by
  simp [frameAvail, h]

theorem heldPayload_congr {s t : State} (h : s.ctx = t.ctx) : heldPayload s = heldPayload t := by
  simp [heldPayload, frameAvail, h]

/-! ## Byte streams from a legal context -/

/-- No gap flush would change what the next byte does. -/
def State.quiet (s : State) : Prop := gapExceeded s = false ∨ s.ctx.state = .idle

/-- The context after a byte with no gap. -/
def Context.byte (x : Context) (b : Byte) : Context := x.next false false true false b

/-- The context after a stream of bytes with no gap. -/
def Context.bytes (x : Context) (bs : List Byte) : Context := bs.foldl Context.byte x

theorem gapExceeded_of_zero {s : State} (h : s.gapCnt = 0) : gapExceeded s = false := by
  simp [gapExceeded, h]

/-- One byte from a legal context. -/
theorem clockEdge_byte (b : Byte) {s : State} (hl : s.ctx.legal) (hq : s.quiet) :
    let a := s.ctx.accepts false false true false b
    ∃ t, clockEdge (byteCiw b) s = .next t ∧ t.ctx = s.ctx.byte b ∧ t.frameReadyQ = a ∧
      t.obs.delivered =
        (if a then s.obs.delivered ++ [{ index := s.obs.index, payload := t.ctx.buf }]
          else s.obs.delivered) ∧
      t.obs.index = s.obs.index + 1 ∧ t.tx = s.tx ∧ t.inputs = s.inputs ∧ t.ctx.legal ∧ t.quiet := by
  obtain ⟨t, h1, h2, h3, h4, h5, h6, h7, h8, h9⟩ := clockEdge_effect (byteCiw b) hl
  simp only [ciwRst_byteCiw, ciwErr_byteCiw, ciwVld_byteCiw, ciwByte_byteCiw] at h2 h3 h4 h5
  have e1 : s.ctx.next false false true (gapExceeded s) b = s.ctx.byte b := by
    rcases hq with h | h
    · rw [h]; rfl
    · simp [Context.byte, Context.next, h]
  have e2 : s.ctx.accepts false false true (gapExceeded s) b = s.ctx.accepts false false true false b := by
    rcases hq with h | h
    · rw [h]
    · simp [Context.accepts, h]
  rw [e1] at h2
  rw [e2] at h3 h4
  refine ⟨t, h1, h2, h3, h4, h9, h8, h7, ?_, .inl (gapExceeded_of_zero ?_)⟩
  · rw [h2]; exact Context.legal_next hl
  · rw [h5]; rfl

/-- A stream of bytes from a legal context always completes. -/
theorem byteRun_next (bs : List Byte) {s : State} (hl : s.ctx.legal) (hq : s.quiet) :
    ∃ t, byteRun bs s = .next t ∧ t.ctx = s.ctx.bytes bs ∧ t.obs.index = s.obs.index + bs.length ∧
      t.tx = s.tx ∧ t.inputs = s.inputs ∧ t.ctx.legal ∧ t.quiet := by
  induction bs generalizing s with
  | nil => exact ⟨s, rfl, rfl, rfl, rfl, rfl, hl, hq⟩
  | cons b bs ih =>
    obtain ⟨u, h1, h2, h3, h4, h5, h6, h7, h8, h9⟩ := clockEdge_byte b hl hq
    obtain ⟨t, k1, k2, k3, k4, k5, k6, k7⟩ := ih h8 h9
    refine ⟨t, by rw [byteRun, h1]; exact k1, ?_, ?_, k4.trans h6, k5.trans h7, k6, k7⟩
    · rw [k2, h2]; rfl
    · rw [k3, h5, List.length_cons]; omega

theorem stepMany_feed_take (j : Nat) (bs : List Byte) (hj : j ≤ bs.length) (s : State) :
    stepMany j (s.feed bs) =
      andThen (byteRun (bs.take j) s) fun t => .next (t.feed (bs.drop j)) := by
  have := stepMany_feed (bs.take j) (bs.drop j) s
  rwa [List.take_append_drop, List.length_take, Nat.min_eq_left hj] at this

end Sys2Proof.Machine
end

