-- ==== Sys2Proof/Laws/Batch.lean ====
section
/-! SUPPORT. `INGEST` and the loop of `INGEST_BATCH`: what they leave unchanged, what they deliver, and that
they do not read the units beside the synchronizer. -/

namespace Sys2Proof.Machine

theorem hunt_frame (pre : List Op) (b : Byte) (s : State) : sameOutsideSync s (State.hunt pre b s) := by
  unfold State.hunt
  split <;> exact ⟨rfl, rfl, rfl, rfl, rfl, rfl, rfl, rfl, rfl, rfl, rfl⟩

theorem hunt_flush_frame (pre : List Op) (b : Byte) (s : State) :
    sameOutsideSync s (State.hunt pre b (s.setCtx s.ctx.flush)) := by
  unfold State.hunt
  split <;> exact ⟨rfl, rfl, rfl, rfl, rfl, rfl, rfl, rfl, rfl, rfl, rfl⟩

/-- `INGEST` without `rst` writes the context, the step outputs and the record alone. -/
theorem execIngest_frame {e v g : Bool} {b : Byte} {s t : State}
    (h : execIngest false e v g b s = .next t) : sameOutsideSync s t := by
  replace h := (ifLegal_eq_next.mp h).2
  cases e
  case true => cases h; exact ⟨rfl, rfl, rfl, rfl, rfl, rfl, rfl, rfl, rfl, rfl, rfl⟩
  cases v
  case false => cases h; exact ⟨rfl, rfl, rfl, rfl, rfl, rfl, rfl, rfl, rfl, rfl, rfl⟩
  cases g
  case true => cases h; exact hunt_flush_frame _ _ _
  replace h : (if 25 ≤ s.ctx.nbytes.toNat then _ else s.byteRules s.ctx.state s.ctx.nbytes b) = _ := h
  split at h
  · cases h; exact hunt_flush_frame _ _ _
  · unfold State.byteRules State.captureByte at h
    split at h
    · cases h; exact hunt_frame _ _ _
    · split_ifs at h <;> cases h <;> exact ⟨rfl, rfl, rfl, rfl, rfl, rfl, rfl, rfl, rfl, rfl, rfl⟩

/-- A byte that `INGEST` takes is ready exactly when it delivers the captured payload. -/
theorem execIngest_delivered {g : Bool} {b : Byte} {s t : State}
    (h : execIngest false false true g b s = .next t) :
    (t.frameReadyQ = true ∧
        t.obs.delivered = s.obs.delivered ++ [{ index := s.obs.index, payload := t.ctx.buf }]) ∨
      (t.frameReadyQ = false ∧ t.obs.delivered = s.obs.delivered) := by
  replace h := (ifLegal_eq_next.mp h).2
  cases g
  case true => cases h; exact .inr (hunt_effect _ _ _).2
  replace h : (if 25 ≤ s.ctx.nbytes.toNat then _ else s.byteRules s.ctx.state s.ctx.nbytes b) = _ := h
  split at h
  · cases h; exact .inr (hunt_effect _ _ _).2
  · unfold State.byteRules State.captureByte at h
    split at h
    · cases h; exact .inr (hunt_effect _ _ _).2
    · split_ifs at h <;> cases h
      · exact .inr ⟨rfl, rfl⟩
      · exact .inl ⟨rfl, rfl⟩
      · exact .inr ⟨rfl, rfl⟩

/-- A clock edge that takes a byte, from `INGEST`: the delivery clears the gap counter, and the stage takes
the payload where the step accepted one. -/
theorem clockEdge_byteCiw (b : Byte) (s : State) :
    clockEdge (byteCiw b) s =
      andThen (execIngest false false true (gapExceeded s) b s) fun t =>
        .next (((t.setGap 0).dedupEdge false
          (if t.frameReadyQ then .footerOk else .huntHdr)).countInput) := by
  unfold clockEdge
  have hk : stepKey (byteCiw b) s =
      mkKey false false false true (gapExceeded s) s.ctx.state s.ctx.nbytes b := by simp [stepKey]
  rw [hk]
  cases hd : decodeKey (mkKey false false false true (gapExceeded s) s.ctx.state s.ctx.nbytes b) with
  | error e => rw [execIngest_of_error hd]; rfl
  | ok i =>
    rw [execIngest_of_decode hd]
    show andThen (exec i s) _ = _
    cases hx : exec i s with
    | fault r => rfl
    | refused r => rfl
    | next t =>
      simp only [andThen_next]
      congr 1
      have hs : Selects (byteCiw b) s i := by rw [← decodeKey_stepKey_iff, hk]; exact hd
      have hg : nextGapCount t.cfg.gapCntWidth (ciwRst (byteCiw b)) (ciwErr (byteCiw b)) (ciwVld (byteCiw b))
          (ciwTck (byteCiw b)) t.gapCnt = 0 := by
        simp [nextGapCount, isDelivery]
      have hr := (hs.exec_pulses hx).1
      rw [State.besideStep, hg, ciwRst_byteCiw]
      congr 1
      unfold State.dedupEdge
      by_cases hi : i = .footerOk
      · simp [hi, hr.mpr hi]
      · have : t.frameReadyQ = false := by simpa [hi] using hr
        simp [hi, this]

/-- The deliveries of a batch come after the earlier ones. -/
theorem ingestBytes_delivered (bs : List Byte) {g : Bool} {s t : State}
    (h : ingestBytes g bs s = .next t) : ∃ new, t.obs.delivered = s.obs.delivered ++ new := by
  induction bs generalizing g s with
  | nil => cases h; exact ⟨[], by simp⟩
  | cons b bs ih =>
    rw [ingestBytes, andThen_eq_next] at h
    obtain ⟨u, hu, h⟩ := h
    obtain ⟨new, hn⟩ := ih h
    obtain ⟨_, h2⟩ | ⟨_, h2⟩ := execIngest_delivered hu
    · exact ⟨{ index := s.obs.index, payload := u.ctx.buf } :: new, by rw [hn]; simp [h2]⟩
    · exact ⟨new, by rw [hn]; simp [h2]⟩

/-- The state with the units beside the synchronizer at other values. -/
def State.withBeside (g : Nat) (m : Memory) (h n : Bool) (l : List Delivery) (s : State) : State :=
  { s with gapCnt := g, ddLast := m, ddHave := h, ddNotifyQ := n, obs := { s.obs with notified := l } }

theorem execIngest_withBeside {gx : Bool} {b : Byte} (g : Nat) (m : Memory) (h n : Bool)
    (l : List Delivery) (s : State) :
    execIngest false false true gx b (s.withBeside g m h n l) =
      andThen (execIngest false false true gx b s) fun t => .next (t.withBeside g m h n l) := by
  have hhunt : ∀ (pre : List Op) (b : Byte) (s : State),
      State.hunt pre b (s.withBeside g m h n l) = (State.hunt pre b s).withBeside g m h n l := by
    intro pre b s; unfold State.hunt; split <;> rfl
  have hlegal : ∀ o o' : Host.Outcome State Fault Refusal,
      o' = (andThen o fun t => .next (t.withBeside g m h n l)) →
      State.ifLegal (s.withBeside g m h n l) o' =
        andThen (s.ifLegal o) fun t => .next (t.withBeside g m h n l) := by
    rintro o _ rfl
    by_cases hl : s.ctx.legal
    · rw [ifLegal_of_legal hl, ifLegal_of_legal (s := s.withBeside g m h n l) hl]
    · rw [ifLegal_of_illegal hl, ifLegal_of_illegal (s := s.withBeside g m h n l) hl]; rfl
  refine hlegal _ _ ?_
  cases gx
  case true => exact congrArg Host.Outcome.next (hhunt _ b (s.setCtx s.ctx.flush))
  show (if 25 ≤ s.ctx.nbytes.toNat then _ else _) = andThen (if 25 ≤ s.ctx.nbytes.toNat then _ else _) _
  split_ifs
  · exact congrArg Host.Outcome.next (hhunt _ b (s.setCtx s.ctx.flush))
  · show State.byteRules s.ctx.state s.ctx.nbytes b (s.withBeside g m h n l) =
      andThen (State.byteRules s.ctx.state s.ctx.nbytes b s) _
    cases s.ctx.state <;> simp only [State.byteRules]
    · exact congrArg Host.Outcome.next (hhunt _ b s)
    · split_ifs
      · unfold State.captureByte; split_ifs <;> rfl
      all_goals rfl

/-- A batch does not read the units beside the synchronizer. -/
theorem ingestBytes_withBeside (g : Nat) (m : Memory) (h n : Bool) (l : List Delivery) (gx : Bool)
    (bs : List Byte) (s : State) :
    ingestBytes gx bs (s.withBeside g m h n l) =
      andThen (ingestBytes gx bs s) fun t => .next (t.withBeside g m h n l) := by
  induction bs generalizing gx s with
  | nil => rfl
  | cons b bs ih =>
    rw [ingestBytes, ingestBytes, execIngest_withBeside, andThen_assoc, andThen_assoc]
    congr 1
    funext u
    exact ih false u.countInput

end Sys2Proof.Machine
end

