-- ==== Sys2Proof/Laws/Codec.lean ====
section
/-! SUPPORT. The data string bit by bit, and the bytes of `PACK` and the fields of `UNPACK` in its terms. -/

namespace Sys2Proof.Machine

/-! ## The data string -/

/-- Field `i` of laid-out fields stands at bit `w*i`. -/
theorem getLsbD_layFields {w : Nat} (xs : List (BitVec w)) {i k : Nat} (hi : i < xs.length) (hk : k < w)
    (hb : w * i + k < 176) : (layFields xs).getLsbD (w * i + k) = xs[i].getLsbD k := by
  induction xs generalizing i with
  | nil => simp at hi
  | cons x xs ih =>
    rw [layFields, BitVec.getLsbD_or, BitVec.getLsbD_shiftLeft]
    cases i with
    | zero => simp_all
    | succ i =>
      have h1 : w * (i + 1) + k = w + (w * i + k) := by ring
      rw [h1] at hb ⊢
      have := ih (i := i) (by simpa using hi) (by omega)
      simp_all [BitVec.getLsbD_of_ge]

theorem getLsbD_dataOfChannels (ch : Vector Chan 16) {i k : Nat} (hi : i < 16) (hk : k < 11) :
    (dataOfChannels ch).getLsbD (11 * i + k) = ch[i].getLsbD k := by
  rw [dataOfChannels, getLsbD_layFields _ (by simpa using hi) hk (by omega)]
  simp

theorem getLsbD_dataOfPayload (p : Payload) {j m : Nat} (h1 : 1 ≤ j) (hj : j ≤ 22) (hm : m < 8) :
    (dataOfPayload p).getLsbD (8 * (j - 1) + m) = p[j].getLsbD m := by
  obtain ⟨i, rfl⟩ : ∃ i, j = i + 1 := ⟨j - 1, by omega⟩
  rw [dataOfPayload, getLsbD_layFields _ (by simp [Config.dataFirst, Config.dataLast]; omega) hm (by omega)]
  simp [Config.dataFirst]

/-- `D[q]` is bit `q mod 8` of wire byte `1 + (q div 8)` (20_memory.md R54). -/
theorem getLsbD_dataOfPayload_eq_dataBit (p : Payload) {q : Nat} (hq : q < 176) :
    (dataOfPayload p).getLsbD q = dataBit p q := by
  have h := getLsbD_dataOfPayload p (j := 1 + q / 8) (m := q % 8) (by omega) (by omega) (by omega)
  rw [show 8 * (1 + q / 8 - 1) + q % 8 = q by omega] at h
  rw [h, dataBit, List.getD_eq_getElem?_getD, Vector.getElem?_toList, Vector.getElem?_eq_getElem (by omega)]
  rfl

theorem channelOfData_getLsbD (d : DataBits) (i : Nat) {k : Nat} (hk : k < 11) :
    (channelOfData d i).getLsbD k = d.getLsbD (11 * i + k) := by
  simp [channelOfData, hk]

theorem byteOfData_getLsbD (d : DataBits) (j : Nat) {m : Nat} (hm : m < 8) :
    (byteOfData d j).getLsbD m = d.getLsbD (8 * (j - 1) + m) := by
  simp [byteOfData, hm]

/-- The channels of a data string give it back: its 176 bits are exactly the channels' bits. -/
theorem dataOfChannels_channels (d : DataBits) :
    dataOfChannels (Vector.ofFn fun i : Fin 16 => channelOfData d i.val) = d := by
  refine BitVec.eq_of_getLsbD_eq fun q hq => ?_
  have h := getLsbD_dataOfChannels (Vector.ofFn fun i : Fin 16 => channelOfData d i.val)
    (i := q / 11) (k := q % 11) (by omega) (by omega)
  rw [Nat.div_add_mod] at h
  rw [h, Vector.getElem_ofFn, channelOfData_getLsbD _ _ (by omega), Nat.div_add_mod]

theorem channelOfData_dataOfChannels (ch : Vector Chan 16) {i : Nat} (hi : i < 16) :
    channelOfData (dataOfChannels ch) i = ch[i] := by
  refine BitVec.eq_of_getLsbD_eq fun k hk => ?_
  rw [channelOfData_getLsbD _ _ hk, getLsbD_dataOfChannels _ hi hk]

theorem byteOfData_dataOfPayload (p : Payload) {j : Nat} (h1 : 1 ≤ j) (hj : j ≤ 22) :
    byteOfData (dataOfPayload p) j = p[j] := by
  refine BitVec.eq_of_getLsbD_eq fun m hm => ?_
  rw [byteOfData_getLsbD _ _ hm, getLsbD_dataOfPayload p h1 hj hm]

/-! ## `PACK` -/

section
variable (f : FrameIn)

theorem pack_header : (pack f)[0] = Config.header := by simp [pack]

theorem pack_footer : (pack f)[24] = Config.footer := by
  simp [pack, Config.dataLast, Config.statusByte]

theorem pack_status : (pack f)[23] = statusByteOf f.switches f.frameLost f.failsafe := by
  simp [pack, Config.dataLast, Config.statusByte]

theorem pack_data {j : Nat} (h1 : 1 ≤ j) (hj : j ≤ 22) :
    (pack f)[j] = byteOfData (dataOfChannels (f.channels.map maskChannel)) j := by
  simp [pack, Config.dataLast, hj, show j ≠ 0 by omega]

/-- The data string of `PACK` is that of the masked channels. -/
theorem dataOfPayload_pack :
    dataOfPayload (pack f) = dataOfChannels (f.channels.map maskChannel) := by
  refine BitVec.eq_of_getLsbD_eq fun q hq => ?_
  have h := getLsbD_dataOfPayload (pack f) (j := 1 + q / 8) (m := q % 8) (by omega) (by omega) (by omega)
  rw [show 8 * (1 + q / 8 - 1) + q % 8 = q by omega] at h
  rw [h, pack_data f (by omega) (by omega), byteOfData_getLsbD _ _ (by omega),
    show 8 * (1 + q / 8 - 1) + q % 8 = q by omega]

theorem validPayload_pack : validPayload (pack f) := ⟨pack_header f, pack_footer f⟩

end

theorem maskChannel_getLsbD (c : Nat) {k : Nat} (hk : k < 11) :
    (maskChannel c).getLsbD k = c.testBit k := by
  have h : Config.chMask.testBit k = true := by interval_cases k <;> decide
  rw [maskChannel, BitVec.getLsbD_ofNat, Nat.testBit_and, h]
  simp [hk]

@[simp] theorem maskChannel_toNat (c : Chan) : maskChannel c.toNat = c := by
  refine BitVec.eq_of_getLsbD_eq fun k hk => ?_
  rw [maskChannel_getLsbD _ hk]
  rfl

/-- A bit of a channel on its port. -/
theorem testBit_portChannel (w : Nat) (c : Nat) (k : Nat) :
    (portChannel w c).testBit k = (decide (k < w) && c.testBit k) := by
  rw [portChannel, Nat.testBit_mod_two_pow]

theorem frameFits_portFrame (w : Nat) (f : FrameIn) : frameFits w (portFrame w f) := by
  intro i
  simpa [portFrame, portChannel] using Nat.mod_lt _ (Nat.two_pow_pos w)

/-- A frame of the block's width passes the ports as it is. -/
theorem portFrame_of_fits {w : Nat} {f : FrameIn} (h : frameFits w f) : portFrame w f = f := by
  have : f.channels.map (portChannel w) = f.channels := by
    refine Vector.ext fun i hi => ?_
    rw [Vector.getElem_map]
    exact Nat.mod_eq_of_lt (h ⟨i, hi⟩)
  rw [portFrame, this]

/-! ## The status byte -/

section
variable (sw : Vector Bool 2) (l fs : Bool)

theorem statusByteOf_getLsbD (i : Nat) :
    (statusByteOf sw l fs).getLsbD i =
      if i = 0 then sw[0] else if i = 1 then sw[1] else if i = 2 then l else if i = 3 then fs
      else false := by
  by_cases hi : i < 8
  · unfold statusByteOf
    change BitVec.getLsbD (w := 4 + 1 + 1 + 1 + 1) _ i = _
    simp only [BitVec.getLsbD_append]
    interval_cases i <;> simp
  · rw [BitVec.getLsbD_of_ge _ _ (by omega)]
    repeat rw [if_neg (by omega)]

theorem statusByteOf_reserved : statusByteOf sw l fs &&& 0xF0#8 = 0x00#8 := by
  refine BitVec.eq_of_getLsbD_eq fun i hi => ?_
  rw [BitVec.getLsbD_and, statusByteOf_getLsbD]
  interval_cases i <;> simp

end

/-- The low half of a status byte is what its flags give. -/
theorem statusByteOf_flags (b : Byte) :
    statusByteOf #v[b.getLsbD 0, b.getLsbD 1] (b.getLsbD 2) (b.getLsbD 3) = b &&& 0x0F#8 := by
  refine BitVec.eq_of_getLsbD_eq fun i hi => ?_
  rw [BitVec.getLsbD_and, statusByteOf_getLsbD]
  interval_cases i <;> simp

/-! ## `UNPACK` -/

theorem unpack_channel_getLsbD (p : Payload) (i : Fin 16) {k : Nat} (hk : k < 11) :
    (unpack p).channels[i].getLsbD k = dataBit p (11 * i.val + k) := by
  have h : (unpack p).channels[i] = channelOfData (dataOfPayload p) i.val := by
    simp [unpack]
  rw [h, channelOfData_getLsbD _ _ hk, getLsbD_dataOfPayload_eq_dataBit p (by omega)]

theorem unpack_channels_pack (f : FrameIn) :
    (unpack (pack f)).channels = f.channels.map maskChannel := by
  refine Vector.ext fun i hi => ?_
  simp only [unpack, dataOfPayload_pack, Vector.getElem_ofFn]
  rw [channelOfData_dataOfChannels _ hi]

/-- The data string depends on bytes 1..22 alone. -/
theorem dataOfPayload_congr {p q : Payload} (h : ∀ j : Fin 25, 1 ≤ j.val → j.val ≤ 22 → p[j] = q[j]) :
    dataOfPayload p = dataOfPayload q := by
  refine BitVec.eq_of_getLsbD_eq fun n hn => ?_
  have hp := getLsbD_dataOfPayload p (j := 1 + n / 8) (m := n % 8) (by omega) (by omega) (by omega)
  have hq := getLsbD_dataOfPayload q (j := 1 + n / 8) (m := n % 8) (by omega) (by omega) (by omega)
  rw [show 8 * (1 + n / 8 - 1) + n % 8 = n by omega] at hp hq
  rw [hp, hq]
  have := h ⟨1 + n / 8, by omega⟩ (by simp) (by simp; omega)
  exact congrArg (fun b : Byte => b.getLsbD (n % 8)) this

end Sys2Proof.Machine
end

