-- ==== Sys2Proof/Laws/PerInstr.lean ====
section
/-! SUPPORT. One family of statements over every operation: its encoding matches the mask and the match of its
row of spec/opcode_table.json, and an operation that no key selects has no encoding (30_encoding.md R82,
R83, R85). -/

namespace Sys2Proof

/-- The key pattern of an operation's row. -/
inductive Row where
  | key (mask pat : StepKey)
  | dispatch (mask pat : DispatchKey)
  | noKey
  deriving DecidableEq, Repr

/-- The mask and the match that the opcode table gives the operation's row. -/
def Instr.row (i : Instr) : Row :=
  match i with
  | .reset _ _ _ _ _ _ _ => .key 0x40000#19 0x40000#19
  | .errFlush _ _ _ _ _ _ => .key 0x60000#19 0x20000#19
  | .noByte _ _ _ _ _ => .key 0x68000#19 0x00000#19
  | .gapFlush _ _ _ _ => .key 0x6C000#19 0x0C000#19
  | .guard _ _ _ _ => .key 0x6C000#19 0x08000#19
  | .huntHdr => .dispatch 0x3FFF#14 0x000F#14
  | .huntSkip _ => .dispatch 0x3F00#14 0x0000#14
  | .capture _ _ => .dispatch 0x2000#14 0x2000#14
  | .footerOk => .dispatch 0x3FFF#14 0x3800#14
  | .footerBad _ => .dispatch 0x3F00#14 0x3800#14
  | .ingest _ _ _ _ _ => .noKey
  | .pack _ => .noKey
  | .unpack _ => .noKey
  | .gapTick _ _ _ _ => .noKey
  | .ingestBatch _ _ => .noKey
  | .dedup _ => .noKey

namespace Laws.EncodeMatchesRow

/-- A well-formed operation's encoding matches its row. -/
def Statement (i : Instr) : Prop :=
  i.wellFormed = true →
    match i.row with
    | .key mask pat => ∃ k, encode i = some (.key k) ∧ rowMatches mask pat k = true
    | .dispatch mask pat => ∃ e, encode i = some (.dispatch e) ∧ rowMatches mask pat e = true
    | .noKey => encode i = none

theorem reset (e t v g : Bool) (s : SyncState) (n : Count) (b : Byte) :
    Statement (.reset e t v g s n b) :=
  fun _ => ⟨_, rfl, by simp [row_reset]⟩

theorem errFlush (t v g : Bool) (s : SyncState) (n : Count) (b : Byte) :
    Statement (.errFlush t v g s n b) :=
  fun _ => ⟨_, rfl, by simp [row_errFlush]⟩

theorem noByte (t g : Bool) (s : SyncState) (n : Count) (b : Byte) : Statement (.noByte t g s n b) :=
  fun _ => ⟨_, rfl, by simp [row_noByte]⟩

theorem gapFlush (t : Bool) (s : SyncState) (n : Count) (b : Byte) : Statement (.gapFlush t s n b) :=
  fun _ => ⟨_, rfl, by simp [row_gapFlush]⟩

theorem guard (t : Bool) (s : SyncState) (n : Count) (b : Byte) : Statement (.guard t s n b) :=
  fun _ => ⟨_, rfl, by simp [row_guard]⟩

theorem huntHdr : Statement .huntHdr := fun _ => ⟨_, rfl, by decide⟩

theorem huntSkip (b : Byte) : Statement (.huntSkip b) :=
  fun _ => ⟨_, rfl, (rowMatches_high .idle .idle 0#5 0#5 b).trans (by decide)⟩

theorem capture (n : Count) (b : Byte) : Statement (.capture n b) :=
  fun _ => ⟨_, rfl, by simp [rowMatches_capturing]⟩

theorem footerOk : Statement .footerOk := fun _ => ⟨_, rfl, by decide⟩

theorem footerBad (b : Byte) : Statement (.footerBad b) :=
  fun _ => ⟨_, rfl, (rowMatches_high .capturing .capturing 24#5 24#5 b).trans (by decide)⟩

theorem ingest (r e v g : Bool) (b : Byte) : Statement (.ingest r e v g b) := fun _ => rfl

theorem pack (f : FrameIn) : Statement (.pack f) := fun _ => rfl

theorem unpack (p : Payload) : Statement (.unpack p) := fun _ => rfl

theorem gapTick (r e v t : Bool) : Statement (.gapTick r e v t) := fun _ => rfl

theorem ingestBatch (g : Bool) (bs : List Byte) : Statement (.ingestBatch g bs) := fun _ => rfl

theorem dedup (p : Payload) : Statement (.dedup p) := fun _ => rfl

end Laws.EncodeMatchesRow

end Sys2Proof
end

