-- ==== Sys2Proof/Tests/Slice0.lean ====
section
/-! SUPPORT. The model's own tests. Every expected value is taken from spec/: the vectors of
95_test_vectors.md and the examples of the rules, named in each test's comment. The second half gives, for
every statement with hypotheses, concrete states and operands that meet them. -/

namespace Sys2Proof.Tests

open Sys2Proof Sys2Proof.Machine

/-! ## Helpers -/

/-- The named frame `Z` (95_test_vectors.md): header, 24 bytes of zero. -/
def payloadZ : Payload := Vector.ofFn fun i : Fin 25 => if i.val = 0 then 0x0F#8 else 0x00#8

/-- The payload of the named frame `Q` (95_test_vectors.md). -/
def payloadQ : Payload := #v[
  0x0F#8, 0x00#8, 0x48#8, 0x84#8, 0x44#8, 0x36#8, 0x43#8, 0xA2#8, 0x56#8, 0xD9#8, 0xEC#8, 0x77#8, 0x48#8,
  0x8C#8, 0xA6#8, 0x56#8, 0xC7#8, 0xCB#8, 0xE6#8, 0x7A#8, 0xFB#8, 0xFD#8, 0x00#8, 0x09#8, 0x00#8]

/-- The named frame `Q` as an input of `PACK`. -/
def frameQ : FrameIn :=
  { channels := #v[0, 137, 274, 411, 548, 685, 822, 959, 1096, 1233, 1370, 1507, 1644, 1781, 1918, 7]
    switches := #v[true, false], frameLost := false, failsafe := true }

/-- A payload of one byte at index `k` and another everywhere else. -/
def payloadAt (k : Nat) (x y : Byte) : Payload := Vector.ofFn fun i : Fin 25 => if i.val = k then x else y

/-- The machine in the context `(st, n)`, with the bytes of `Z` in `buf[0..n-1]` and `0x77` above. -/
def at' (st : SyncState) (n : Nat) : State :=
  { State.reset with
    ctx := { state := st, nbytes := BitVec.ofNat 5 n
             buf := Vector.ofFn fun i : Fin 25 => if i.val < n then payloadZ[i] else 0x77#8 } }

/-- The machine in the cycle after it accepted `Z`. -/
def held : State :=
  { at' .capturing 25 with
    frameReadyQ := true, ddLast := payloadZ, ddHave := true, ddNotifyQ := true }

/-- A machine with its next inputs. -/
def fed (s : State) (l : List Input) : State := { s with inputs := l }

/-- A property of the next state; false where the outcome is a fault or a refusal. -/
def after (o : Host.Outcome State Fault Refusal) (p : State → Bool) : Bool :=
  match o with
  | .next s => p s
  | .fault _ => false
  | .refused _ => false

/-- Whether the context of a state is `(st, n)`. -/
def ctxIs (st : SyncState) (n : Nat) (s : State) : Bool :=
  decide (s.ctx.state = st) && decide (s.ctx.nbytes.toNat = n)

/-! ## Well-formedness: each condition refuses an ill-formed operation -/

theorem test_guard_below_25_is_ill_formed :
    (Instr.guard false .capturing 24#5 0x00#8).wellFormed = false := by decide
theorem test_hunt_skip_of_header_is_ill_formed : (Instr.huntSkip 0x0F#8).wellFormed = false := by decide
theorem test_capture_at_0_is_ill_formed : (Instr.capture 0#5 0x11#8).wellFormed = false := by decide
theorem test_capture_at_24_is_ill_formed : (Instr.capture 24#5 0x11#8).wellFormed = false := by decide
theorem test_footer_bad_of_footer_is_ill_formed : (Instr.footerBad 0x00#8).wellFormed = false := by decide

/-! ## Decoding: keys written out bit by bit from 30_encoding.md R81 to R83

Order of the bits: RST ERR TCK VLD GX S NNNNN BBBBBBBB, and S' N'N'N'N'N' BBBBBBBB. -/

-- vector T1
theorem test_decode_reset : decodeKey 0b1111110000100001111#19 =
    .ok (.reset true true true true .capturing 1#5 0x0F#8) := by decide
-- vector T2
theorem test_decode_err_flush : decodeKey 0b0101010110000001111#19 =
    .ok (.errFlush false true false .capturing 12#5 0x0F#8) := by decide
-- vector T3
theorem test_decode_no_byte : decodeKey 0b0010010110000000000#19 =
    .ok (.noByte true false .capturing 12#5 0x00#8) := by decide
-- vector T6
theorem test_decode_gap_flush : decodeKey 0b0001110110001010101#19 =
    .ok (.gapFlush false .capturing 12#5 0x55#8) := by decide
-- vector T7
theorem test_decode_guard : decodeKey 0b0001011100100001111#19 =
    .ok (.guard false .capturing 25#5 0x0F#8) := by decide
-- vector T9, its key and its dispatch key
theorem test_decode_hunt_hdr : decodeKey 0b0001000000000001111#19 = .ok .huntHdr ∧
    decodeDispatch 0b00000000001111#14 = .ok .huntHdr := by decide
-- vector T10
theorem test_decode_hunt_skip : decodeKey 0b0001000000000000000#19 = .ok (.huntSkip 0x00#8) ∧
    decodeDispatch 0b00000000000000#14 = .ok (.huntSkip 0x00#8) := by decide
-- vector T17 (the tick bit set) and T13
theorem test_decode_capture : decodeKey 0b0011010010100110011#19 = .ok (.capture 5#5 0x33#8) ∧
    decodeDispatch 0b11011100000000#14 = .ok (.capture 23#5 0x00#8) := by decide
-- vector T14
theorem test_decode_footer_ok : decodeKey 0b0001011100000000000#19 = .ok .footerOk ∧
    decodeDispatch 0b11100000000000#14 = .ok .footerOk := by decide
-- vector T16
theorem test_decode_footer_bad : decodeKey 0b0001011100010000000#19 = .ok (.footerBad 0x80#8) ∧
    decodeDispatch 0b11100010000000#14 = .ok (.footerBad 0x80#8) := by decide
-- vector T18
theorem test_decode_unmatched : decodeKey 0b0001000001100001111#19 =
    .error (.unmatchedKey 0b00001100001111#14) := by decide
-- 30_encoding.md R82 rows 5 and 6: the guard needs N >= 25
theorem test_decode_guard_boundary :
    decodeKey (mkKey false false false true false .capturing 24#5 0x0F#8) = .ok (.footerBad 0x0F#8) := by
  decide

-- the words of the opcode table, at their sizes (vectors T12 and T7)
theorem test_decode_table_words :
    decodeTableWord 16 0x210F = some (.capture 1#5 0x0F#8) ∧
      decodeTableWord 24 0x0B90F = some (.guard false .capturing 25#5 0x0F#8) ∧
      decodeTableWord 16 0x4000 = none := by decide

-- vectors T12 and T8
theorem test_encode : encode (.capture 1#5 0x0F#8) = some (.dispatch 0x210F#14) ∧
    encode (.guard false .capturing 25#5 0x00#8) = some (.key 0x0B900#19) := by decide

/-! ## One step of each operation -/

-- 70_reset_and_hazards.md R231, example
theorem test_reset_of_held_frame :
    after (step (fed held [.cycle 0x800#12])) (fun s =>
      ctxIs .idle 0 s && !s.ddHave && decide (s.gapCnt = 0) && !frameAvail s && !s.ddNotifyQ) = true := by
  decide

-- 41_sync.md R132, example
theorem test_err_flush : after (step (fed (at' .capturing 12) [.cycle 0x400#12]))
    (fun s => ctxIs .idle 0 s && !s.frameReadyQ) = true := by decide
-- vector S10, first step: the byte of an error cycle is dropped
theorem test_err_flush_drops_the_byte : after (step (fed (at' .idle 0) [.cycle 0x50F#12]))
    (ctxIs .idle 0) = true := by decide

-- 41_sync.md R135, example
theorem test_no_byte_keeps_held_frame : after (step (fed held [.cycle 0x000#12]))
    (fun s => ctxIs .capturing 25 s && frameAvail s && !s.frameReadyQ && !s.ddNotifyQ) = true := by decide

-- 41_sync.md R133, example, with gap_cnt at 4
theorem test_gap_flush_then_header :
    after (step { at' .capturing 7 with gapCnt := 4, inputs := [.cycle 0x10F#12] }) (fun s =>
      ctxIs .capturing 1 s && decide (Memory.read s.ctx.buf 0 = 0x0F#8)
        && decide (s.obs.ops = [.gapFlush, .huntHdr])) = true := by decide
-- vector T6
theorem test_gap_flush_then_skip :
    after (step { at' .capturing 12 with gapCnt := 4, inputs := [.cycle 0x155#12] })
      (ctxIs .idle 0) = true := by decide

-- 41_sync.md R134, example
theorem test_guard_then_header : after (step (fed held [.cycle 0x10F#12])) (fun s =>
    ctxIs .capturing 1 s && !frameAvail s && decide (s.obs.ops = [.guard, .huntHdr])) = true := by decide
-- vector T8
theorem test_guard_then_skip : after (step (fed held [.cycle 0x100#12])) (ctxIs .idle 0) = true := by decide

-- vector T9
theorem test_hunt_hdr : after (step (fed (at' .idle 0) [.cycle 0x10F#12])) (fun s =>
    ctxIs .capturing 1 s && decide (Memory.read s.ctx.buf 0 = 0x0F#8)) = true := by decide

-- vector T11
theorem test_hunt_skip : after (step (fed (at' .idle 0) [.cycle 0x1FF#12])) (fun s =>
    ctxIs .idle 0 s && decide (eventCodes s = [1])) = true := by decide

-- vector T12
theorem test_capture_header_value : after (step (fed (at' .capturing 1) [.cycle 0x10F#12])) (fun s =>
    ctxIs .capturing 2 s && decide (Memory.read s.ctx.buf 1 = 0x0F#8)) = true := by decide
-- vector T13
theorem test_capture_footer_value : after (step (fed (at' .capturing 23) [.cycle 0x100#12])) (fun s =>
    ctxIs .capturing 24 s && !s.frameReadyQ) = true := by decide

-- vector T14
theorem test_footer_ok : after (step (fed (at' .capturing 24) [.cycle 0x100#12])) (fun s =>
    ctxIs .capturing 25 s && s.frameReadyQ && frameAvail s && s.ddNotifyQ
      && decide (heldPayload s = some payloadZ)) = true := by decide +kernel

-- vector T15
theorem test_footer_bad : after (step (fed (at' .capturing 24) [.cycle 0x10F#12])) (fun s =>
    ctxIs .capturing 25 s && !s.frameReadyQ && !s.frameRejectedQ && !frameAvail s
      && decide (eventCodes s = [2])) = true := by decide
-- vector S3 with EXPOSE_REJECT
theorem test_footer_bad_exposed :
    after (step { at' .capturing 24 with
        cfg := { Config.defaultParams with exposeReject := true }, inputs := [.cycle 0x101#12] })
      (fun s => s.frameRejectedQ && !s.frameReadyQ && !frameAvail s) = true := by decide

-- vector T17 (41_sync.md R131)
theorem test_ingest_capture : after (exec (.ingest false false true false 0x33#8) (at' .capturing 5))
    (ctxIs .capturing 6) = true := by decide
-- vector T18
theorem test_ingest_outside_the_invariant :
    (match exec (.ingest false false true false 0x0F#8) (at' .idle 3) with
      | .fault .invariantViolation => true
      | _ => false) = true := by decide

-- 10_state.md R21: a context outside the invariant has no successor, with no byte either
theorem test_no_byte_outside_the_invariant :
    (match step (fed (at' .idle 25) [.cycle 0x000#12]) with
      | .fault .invariantViolation => true
      | _ => false) = true := by decide

-- named frame Q
theorem test_pack_q : pack frameQ = payloadQ := by decide +kernel
-- vector C10: masking of 0x1234
theorem test_pack_masks :
    let p := pack { zeroFrameIn with channels := zeroFrameIn.channels.set 0 0x1234 }
    p[1] = 0x34#8 ∧ p[2] = 0x02#8 := by decide +kernel

-- 40_codec.md R110, example (vector C12)
theorem test_unpack_example :
    let f := unpack ((((payloadAt 2 0x08#8 0x00#8).set 0 0x0F#8).set 23 0x0F#8))
    f.channels = (Vector.replicate 16 0#11).set 1 1#11 ∧ f.switches = #v[true, true] ∧
      f.frameLost = true ∧ f.failsafe = true := by decide +kernel
-- vector C13
theorem test_unpack_ignores :
    unpack ((payloadAt 23 0xF5#8 0x00#8).set 24 0xFF#8) =
      { zeroFrame with switches := #v[true, false], frameLost := true } := by decide +kernel

-- vector G3
theorem test_gap_tick_saturates : after (exec (.gapTick false false false true) { State.reset with gapCnt := 255 })
    (fun s => decide (s.gapCnt = 255)) = true := by decide
-- vector G7
theorem test_gap_tick_in_error : after (exec (.gapTick false true false true) { State.reset with gapCnt := 7 })
    (fun s => decide (s.gapCnt = 8)) = true := by decide

-- vector B5
theorem test_batch_checks_the_gap_once :
    after (exec (.ingestBatch true [0x0F#8, 0x0F#8]) (at' .idle 0)) (ctxIs .capturing 2) = true := by decide
-- vector B2
theorem test_empty_batch : after (exec (.ingestBatch true []) (at' .capturing 12)) (ctxIs .capturing 12) = true := by
  decide

-- vector D1, first frame
theorem test_dedup_first : after (exec (.dedup payloadZ) (at' .capturing 25))
    (fun s => s.ddNotifyQ && s.ddHave) = true := by decide +kernel
-- vector S11, second frame
theorem test_dedup_equal : after (exec (.dedup payloadZ) held) (fun s => !s.ddNotifyQ && s.ddHave) = true := by
  decide +kernel

/-! ## Ports and placing an instruction -/

-- 10_state.md R40, 60_exceptions.md R204
theorem test_undefined_read : (match readPort .rxPayload State.reset with
    | .fault .undefinedOutputRead => true
    | _ => false) = true := by decide
theorem test_read_sync_nbytes : (match readPort .syncNbytes held with
    | .next (.count n) => decide (n = 25#5)
    | _ => false) = true := by decide

theorem test_fetch_dispatch_word : after (step (State.reset.withFetchWord 16 0x210F)) (fun s =>
    ctxIs .capturing 2 s && decide (Memory.read s.ctx.buf 1 = 0x0F#8)) = true := by decide
theorem test_fetch_key_word : after (step (State.reset.withFetchWord 24 0x0EC55)) (fun s =>
    decide (s.obs.ops = [.gapFlush, .huntSkip])) = true := by decide

/-! ## Witnesses: states and operands that meet the hypotheses of the statements -/

/-- The state in the cycle after an accepted frame meets the invariant. -/
theorem held_inv : held.Inv where
  params := by decide
  gapFits := by decide
  txFits := by decide
  legal := by decide
  meaningful := fun _ => by decide
  readyHeld := fun _ => by decide
  rejectedFull := fun h => absurd h (by decide)
  ddLastPayload := fun _ => by decide
  notifyReady := fun _ => rfl
  heldIsLast := fun _ _ => ⟨rfl, by decide +kernel⟩
  dedupAbsent := fun h => absurd h (by decide)

theorem held_avail : frameAvail held = true := by decide

/-- The invariant speaks of the registers alone. -/
theorem inv_of_inputs {s : State} (h : s.Inv) (l : List Input) : (fed s l).Inv :=
  ⟨h.params, h.gapFits, h.txFits, h.legal, h.meaningful, h.readyHeld, h.rejectedFull, h.ddLastPayload,
    h.notifyReady, h.heldIsLast, h.dedupAbsent⟩

theorem reset_inv : State.reset.Inv where
  params := by decide
  gapFits := by decide
  txFits := by decide
  legal := by decide
  meaningful := fun h => absurd h (by decide)
  readyHeld := fun h => absurd h (by decide)
  rejectedFull := fun h => absurd h (by decide)
  ddLastPayload := fun h => absurd h (by decide)
  notifyReady := fun h => absurd h (by decide)
  heldIsLast := fun _ h => absurd h (by decide)
  dedupAbsent := fun h => absurd h (by decide)

/-- A capture that waits for its 25th byte meets the invariant. -/
theorem capturing_inv : (at' .capturing 24).Inv where
  params := by decide
  gapFits := by decide
  txFits := by decide
  legal := by decide
  meaningful := fun _ => by decide
  readyHeld := fun h => absurd h (by decide)
  rejectedFull := fun h => absurd h (by decide)
  ddLastPayload := fun h => absurd h (by decide)
  notifyReady := fun h => absurd h (by decide)
  heldIsLast := fun _ h => absurd h (by decide)
  dedupAbsent := fun h => absurd h (by decide)

/-- A machine without `DEDUP` and with `frame_rejected`. -/
def bare (s : State) : State :=
  { s with cfg := { Config.defaultParams with hasDedup := false, exposeReject := true }
           ddHave := false, ddNotifyQ := false }

theorem witness_DecodeOfEncode :
    (Instr.capture 23#5 0xFF#8).wellFormed = true ∧
      encode (.capture 23#5 0xFF#8) = some (.dispatch 0x37FF#14) ∧
      (Instr.guard true .idle 31#5 0xFF#8).wellFormed = true ∧
      encode (.guard true .idle 31#5 0xFF#8) = some (.key 0x19FFF#19) := by decide

theorem witness_EncodeOfDecode :
    decodeDispatch 0x3701#14 = .ok (.capture 23#5 0x01#8) ∧
      decodeKey 0x0B900#19 = .ok (.guard false .capturing 25#5 0x00#8) ∧
      decodeKey 0x0A10F#19 = .ok (.capture 1#5 0x0F#8) := by decide

theorem witness_PreStepDecodeFollowsPriority :
    25 ≤ (25#5 : Count).toNat ∧ 25 ≤ (31#5 : Count).toNat ∧ (24#5 : Count).toNat ≤ 24 ∧
      (0#5 : Count).toNat ≤ 24 := by decide

/-- Every clause of the dispatch decode at the ends of its range. -/
theorem witness_DispatchDecodeFollowsRows :
    decodeDispatch (mkDispatch .idle 0#5 0x0F#8) = .ok .huntHdr ∧
      decodeDispatch (mkDispatch .idle 0#5 0x0E#8) = .ok (.huntSkip 0x0E#8) ∧
      decodeDispatch (mkDispatch .capturing 1#5 0x0F#8) = .ok (.capture 1#5 0x0F#8) ∧
      decodeDispatch (mkDispatch .capturing 23#5 0x00#8) = .ok (.capture 23#5 0x00#8) ∧
      decodeDispatch (mkDispatch .capturing 24#5 0x00#8) = .ok .footerOk ∧
      decodeDispatch (mkDispatch .capturing 24#5 0x01#8) = .ok (.footerBad 0x01#8) ∧
      decodeDispatch (mkDispatch .idle 1#5 0x0F#8) = .error (.unmatchedKey (mkDispatch .idle 1#5 0x0F#8)) ∧
      decodeDispatch (mkDispatch .capturing 0#5 0x0F#8) =
        .error (.unmatchedKey (mkDispatch .capturing 0#5 0x0F#8)) ∧
      decodeDispatch (mkDispatch .capturing 25#5 0x0F#8) =
        .error (.unmatchedKey (mkDispatch .capturing 25#5 0x0F#8)) := by decide

/-- A cycle for each of the ten operations: hypotheses of the statements about a decoded cycle. -/
theorem witness_every_operation_is_selected :
    decodeKey (stepKey 0x800#12 held) = .ok (.reset false false false false .capturing 25#5 0x00#8) ∧
      decodeKey (stepKey 0x400#12 held) = .ok (.errFlush false false false .capturing 25#5 0x00#8) ∧
      decodeKey (stepKey 0x200#12 held) = .ok (.noByte true false .capturing 25#5 0x00#8) ∧
      decodeKey (stepKey 0x10F#12 { held with gapCnt := 4 }) =
        .ok (.gapFlush false .capturing 25#5 0x0F#8) ∧
      decodeKey (stepKey 0x10F#12 { held with gapCnt := 3 }) =
        .ok (.guard false .capturing 25#5 0x0F#8) ∧
      decodeKey (stepKey 0x10F#12 (at' .idle 0)) = .ok .huntHdr ∧
      decodeKey (stepKey 0x100#12 (at' .idle 0)) = .ok (.huntSkip 0x00#8) ∧
      decodeKey (stepKey 0x100#12 (at' .capturing 23)) = .ok (.capture 23#5 0x00#8) ∧
      decodeKey (stepKey 0x100#12 (at' .capturing 24)) = .ok .footerOk ∧
      decodeKey (stepKey 0x155#12 (at' .capturing 24)) = .ok (.footerBad 0x55#8) := by decide

theorem witness_StepRunsTheDecodedOperation :
    nextInput (fed (at' .capturing 24) [.cycle 0x100#12]) = .cycle 0x100#12 ∧
      decodeKey (stepKey 0x100#12 (fed (at' .capturing 24) [.cycle 0x100#12])) = .ok .footerOk := by decide

theorem witness_IllegalContextFaults :
    decodeKey (stepKey 0x10F#12 (at' .idle 24)) = .error (.unmatchedKey (mkDispatch .idle 24#5 0x0F#8)) ∧
      ¬ (at' .idle 25).ctx.legal ∧ ¬ (at' .idle 1).ctx.legal ∧ ¬ (at' .capturing 0).ctx.legal ∧
      ¬ (at' .capturing 26).ctx.legal ∧
      nextInput (fed (at' .idle 25) [.cycle 0x10F#12]) = .cycle 0x10F#12 ∧ ciwRst 0x10F#12 = false ∧
      nextInput (fed (at' .idle 25) [.batch [0x0F#8]]) = .batch [0x0F#8] := by decide

theorem witness_IngestIsTheDecodedStep :
    (at' .capturing 24).ctx.legal ∧ (at' .idle 0).ctx.legal ∧
      decodeKey (mkKey false false false true false .capturing 24#5 0x00#8) = .ok .footerOk ∧
      decodeKey (mkKey false false false true false .idle 3#5 0x0F#8) = .error (.unmatchedKey 0x030F#14) := by
  decide

/-- The accepting edge, a reset edge and another edge, with the stage; and an edge without it. -/
theorem witness_ClockEdgeWritesEveryRegister :
    (∃ t, exec .footerOk (at' .capturing 24) = .next t ∧ t.ctx.buf = payloadZ) ∧
    decodeKey (stepKey 0x100#12 (at' .capturing 24)) = .ok .footerOk ∧
    (at' .capturing 24).cfg.hasDedup = true ∧ (bare (at' .capturing 24)).cfg.hasDedup = false ∧
    decodeKey (stepKey 0x100#12 (bare (at' .capturing 24))) = .ok .footerOk ∧
    ciwRst 0x800#12 = true ∧ ciwRst 0x100#12 = false :=
  ⟨⟨_, rfl, by decide +kernel⟩, by decide, by decide, by decide, by decide, by decide, by decide⟩

theorem witness_ResetClearsTheSession :
    held.cfg.hasDedup = true ∧ (bare held).cfg.hasDedup = false := by decide

theorem witness_ErrFlushForcesIdle :
    (at' .idle 0).ctx.legal ∧ (at' .idle 0).ctx.state = .idle ∧ (at' .idle 0).ctx.nbytes = 0#5 := by decide

/-- Legal contexts at the ends of their range, for the statements about one operation. -/
theorem witness_legal_contexts :
    (at' .idle 0).ctx.legal ∧ (at' .capturing 1).ctx.legal ∧ (at' .capturing 23).ctx.legal ∧
      (at' .capturing 24).ctx.legal ∧ (at' .capturing 25).ctx.legal := by decide

theorem witness_ErrorCycleDropsTheByte :
    (fed held [.cycle 0x60F#12]).ctx.legal ∧
      nextInput (fed held [.cycle 0x60F#12]) = .cycle (mkCiw false true true false 0x0F#8) ∧
      nextInput (fed held [.cycle 0x50F#12]) = .cycle (mkCiw false true false true 0x0F#8) := by decide

theorem witness_GuardDiscardsThenHunts :
    25 ≤ (25#5 : Count).toNat ∧ held.ctx.legal ∧ held.ctx.nbytes = 25#5 ∧ 25 ≤ (31#5 : Count).toNat := by
  decide

theorem witness_HuntSkipDiscardsTheByte : (0x00#8 : Byte) ≠ 0x0F#8 ∧ (0xFF#8 : Byte) ≠ 0x0F#8 := by decide

theorem witness_CaptureAppendsTheByte :
    1 ≤ (1#5 : Count).toNat ∧ (1#5 : Count).toNat ≤ 23 ∧ 1 ≤ (23#5 : Count).toNat ∧
      (23#5 : Count).toNat ≤ 23 := by decide

theorem witness_FooterBadRejects : (0x01#8 : Byte) ≠ 0x00#8 ∧ (0x0F#8 : Byte) ≠ 0x00#8 := by decide

theorem witness_HuntIsLeftOnlyByAHeader : ∃ t,
    nextInput (fed (at' .idle 0) [.cycle 0x10F#12]) = .cycle 0x10F#12 ∧
      step (fed (at' .idle 0) [.cycle 0x10F#12]) = .next t ∧
      (fed (at' .idle 0) [.cycle 0x10F#12]).ctx.state = .idle ∧ t.ctx.state = .capturing :=
  ⟨_, rfl, rfl, rfl, rfl⟩

theorem witness_EventCodesOfACycle : ∃ t,
    nextInput (fed held [.cycle 0x10F#12]) = .cycle 0x10F#12 ∧
      step (fed held [.cycle 0x10F#12]) = .next t ∧
      decodeKey (stepKey 0x10F#12 (fed held [.cycle 0x10F#12])) =
        .ok (.guard false .capturing 25#5 0x0F#8) :=
  ⟨_, rfl, rfl, by decide⟩

theorem witness_PackMasksChannels :
    let f := zeroFrameIn
    let g := { zeroFrameIn with channels := Vector.replicate 16 0xF800 }
    f ≠ g ∧ (∀ i : Fin 16, f.channels[i] &&& 0x7FF = g.channels[i] &&& 0x7FF) ∧
      f.switches = g.switches ∧ f.frameLost = g.frameLost ∧ f.failsafe = g.failsafe := by decide +kernel

/-- A frame of 16 bits a channel, and one that is wider than that. -/
theorem witness_PackLaysOutTheFrame :
    frameFits State.reset.cfg.chInWidth { zeroFrameIn with channels := Vector.replicate 16 0xFFFF } ∧
      ¬ frameFits State.reset.cfg.chInWidth { zeroFrameIn with channels := Vector.replicate 16 0x10000 } := by
  decide

theorem witness_UnpackIgnoresUncheckedBits :
    let p := payloadZ
    let q := ((payloadAt 0 0x55#8 0x00#8).set 23 0xF0#8).set 24 0xFF#8
    p ≠ q ∧ (∀ j : Fin 25, 1 ≤ j.val → j.val ≤ 22 → p[j] = q[j]) ∧
      p[23] &&& 0x0F#8 = q[23] &&& 0x0F#8 := by decide +kernel

theorem witness_PackOfUnpackIsThePayload :
    payloadQ[0] = 0x0F#8 ∧ payloadQ[24] = 0x00#8 ∧ payloadQ[23] &&& 0xF0#8 = 0x00#8 := by decide

/-- An error with a byte, an idle cycle with a tick, and one without (vectors G10, G1, G9). -/
theorem witness_GapCounterCountsTicksSinceDelivery :
    (at' .capturing 7).ctx.legal ∧ ({ at' .capturing 7 with gapCnt := 255 } : State).gapCnt ≤
        ({ at' .capturing 7 with gapCnt := 255 } : State).cfg.gapMax ∧
      ∀ c ∈ [0x50F#12, 0x200#12, 0x000#12],
        ciwRst c = false ∧ isDelivery (ciwRst c) (ciwErr c) (ciwVld c) = false := by decide

theorem witness_GapFlushAboveTheLimitOnly :
    isDelivery (ciwRst 0x10F#12) (ciwErr 0x10F#12) (ciwVld 0x10F#12) = true ∧
      ({ held with gapCnt := 4 } : State).cfg = Config.defaultParams := by decide

/-- A pulse in every other cycle: a delivery just late enough to be sure of a flush, one just early enough to be
sure of none, and one that falls on a pulse as the delivery before it did. -/
theorem witness_WallClockGapBounds :
    (at' .capturing 7).ctx.legal ∧ (at' .capturing 7).cfg.valid ∧ (at' .capturing 7).gapCnt = 0 ∧
      isDelivery (ciwRst 0x10F#12) (ciwErr 0x10F#12) (ciwVld 0x10F#12) = true ∧
      (∀ d ∈ [0x200#12, 0x000#12], ciwRst d = false ∧ isDelivery (ciwRst d) (ciwErr d) (ciwVld d) = false) ∧
      (let cs : List Ciw := [0x200#12, 0x000#12, 0x200#12, 0x000#12, 0x200#12, 0x000#12, 0x200#12];
        (∀ (k : Nat) (h : k < cs.length), ciwTck cs[k] = tickAt 2 1 (k + 1)) ∧
          (Config.defaultParams.gapLimit + 1) * 2 ≤ cs.length + 1) ∧
      (let cs : List Ciw := [0x200#12, 0x000#12, 0x200#12, 0x000#12, 0x200#12];
        (∀ (k : Nat) (h : k < cs.length), ciwTck cs[k] = tickAt 2 1 (k + 1)) ∧
          cs.length + 1 ≤ Config.defaultParams.gapLimit * 2) ∧
      (let cs : List Ciw := [0x000#12, 0x200#12, 0x000#12];
        (∀ (k : Nat) (h : k < cs.length), ciwTck cs[k] = tickAt 2 0 (k + 1)) ∧
          (cs.length + 1) % 2 = 0) := by decide

theorem witness_BatchIngestsByteByByte : (at' .capturing 12).ctx.legal := by decide

theorem witness_DedupNotifiesChanges :
    held.cfg.hasDedup = true ∧ held.ddHave = true ∧ (bare held).cfg.hasDedup = false ∧
      Memory.read held.ddLast 2 ≠ payloadQ[2] := by decide

theorem witness_FlushesKeepTheDedupHistory : ∃ t,
    nextInput (fed held [.cycle 0x400#12]) = .cycle 0x400#12 ∧ ciwRst 0x400#12 = false ∧
      step (fed held [.cycle 0x400#12]) = .next t ∧ t.frameReadyQ = false :=
  ⟨_, rfl, by decide, rfl, rfl⟩

/-- A run that accepts a frame and then takes an idle cycle. -/
theorem witness_NotifiedAreTheChangesOfDelivered : ∃ t,
    (fed (at' .capturing 24) [.cycle 0x100#12]).cfg.hasDedup = true ∧
      stepMany 2 (fed (at' .capturing 24) [.cycle 0x100#12]) = .next t ∧
      (∀ i ∈ (fed (at' .capturing 24) [.cycle 0x100#12]).inputs.take 2, i.isReset = false) ∧
      t.obs.delivered.length = 1 :=
  ⟨_, by decide, rfl, by decide, by decide⟩

theorem witness_PulsesFollowTheOperation : ∃ t u,
    nextInput (fed (at' .capturing 24) [.cycle 0x100#12]) = .cycle 0x100#12 ∧
      step (fed (at' .capturing 24) [.cycle 0x100#12]) = .next t ∧ t.frameReadyQ = true ∧
      nextInput (fed (bare (at' .capturing 24)) [.cycle 0x155#12]) = .cycle 0x155#12 ∧
      step (fed (bare (at' .capturing 24)) [.cycle 0x155#12]) = .next u ∧ u.frameRejectedQ = true :=
  ⟨_, _, rfl, rfl, rfl, rfl, rfl, rfl⟩

/-- The window kept by an idle cycle and closed by a byte. -/
theorem witness_HeldFrameWindow : ∃ t u,
    nextInput (fed held [.cycle 0x200#12]) = .cycle 0x200#12 ∧
      step (fed held [.cycle 0x200#12]) = .next t ∧ ciwRst 0x200#12 = false ∧ ciwErr 0x200#12 = false ∧
      ciwVld 0x200#12 = false ∧ frameAvail t = true ∧
      nextInput (fed held [.cycle 0x100#12]) = .cycle 0x100#12 ∧
      step (fed held [.cycle 0x100#12]) = .next u ∧ ciwVld 0x100#12 = true :=
  ⟨_, _, rfl, rfl, by decide, by decide, by decide, by decide, rfl, rfl, by decide⟩

theorem witness_HeldFrameIsReadable : held.Inv ∧ frameAvail held = true := ⟨held_inv, held_avail⟩

theorem witness_UndefinedOutputsAreNotRead :
    frameAvail State.reset = false ∧ State.reset.cfg.hasDedup = true ∧ State.reset.ddHave = false ∧
      State.reset.cfg.exposeReject = false ∧ (bare State.reset).cfg.hasDedup = false := by decide

theorem witness_ReadsHaveNoSideEffect : ∃ t,
    nextInput (fed held [.read .rxPayload]) = .read .rxPayload ∧
      step (fed held [.read .rxPayload]) = .next t :=
  ⟨_, rfl, rfl⟩

theorem witness_NotifiedPayloadIsTheHeldOne :
    held.Inv ∧ held.cfg.hasDedup = true ∧ held.ddNotifyQ = true := ⟨held_inv, rfl, rfl⟩

theorem witness_ConcurrentFeedFaults :
    nextInput (fed held [.contended 0x10F#12 0x100#12]) = .contended 0x10F#12 0x100#12 := by decide

theorem witness_StepKeepsTheInvariant : ∃ t,
    (fed held [.cycle 0x10F#12]).Inv ∧ step (fed held [.cycle 0x10F#12]) = .next t :=
  ⟨_, inv_of_inputs held_inv _, rfl⟩

theorem witness_EveryInputHasASuccessor :
    (fed held [.batch [0x0F#8]]).Inv ∧ (nextInput (fed held [.batch [0x0F#8]])).mayStop = false :=
  ⟨inv_of_inputs held_inv _, rfl⟩

/-- A run in which a frame is accepted in the cycle of a pulse, read in its window and unpacked. -/
def dutiful : State :=
  fed (at' .capturing 24) [.cycle 0x300#12, .read .rxPayload, .unpack payloadZ]

theorem witness_duties_of_the_source :
    ByteSource.Duties { received := [.byte 0x00#8], tickPhase := 0 } dutiful.cfg true
      ((trace 3 dutiful).map Prod.snd) where
  sessionStart := fun h => absurd h (by decide)
  onceInOrder := by decide
  tickPhase := by
    show 0 < (Config.timeUnit : Nat) / 1
    rw [Nat.div_one]
    exact Config.timeUnit.pos
  tickPeriod := by
    have h : (((trace 3 dutiful).map Prod.snd).flatMap Input.cycles) = [0x300#12] := by decide
    rw [h]
    intro k hk
    obtain rfl : k = 0 := Nat.lt_one_iff.mp hk
    simp [tickAt, ciwTck]
  oneAgent := by decide

/-- What the consumer does in one step of `run` keeps its duties, as a check. -/
def stepKeeps (x : State × Input) : Bool :=
  match x.2 with
  | .read port => portDefined port x.1
  | .unpack p => x.1.obs.delivered.any fun d => decide (d.payload = p)
  | .cycle _ => true
  | .batch _ => true
  | .pack _ => true
  | .contended _ _ => true

theorem witness_duties_of_the_consumer :
    dutiful.Inv ∧ Consumer.Duties { wants := [1] } (trace 3 dutiful) := by
  have h : ∀ x ∈ trace 3 dutiful, stepKeeps x = true := by decide +kernel
  refine ⟨inv_of_inputs capturing_inv _, fun x hx port e => ?_, fun x hx p e => ?_, by decide +kernel⟩
  · simpa [stepKeeps, e] using h x hx
  · simpa [stepKeeps, e] using h x hx

theorem witness_NothingChangesTheParameters : ∃ t,
    step (fed held [.cycle 0x800#12]) = .next t ∧ (nextInput (fed held [.cycle 0x800#12])).isCycle = true :=
  ⟨_, rfl, rfl⟩

theorem witness_ResetErasesThePast :
    ¬ (at' .idle 24).ctx.legal ∧
      (fed (at' .idle 24) [.cycle 0x800#12]).cfg = (fed State.reset [.cycle 0x800#12]).cfg ∧
      (fed (at' .idle 24) [.cycle 0x800#12]).tx = (fed State.reset [.cycle 0x800#12]).tx ∧
      (fed (at' .idle 24) [.cycle 0x800#12]).inputs = (fed State.reset [.cycle 0x800#12]).inputs ∧
      nextInput (fed (at' .idle 24) [.cycle 0x800#12]) = .cycle 0x800#12 ∧ ciwRst 0x800#12 = true :=
  ⟨by decide, rfl, rfl, rfl, rfl, by decide⟩

theorem witness_FlushIsAFreshContext : ∃ u v,
    held.cfg = State.reset.cfg ∧ held.inputs = State.reset.inputs ∧
      (∀ i ∈ held.inputs, i.isCycle = true) ∧
      exec (.errFlush false false false .capturing 25#5 0x00#8) held = .next u ∧
      exec (.reset false false false false .capturing 25#5 0x00#8) State.reset = .next v :=
  ⟨_, _, rfl, rfl, by decide, rfl, rfl⟩

/-- The same for a gap flush: a header after four ticks in a capture. -/
theorem witness_FlushIsAFreshContext_gap : ∃ v,
    let s := fed { held with gapCnt := 4 } [.cycle 0x10F#12]
    let w := fed State.reset [.cycle 0x10F#12]
    s.cfg = w.cfg ∧ s.inputs = w.inputs ∧ (∀ i ∈ s.inputs, i.isCycle = true) ∧ s.ctx.legal ∧
      nextInput s = .cycle 0x10F#12 ∧
      isDelivery (ciwRst 0x10F#12) (ciwErr 0x10F#12) (ciwVld 0x10F#12) = true ∧ gapExceeded s = true ∧
      exec (.reset false false false false .capturing 25#5 0x00#8) w = .next v :=
  ⟨_, rfl, rfl, by decide, by decide, rfl, by decide, by decide, rfl⟩

theorem witness_CaptureKeepsArrivalOrder :
    State.reset.ctx.state = .idle ∧ State.reset.ctx.nbytes = 0#5 ∧
      (List.replicate 23 (0x77#8 : Byte)).length ≤ 23 ∧ ([] : List Byte).length ≤ 23 := by decide

theorem witness_ResyncAfterNoise :
    State.reset.ctx.state = .idle ∧ State.reset.ctx.nbytes = 0#5 ∧
      (∀ b ∈ [0x00#8, 0xFF#8, 0x55#8], b ≠ (0x0F#8 : Byte)) ∧ validPayload payloadQ :=
  ⟨rfl, rfl, by decide, by decide, by decide⟩

theorem witness_BackToBackFramesAreEachReady :
    State.reset.ctx.state = .idle ∧ State.reset.ctx.nbytes = 0#5 ∧ validPayload payloadQ ∧
      validPayload payloadZ :=
  ⟨rfl, rfl, ⟨by decide, by decide⟩, by decide, by decide⟩

/-- Garbage that starts with a header, that holds none, and whose first header is at 1 and at 24. -/
theorem witness_RecoveryAfterGarbage :
    State.reset.ctx.state = .idle ∧ State.reset.ctx.nbytes = 0#5 ∧ validPayload payloadQ ∧
      (payloadAt 0 0x0F#8 0x11#8)[24] ≠ 0x00#8 ∧ (payloadAt 0 0x0F#8 0x11#8)[0] = 0x0F#8 ∧
      (payloadAt 24 0x01#8 0xAA#8)[24] ≠ 0x00#8 ∧
      (∀ j : Fin 25, (payloadAt 24 0x01#8 0xAA#8)[j] ≠ 0x0F#8) ∧
      (payloadAt 1 0x0F#8 0x11#8)[24] ≠ 0x00#8 ∧ (payloadAt 1 0x0F#8 0x11#8)[1] = 0x0F#8 ∧
      (∀ i : Fin 25, i.val < 1 → (payloadAt 1 0x0F#8 0x11#8)[i] ≠ 0x0F#8) ∧
      (payloadAt 24 0x0F#8 0x11#8)[24] = 0x0F#8 ∧
      (∀ i : Fin 25, i.val < 24 → (payloadAt 24 0x0F#8 0x11#8)[i] ≠ 0x0F#8) :=
  ⟨rfl, rfl, ⟨by decide, by decide⟩, by decide, by decide, by decide, by decide, by decide, by decide,
    by decide, by decide, by decide⟩

/-- A capture just begun and a full one. -/
theorem witness_HuntIsReachedFromEveryCapture :
    (at' .capturing 1).ctx.state = .capturing ∧ 1 ≤ (at' .capturing 1).ctx.nbytes.toNat ∧
      (at' .capturing 1).ctx.nbytes.toNat ≤ 25 ∧ gapExceeded (at' .capturing 1) = false ∧
      (List.replicate 24 (0x0F#8 : Byte)).length = 25 - (at' .capturing 1).ctx.nbytes.toNat ∧
      held.ctx.nbytes.toNat ≤ 25 ∧ gapExceeded held = false ∧
      ([] : List Byte).length = 25 - held.ctx.nbytes.toNat ∧ (0x00#8 : Byte) ≠ 0x0F#8 := by decide

theorem witness_FrameThroughTheBlock :
    State.reset.ctx.state = .idle ∧ State.reset.ctx.nbytes = 0#5 := by decide

end Sys2Proof.Tests
end

section
/-! SUPPORT. A delivered buffer is its bytes on consecutive clock edges (42_resync.md R181): what the units beside
the synchronizer do after a whole buffer is what they do byte by byte. So what every clock edge keeps, a buffer
keeps. -/

namespace Sys2Proof.Machine

/-! ## A clock edge, beside the context -/

/-- A clock edge leaves the parameters, the held inputs of `PACK`, the caller's result and the pending inputs. -/
theorem clockEdge_frame {c : Ciw} {s t : State} (h : clockEdge c s = .next t) :
    t.cfg = s.cfg ∧ t.tx = s.tx ∧ t.unpackOut = s.unpackOut ∧ t.inputs = s.inputs := by
  obtain ⟨i, u, hi, hx, rfl⟩ := clockEdge_next_iff.mp h
  obtain ⟨hcfg, htx, hout, hin, -⟩ := hi.exec_frame hx
  simp [hcfg, htx, hout, hin]

/-- So does a run of bytes. -/
theorem byteRun_frame {bs : List Byte} {s t : State} (h : byteRun bs s = .next t) :
    t.cfg = s.cfg ∧ t.tx = s.tx ∧ t.unpackOut = s.unpackOut ∧ t.inputs = s.inputs := by
  induction bs generalizing s with
  | nil => cases h; simp
  | cons b bs ih =>
    obtain ⟨u, hu, ht⟩ := andThen_eq_next.mp h
    obtain ⟨hcfg, htx, hout, hin⟩ := clockEdge_frame hu
    rw [← hcfg, ← htx, ← hout, ← hin]
    exact ih ht

/-! ## A batch is its bytes on consecutive edges (42_resync.md R181) -/

/-- `INGEST_BATCH` writes the context, the step outputs and the record alone, and counts its bytes. -/
theorem ingestBytes_frame {bs : List Byte} {g : Bool} {s t : State} (h : ingestBytes g bs s = .next t) :
    sameOutsideSync { s with obs := { s.obs with index := s.obs.index + bs.length } } t := by
  induction bs generalizing g s with
  | nil => cases h; exact ⟨rfl, rfl, rfl, rfl, rfl, rfl, rfl, rfl, rfl, rfl, rfl⟩
  | cons b bs ih =>
    obtain ⟨u, hu, ht⟩ := andThen_eq_next.mp h
    have f := execIngest_frame hu
    have k := ih ht
    refine ⟨k.cfg.trans f.cfg, k.gapCnt.trans f.gapCnt, k.ddLast.trans f.ddLast, k.ddHave.trans f.ddHave,
      k.ddNotifyQ.trans f.ddNotifyQ, k.tx.trans f.tx, k.unpackOut.trans f.unpackOut, k.inputs.trans f.inputs,
      ?_, k.notified.trans f.notified, k.lastRead.trans f.lastRead⟩
    have hi := k.index
    have hf := f.index
    simp only [State.countInput_obs_index, List.length_cons] at hi ⊢
    omega

/-- Where the last byte of a batch accepts a frame, the batch has delivered one. -/
theorem ingestBytes_ready {bs : List Byte} {g : Bool} {s t : State} (h : ingestBytes g bs s = .next t)
    (hne : bs ≠ []) (hr : t.frameReadyQ = true) : s.obs.delivered.length < t.obs.delivered.length := by
  induction bs generalizing g s with
  | nil => exact absurd rfl hne
  | cons b bs ih =>
    obtain ⟨u, hu, ht⟩ := andThen_eq_next.mp h
    have hd := execIngest_delivered hu
    by_cases hbs : bs = []
    · subst hbs
      cases ht
      obtain ⟨-, hd⟩ | ⟨hn, -⟩ := hd
      · simp [hd]
      · cases hn.symm.trans hr
    · have hlt := ih ht hbs
      obtain ⟨-, hd⟩ | ⟨-, hd⟩ := hd <;> simp [hd] at hlt <;> omega

/-- The state with the units beside the synchronizer as they are in `e`. -/
def State.besideOf (e u : State) : State :=
  u.withBeside e.gapCnt e.ddLast e.ddHave e.ddNotifyQ e.obs.notified

/-- What the units beside the synchronizer do at the edge of a byte that `INGEST` took. -/
def State.byteEdge (t : State) : State :=
  ((t.setGap 0).dedupEdge false (if t.frameReadyQ then .footerOk else .huntHdr)).countInput

/-- The edge of a byte writes the units beside the synchronizer and the input count alone. -/
theorem byteEdge_eq_besideOf (t : State) : t.byteEdge = t.byteEdge.besideOf t.countInput := by
  unfold State.byteEdge State.dedupEdge
  split_ifs <;> rfl

/-- What the units beside the synchronizer do after a buffer with a byte, `k` deliveries having been recorded
before it. -/
def State.batchEdge (k : Nat) (u : State) : State := (u.setGap 0).dedupBatch (u.obs.delivered.drop k)

theorem deliverBatch_eq (bs : List Byte) (s : State) :
    deliverBatch bs s = andThen (ingestBytes (gapExceeded s) bs s) fun u =>
      .next (if bs = [] then u else u.batchEdge s.obs.delivered.length) := by
  unfold deliverBatch
  split_ifs <;> rfl

/-- The rest of a buffer runs beside the units as they are after its first byte. -/
theorem ingestBytes_byteEdge (bs : List Byte) (t : State) :
    ingestBytes false bs t.byteEdge =
      andThen (ingestBytes false bs t.countInput) fun u => .next (t.byteEdge.besideOf u) := by
  conv_lhs => rw [byteEdge_eq_besideOf]
  exact ingestBytes_withBeside ..

@[simp] theorem byteEdge_gapCnt (t : State) : t.byteEdge.gapCnt = 0 := by simp [State.byteEdge]
@[simp] theorem byteEdge_obs_delivered (t : State) : t.byteEdge.obs.delivered = t.obs.delivered := by
  simp [State.byteEdge]

theorem dedupBatch_absent {s : State} (h : s.cfg.hasDedup = false) (ds : List Delivery) :
    s.dedupBatch ds = s := by
  rw [State.dedupBatch, h]
  rfl

theorem dedupBatch_nil {s : State} (h : s.cfg.hasDedup = true) : s.dedupBatch [] = s.gateNotify := by
  rw [State.dedupBatch, h]
  rfl

theorem gateNotify_of_ready {s : State} (h : s.frameReadyQ = true) : s.gateNotify = s := by
  have hn : (s.frameReadyQ && s.ddNotifyQ) = s.ddNotifyQ := by rw [h, Bool.true_and]
  rw [State.gateNotify, hn]

theorem dedupBatch_cons {s : State} (h : s.cfg.hasDedup = true) (d : Delivery) (ds : List Delivery) :
    s.dedupBatch (d :: ds) = (s.dedupDelivery d).dedupBatch ds := by
  rw [State.dedupBatch, State.dedupBatch, State.dedupDelivery_cfg, h]
  rfl

/-- The pulse before a buffer does not show after it. -/
theorem dedupBatch_of_notify {s : State} (h : s.cfg.hasDedup = true) {ds : List Delivery}
    (hds : s.frameReadyQ = true → ds ≠ []) (n : Bool) :
    { s with ddNotifyQ := n }.dedupBatch ds = s.dedupBatch ds := by
  cases ds with
  | nil =>
    have hr : s.frameReadyQ = false := by simpa using hds
    simp [dedupBatch_nil, h, State.gateNotify, hr]
  | cons d ds => rw [dedupBatch_cons h, dedupBatch_cons (s := { s with ddNotifyQ := n }) h]; rfl

/-- The stage of `t` and the record of its notifications read as in `u`. -/
structure sameStage (t u : State) : Prop where
  cfg       : t.cfg = u.cfg
  ddLast    : t.ddLast = u.ddLast
  ddHave    : t.ddHave = u.ddHave
  ddNotifyQ : t.ddNotifyQ = u.ddNotifyQ
  notified  : t.obs.notified = u.obs.notified

theorem sameStage_of_ingestBytes {bs : List Byte} {g : Bool} {t u : State}
    (h : ingestBytes g bs t.countInput = .next u) : sameStage t u :=
  have f := ingestBytes_frame h
  ⟨f.cfg.symm, f.ddLast.symm, f.ddHave.symm, f.ddNotifyQ.symm, f.notified.symm⟩

section
variable {t u : State} (h : sameStage t u)
include h

theorem setGap_besideOf : (t.setGap 0).besideOf u = u.setGap 0 := by
  simp [State.besideOf, State.withBeside, State.setGap, h.ddLast, h.ddHave, h.ddNotifyQ, h.notified]

theorem byteEdge_besideOf_absent (hs : t.cfg.hasDedup = false) : t.byteEdge.besideOf u = u.setGap 0 := by
  have he : t.byteEdge = (t.setGap 0).countInput := by simp [State.byteEdge, State.dedupEdge, hs]
  rw [he, ← setGap_besideOf h]
  rfl

theorem byteEdge_besideOf_accept (hs : t.cfg.hasDedup = true) (hr : t.frameReadyQ = true) :
    t.byteEdge.besideOf u = (u.setGap 0).dedupDelivery { index := t.obs.index, payload := t.ctx.buf } := by
  have he : t.byteEdge =
      ((t.setGap 0).dedupDelivery { index := t.obs.index, payload := t.ctx.buf }).countInput := by
    simp [State.byteEdge, State.dedupEdge, hs, hr]
  rw [he, ← setGap_besideOf h]
  rfl

theorem byteEdge_besideOf_other (hs : t.cfg.hasDedup = true) (hr : t.frameReadyQ = false) :
    t.byteEdge.besideOf u = { u.setGap 0 with ddNotifyQ := false } := by
  have he : t.byteEdge = ({ t.setGap 0 with ddNotifyQ := false } : State).countInput := by
    simp [State.byteEdge, State.dedupEdge, hs, hr]
  rw [he, ← setGap_besideOf h]
  rfl

end

/-- What the stage does after a buffer of one byte is what it does at the edge of that byte. -/
theorem batchEdge_one {s t : State} {g : Bool} {b : Byte} (ht : execIngest false false true g b s = .next t) :
    t.countInput.batchEdge s.obs.delivered.length = t.byteEdge := by
  have hst : sameStage t t.countInput := ⟨rfl, rfl, rfl, rfl, rfl⟩
  have hidx : t.obs.index = s.obs.index := (execIngest_frame ht).index
  rw [byteEdge_eq_besideOf, State.batchEdge, State.countInput_obs_delivered]
  cases hs : t.cfg.hasDedup with
  | false => rw [byteEdge_besideOf_absent hst hs, dedupBatch_absent (by exact hs)]
  | true =>
    have hs' : (t.countInput.setGap 0).cfg.hasDedup = true := hs
    obtain ⟨hr, hd⟩ | ⟨hr, hd⟩ := execIngest_delivered ht
    · rw [byteEdge_besideOf_accept hst hs hr, hd, List.drop_left, dedupBatch_cons hs', dedupBatch_nil (by exact hs),
        gateNotify_of_ready (by exact hr), hidx]
    · rw [byteEdge_besideOf_other hst hs hr, hd, List.drop_length, dedupBatch_nil hs']
      simp [State.gateNotify, hr]

/-- The stage takes the deliveries of a buffer one byte at a time: what it does after a byte that `INGEST` took
and after the rest of the buffer is what it does after the whole. -/
theorem batchEdge_cons {s t u : State} {g : Bool} {b : Byte} {bs : List Byte}
    (ht : execIngest false false true g b s = .next t) (hu : ingestBytes false bs t.countInput = .next u) :
    u.batchEdge s.obs.delivered.length =
      if bs = [] then t.byteEdge.besideOf u
      else (t.byteEdge.besideOf u).batchEdge t.obs.delivered.length := by
  have hst := sameStage_of_ingestBytes hu
  obtain ⟨new, hnew⟩ := ingestBytes_delivered bs hu
  have hready := ingestBytes_ready hu
  simp only [State.countInput_obs_delivered] at hnew hready
  have hidx : t.obs.index = s.obs.index := (execIngest_frame ht).index
  by_cases hbs : bs = []
  · subst hbs
    cases hu
    rw [if_pos rfl, batchEdge_one ht, ← byteEdge_eq_besideOf]
  rw [if_neg hbs]
  cases hs : t.cfg.hasDedup with
  | false =>
    have hu0 : (u.setGap 0).cfg.hasDedup = false := hst.cfg ▸ hs
    rw [byteEdge_besideOf_absent hst hs, State.batchEdge, State.batchEdge, dedupBatch_absent hu0]
    exact (dedupBatch_absent hu0 _).symm
  | true =>
    have hu1 : (u.setGap 0).cfg.hasDedup = true := hst.cfg ▸ hs
    obtain ⟨hr, hd⟩ | ⟨hr, hd⟩ := execIngest_delivered ht
    · have hdrop : u.obs.delivered.drop s.obs.delivered.length =
          { index := s.obs.index, payload := t.ctx.buf } :: u.obs.delivered.drop t.obs.delivered.length := by
        simp [hnew, hd]
      rw [byteEdge_besideOf_accept hst hs hr, hidx, State.batchEdge, hdrop, dedupBatch_cons hu1]
      rfl
    · rw [byteEdge_besideOf_other hst hs hr, State.batchEdge, ← hd]
      refine (dedupBatch_of_notify hu1 (fun hru => ?_) false).symm
      have hlt := hready hbs hru
      rw [Ne, List.drop_eq_nil_iff]
      exact Nat.not_le.mpr hlt

/-- A delivered buffer is its bytes on consecutive clock edges, from any state. -/
theorem deliverBatch_eq_byteRun (bs : List Byte) (s : State) : deliverBatch bs s = byteRun bs s := by
  induction bs generalizing s with
  | nil => rfl
  | cons b bs ih =>
    rw [deliverBatch_eq, ingestBytes, byteRun, clockEdge_byteCiw, andThen_assoc, andThen_assoc]
    cases ht : execIngest false false true (gapExceeded s) b s with
    | fault r => rfl
    | refused r => rfl
    | next t =>
      show andThen (ingestBytes false bs t.countInput) _ = byteRun bs t.byteEdge
      rw [← ih t.byteEdge, deliverBatch_eq, gapExceeded_of_zero (byteEdge_gapCnt t), ingestBytes_byteEdge,
        andThen_assoc]
      cases hu : ingestBytes false bs t.countInput with
      | fault r => rfl
      | refused r => rfl
      | next u =>
        simp only [andThen_next, if_neg (List.cons_ne_nil b bs), byteEdge_obs_delivered]
        rw [batchEdge_cons ht hu]

end Sys2Proof.Machine
end

section
/-! PROOF. The invariant over every step: where a frame is held after an edge, the stage beside it, and then each
input in turn. -/

namespace Sys2Proof.Machine

/-! ## The held frame -/

theorem frameAvail_iff (s : State) :
    frameAvail s = true ↔
      s.ctx.state = .capturing ∧ s.ctx.nbytes = 25#5 ∧ Memory.read s.ctx.buf 24 = Config.footer := by
  simp [frameAvail, and_assoc]

theorem frameAvail_of_idle {s : State} (h : s.ctx.state = .idle) : frameAvail s = false := by
  simp [frameAvail, h]

theorem Context.meaningful_append {x : Context} (h : Memory.read x.buf 0 = Config.header) {i : Nat} (hi : i ≠ 0)
    (b : Byte) (n : Count) : (x.append i b n).meaningful := by
  intro _
  rw [Context.append_buf, Memory.read_write_ne _ _ (by simpa using hi.symm)]
  exact h

/-- A cycle keeps the meaningful bytes (10_state.md R22). -/
theorem Context.meaningful_next {r e v g : Bool} {b : Byte} {x : Context} (hl : x.legal) (h : x.meaningful) :
    (x.next r e v g b).meaningful := by
  unfold Context.next
  split_ifs with h1 h2 h3 h4
  · exact fun hn => absurd hn (by simp)
  · exact h
  · exact fun _ => by simp
  · exact fun hn => absurd hn (by simp)
  · simp only [Bool.or_eq_true, decide_eq_true_eq, not_or] at h3
    obtain ⟨hi, -⟩ | ⟨-, hn, -⟩ := hl
    · exact absurd hi h3.2
    · exact meaningful_append (h hn) (by omega) b _

/-- After the operation of a cycle a frame is held only where the operation accepted it, or where it was held before
and the context is untouched. -/
theorem Selects.footerOk_or_held {c : Ciw} {s u : State} {i : Instr} (hi : Selects c s i)
    (hx : exec i s = .next u) (ha : frameAvail u = true) : i = .footerOk ∨ u.ctx = s.ctx := by
  obtain ⟨hst, hn, hf⟩ := (frameAvail_iff u).mp ha
  have hc := (hi.exec_effect hx).1
  rw [hc] at hst hn hf ⊢
  unfold Context.next at hst hn hf ⊢
  split_ifs at hst hn hf ⊢ with h1 h2 h3 h4
  · cases hst
  · exact .inr rfl
  · exact absurd hn (by simp)
  · cases hst
  · simp only [Bool.or_eq_true, decide_eq_true_eq, not_or, Bool.not_eq_true, Bool.not_eq_eq_eq_not, Bool.not_true,
      Bool.not_eq_false] at h1 h2 h3
    obtain ⟨⟨hg, -⟩, hidle⟩ := h3
    have hcap : s.ctx.state = .capturing := by cases h : s.ctx.state <;> simp_all
    have h24 : s.ctx.nbytes = 24#5 := by
      rw [Context.append_nbytes] at hn
      bv_omega
    have hb : ciwByte c = Config.footer := by
      rw [← hf, h24, Context.append_buf]
      exact (Memory.read_write_same s.ctx.buf 24 (ciwByte c)).symm
    exact .inl (hi.unique (.footerOk h1.1 h1.2 h2 hg hcap h24 hb))

/-- Where the operation of a cycle signals ready, the frame is held. -/
theorem Selects.held_of_ready {c : Ciw} {s u : State} {i : Instr} (hi : Selects c s i)
    (hx : exec i s = .next u) (hr : u.frameReadyQ = true) : frameAvail u = true := by
  obtain rfl := (hi.exec_pulses hx).1.mp hr
  cases (ifLegal_eq_next.mp hx).2
  rw [frameAvail_iff]
  exact ⟨rfl, rfl, Memory.read_write_same s.ctx.buf 24 Config.footer⟩

/-- Where it signals a rejection, the output exists and the capture is full and not held. -/
theorem Selects.full_of_rejected {c : Ciw} {s u : State} {i : Instr} (hi : Selects c s i)
    (hx : exec i s = .next u) (hr : u.frameRejectedQ = true) :
    s.cfg.exposeReject = true ∧ u.ctx.nbytes = 25#5 ∧ frameAvail u = false := by
  obtain ⟨he, b, rfl⟩ := (hi.exec_pulses hx).2.mp hr
  cases (ifLegal_eq_next.mp hx).2
  cases hi with
  | footerBad _ _ _ _ _ _ hb =>
    refine ⟨he, rfl, ?_⟩
    rw [Bool.eq_false_iff, Ne, frameAvail_iff]
    rintro ⟨-, -, hf⟩
    exact hb ((Memory.read_write_same s.ctx.buf 24 (ciwByte c)).symm.trans hf)

/-! ## The invariant over a clock edge -/

/-- The clauses of `State.Inv` about the duplicate-suppression stage. -/
structure State.StageInv (s : State) : Prop where
  ddLastPayload : s.ddHave = true →
    Memory.read s.ddLast 0 = Config.header ∧ Memory.read s.ddLast 24 = Config.footer
  notifyReady   : s.ddNotifyQ = true → s.frameReadyQ = true
  heldIsLast    : s.cfg.hasDedup = true → frameAvail s = true → s.ddHave = true ∧ s.ddLast = s.ctx.buf
  dedupAbsent   : s.cfg.hasDedup = false → s.ddHave = false ∧ s.ddNotifyQ = false

/-- A held frame is a whole payload. -/
theorem header_footer_of_held {s : State} (hm : s.ctx.meaningful) (ha : frameAvail s = true) :
    Memory.read s.ctx.buf 0 = Config.header ∧ Memory.read s.ctx.buf 24 = Config.footer := by
  obtain ⟨-, hn, hf⟩ := (frameAvail_iff s).mp ha
  exact ⟨hm (by simp [hn]), hf⟩

/-- An edge keeps the clauses about the stage: it is absent, or cleared, or takes the accepted payload, or keeps its
history with `dd_notify` low. -/
theorem Selects.keeps_stageInv {c : Ciw} {s u : State} {i : Instr} (h : s.Inv) (hi : Selects c s i)
    (hx : exec i s = .next u) (hm : u.ctx.meaningful) : (u.besideStep c i).StageInv := by
  obtain ⟨hcfg, -, -, -, -, -, hlast, -, -, hkeep, habs⟩ := hi.exec_frame hx
  have hav : frameAvail (u.besideStep c i) = frameAvail u := frameAvail_congr (besideStep_ctx c i u)
  cases hd : s.cfg.hasDedup with
  | false =>
    obtain ⟨hhave, hnote⟩ := habs hd
    obtain ⟨-, bhave, bnote, -⟩ := besideStep_dedup_absent c i u (by rw [hcfg, hd])
    obtain ⟨shave, snote⟩ := h.dedupAbsent hd
    have h1 : (u.besideStep c i).ddHave = false := by rw [bhave, hhave, shave]
    have h2 : (u.besideStep c i).ddNotifyQ = false := by rw [bnote, hnote, snote]
    exact ⟨by simp [h1], by simp [h2], by simp [hcfg, hd], fun _ => ⟨h1, h2⟩⟩
  | true =>
    have hu : u.cfg.hasDedup = true := by rw [hcfg, hd]
    have hpres : (u.besideStep c i).cfg.hasDedup = false →
        (u.besideStep c i).ddHave = false ∧ (u.besideStep c i).ddNotifyQ = false := by simp [hu]
    cases hr : ciwRst c with
    | true =>
      obtain ⟨-, bhave, bnote, -⟩ := besideStep_dedup_reset c i u hu hr
      have hidle : u.ctx.state = .idle := by rw [(hi.exec_effect hx).1]; simp [Context.next, hr]
      exact ⟨by simp [bhave], by simp [bnote], by simp [hav, frameAvail_of_idle hidle], hpres⟩
    | false =>
      by_cases hf : i = .footerOk
      · subst hf
        obtain ⟨blast, bhave, -, -⟩ := besideStep_dedup_accept c u hu hr
        have hready := (hi.exec_pulses hx).1.mpr rfl
        refine ⟨fun _ => ?_, by simp [hready], fun _ _ => ⟨bhave, by simp [blast]⟩, hpres⟩
        rw [blast]
        exact header_footer_of_held hm (hi.held_of_ready hx hready)
      · obtain ⟨blast, bhave, bnote, -⟩ := besideStep_dedup_other c i u hu hr hf
        rw [hlast] at blast
        rw [(hkeep hr).1] at bhave
        refine ⟨?_, by simp [bnote], fun _ ha => ?_, hpres⟩
        · rw [bhave, blast]
          exact h.ddLastPayload
        · rw [hav] at ha
          have hctx := (hi.footerOk_or_held hx ha).resolve_left hf
          rw [bhave, blast, besideStep_ctx, hctx]
          exact h.heldIsLast hd (frameAvail_congr hctx ▸ ha)

/-- Every clock edge keeps the invariant. -/
theorem clockEdge_keeps_inv {c : Ciw} {s t : State} (h : s.Inv) (ht : clockEdge c s = .next t) : t.Inv := by
  obtain ⟨i, u, hi, hx, rfl⟩ := clockEdge_next_iff.mp ht
  obtain ⟨hcfg, htx, -, -, -, hgap, -⟩ := hi.exec_frame hx
  have hctx := (hi.exec_effect hx).1
  have hm : u.ctx.meaningful := hctx ▸ Context.meaningful_next h.legal h.meaningful
  have hav : frameAvail (u.besideStep c i) = frameAvail u := frameAvail_congr (besideStep_ctx c i u)
  have hst := hi.keeps_stageInv h hx hm
  exact
    { params := by simpa [hcfg] using h.params
      gapFits := by
        rw [besideStep_gapCnt, besideStep_cfg, hcfg, hgap]
        refine nextGapCount_le _ _ _ _ ?_
        split_ifs
        · exact Nat.zero_le _
        · exact h.gapFits
      txFits := by simpa [hcfg, htx] using h.txFits
      legal := by rw [besideStep_ctx, hctx]; exact Context.legal_next h.legal
      meaningful := by rw [besideStep_ctx]; exact hm
      readyHeld := by
        rw [besideStep_frameReadyQ, hav]
        exact hi.held_of_ready hx
      rejectedFull := by
        rw [besideStep_frameRejectedQ, besideStep_cfg, besideStep_ctx, hav, hcfg]
        exact hi.full_of_rejected hx
      ddLastPayload := hst.ddLastPayload
      notifyReady := hst.notifyReady
      heldIsLast := hst.heldIsLast
      dedupAbsent := hst.dedupAbsent }

theorem byteRun_keeps_inv {bs : List Byte} {s t : State} (h : s.Inv) (ht : byteRun bs s = .next t) : t.Inv := by
  induction bs generalizing s with
  | nil => cases ht; exact h
  | cons b bs ih =>
    obtain ⟨u, hu, ht⟩ := andThen_eq_next.mp ht
    exact ih (clockEdge_keeps_inv h hu) ht

/-- The invariant speaks of the hardware, the parameters and the held inputs of `PACK` alone. -/
theorem State.Inv.of_sameHardware {s t : State} (h : s.Inv) (hw : sameHardware s t)
    (htx : frameFits t.cfg.chInWidth t.tx) : t.Inv := by
  obtain ⟨hcfg, hctx, hgap, hready, hrej, hlast, hhave, hnote⟩ := hw
  have hav : frameAvail t = frameAvail s := frameAvail_congr hctx
  exact
    { params := hcfg ▸ h.params
      gapFits := by rw [hgap, hcfg]; exact h.gapFits
      txFits := htx
      legal := hctx ▸ h.legal
      meaningful := hctx ▸ h.meaningful
      readyHeld := by rw [hready, hav]; exact h.readyHeld
      rejectedFull := by rw [hrej, hcfg, hctx, hav]; exact h.rejectedFull
      ddLastPayload := by rw [hhave, hlast]; exact h.ddLastPayload
      notifyReady := by rw [hnote, hready]; exact h.notifyReady
      heldIsLast := by rw [hcfg, hav, hhave, hlast, hctx]; exact h.heldIsLast
      dedupAbsent := by rw [hcfg, hhave, hnote]; exact h.dedupAbsent }

/-! ## The invariant over every input -/

theorem sameHardware_takeInput (s : State) : sameHardware s s.takeInput := ⟨rfl, rfl, rfl, rfl, rfl, rfl, rfl, rfl⟩

/-- A consumer's read records the value and nothing else. -/
theorem consumerRead_next {port : OutPort} {s t : State} (h : consumerRead port s = .next t) :
    ∃ v, readPort port s = .next v ∧ t = { s with obs := { s.obs with lastRead := some v } } := by
  unfold consumerRead at h
  split at h
  · exact ⟨_, ‹_›, (Host.Outcome.next.inj h).symm⟩
  · cases h
  · cases h

/-- Every input that has a successor keeps the invariant. -/
theorem runInput_keeps_inv {inp : Input} {s t : State} (h : s.Inv) (ht : runInput inp s = .next t) : t.Inv := by
  cases inp with
  | cycle c => exact clockEdge_keeps_inv h ht
  | batch bs => exact byteRun_keeps_inv h ((deliverBatch_eq_byteRun bs s).symm.trans ht)
  | pack f =>
    cases ht
    exact h.of_sameHardware ⟨rfl, rfl, rfl, rfl, rfl, rfl, rfl, rfl⟩ (frameFits_portFrame _ f)
  | unpack p =>
    cases ht
    exact h.of_sameHardware ⟨rfl, rfl, rfl, rfl, rfl, rfl, rfl, rfl⟩ h.txFits
  | read port =>
    obtain ⟨v, -, rfl⟩ := consumerRead_next ht
    exact h.of_sameHardware ⟨rfl, rfl, rfl, rfl, rfl, rfl, rfl, rfl⟩ h.txFits
  | contended c d => cases ht

/-- Settles O49: every input keeps each clause, a delivered buffer byte by byte as its clock edges do. -/
theorem stepKeepsTheInvariant : Obligations.StepKeepsTheInvariant := by
  intro s t h ht
  exact runInput_keeps_inv (h.of_sameHardware (sameHardware_takeInput s) h.txFits) ht

end Sys2Proof.Machine
end

section
/-! PROOF. The statements about the state: its reset, the contexts outside the invariant, the gap counter, the outputs
and the parameters. -/

namespace Sys2Proof.Machine

/-! ## The state after reset -/

/-- Settles O47, the draws by reading the two memories cell by cell. -/
theorem resetState : Obligations.ResetState := by
  refine ⟨rfl, rfl, rfl, rfl, rfl, rfl, rfl, frameAvail_of_idle rfl, rfl, fun a => ?_, fun a => ?_⟩
  · simp [State.reset, Memory.read]
  · simp [State.reset, Memory.read]

/-- Settles O48, from the table of the reset state: nothing is captured, delivered or signalled. -/
theorem invariantAtReset : Obligations.InvariantAtReset := by
  obtain ⟨hst, hn, hg, hready, hrej, hhave, hnote, hav, hcfg, -, -⟩ := resetState
  exact
    { params := by rw [hcfg]; decide
      gapFits := by rw [hg]; exact Nat.zero_le _
      txFits := fun i => by simp [State.reset, zeroFrameIn]
      legal := .inl ⟨hst, hn⟩
      meaningful := fun h => absurd h (by simp [hn])
      readyHeld := by simp [hready]
      rejectedFull := by simp [hrej]
      ddLastPayload := by simp [hhave]
      notifyReady := by simp [hnote]
      heldIsLast := by simp [hav]
      dedupAbsent := fun _ => ⟨hhave, hnote⟩ }

/-! ## Illegal contexts -/

theorem execIngest_illegal {s : State} (hl : ¬ s.ctx.legal) (e v g : Bool) (b : Byte) :
    execIngest false e v g b s = .fault .invariantViolation := ifLegal_of_illegal hl _

/-- A buffer with a byte has no successor in an illegal context. -/
theorem deliverBatch_illegal {s : State} (hl : ¬ s.ctx.legal) (b : Byte) (bs : List Byte) :
    deliverBatch (b :: bs) s = .fault .invariantViolation := by
  rw [deliverBatch_eq, ingestBytes, execIngest_illegal hl]
  rfl

/-- Settles O7: the cycle and the buffer fault at their first operation, and each operation checks the context. -/
theorem illegalContextFaults : Obligations.IllegalContextFaults := by
  refine ⟨fun s c e he => (not_legal_of_error he).2, fun s hl => ⟨fun c hc hr => ?_, fun b bs hb => ?_,
    execIngest_illegal hl, ?_⟩⟩
  · rw [step_cycle hc]
    exact clockEdge_illegal hr hl
  · rw [step_of_nextInput hb]
    exact deliverBatch_illegal (s := s.takeInput) hl b bs
  · exact ⟨fun _ _ _ _ _ _ => if_neg hl, fun _ _ _ _ _ => if_neg hl, fun _ _ _ _ => if_neg hl,
      fun _ _ _ _ => if_neg hl, if_neg hl, fun _ => if_neg hl, fun _ _ => if_neg hl, if_neg hl,
      fun _ => if_neg hl⟩

/-! ## The gap counter between deliveries -/

/-- Settles O32, by induction on the cycles: each adds its tick, up to the greatest count. -/
theorem gapCounterCountsTicksSinceDelivery : Obligations.GapCounterCountsTicksSinceDelivery := by
  intro cs
  induction cs with
  | nil =>
    intro s _ hg _
    exact ⟨s, rfl, rfl, by simpa using hg⟩
  | cons c cs ih =>
    intro s hl hg hcs
    obtain ⟨⟨hr, hdel⟩, hrest⟩ := List.forall_mem_cons.mp hcs
    obtain ⟨u, hu, hctx, -, -, hgap, hcfg, hin, -⟩ := clockEdge_effect c hl
    have hgap : u.gapCnt = if ciwTck c then min (s.gapCnt + 1) s.cfg.gapMax else s.gapCnt := by
      rw [hgap, nextGapCount_eq _ _ _ _ hg, hdel, hr]
      rfl
    have hul : u.ctx.legal := hctx ▸ Context.legal_next hl
    have hug : u.gapCnt ≤ u.cfg.gapMax := by
      rw [hcfg, hgap]
      split_ifs <;> omega
    obtain ⟨t, ht, htin, htgap⟩ := ih u hul hug hrest
    refine ⟨t, ?_, htin.trans hin, ?_⟩
    · rw [List.length_cons, stepMany_succ, step_cycles, hu]
      rw [hin] at ht
      exact ht
    · rw [htgap, hcfg, hgap, List.filter_cons]
      split_ifs
      · rw [List.length_cons]; omega
      · rfl

/-! ## Outputs -/

/-- Settles O40, from the pulses of the operation that the cycle selects. -/
theorem pulsesFollowTheOperation : Obligations.PulsesFollowTheOperation := by
  intro s t c hc ht
  obtain ⟨i, u, hi, hx, rfl⟩ := (step_cycle_next_iff hc).mp ht
  obtain ⟨hready, hrej⟩ := (selects_takeInput.mpr hi).exec_pulses hx
  have hdec : decodeKey (stepKey c s) = .ok i := (decodeKey_stepKey_iff c s i).mpr hi
  rw [besideStep_frameReadyQ, besideStep_frameRejectedQ, hready, hrej, hdec]
  simp only [Except.ok.injEq, State.takeInput_cfg, true_and]
  rintro ⟨rfl, -, b, hb⟩
  cases hb

/-- Settles O42: the held payload is `buf`, whose ends the invariant and `frame_avail` give. -/
theorem heldFrameIsReadable : Obligations.HeldFrameIsReadable := by
  intro s h ha
  have hp : heldPayload s = some s.ctx.buf := if_pos ha
  have hread : ∀ f : Payload → PortValue, readHeld s f = .next (f s.ctx.buf) := fun f => by
    rw [readHeld, hp]
  obtain ⟨h0, h24⟩ := header_footer_of_held h.meaningful ha
  exact ⟨s.ctx.buf, hp, h0, h24, hread _, fun _ => hread _, fun _ => hread _, hread _, hread _⟩

/-! ## The parameters -/

/-- What an input leaves unchanged: the parameters and the pending inputs. -/
theorem runInput_keeps {inp : Input} {s t : State} (ht : runInput inp s = .next t) :
    t.cfg = s.cfg ∧ t.inputs = s.inputs ∧ (inp.isCycle = true → t.tx = s.tx ∧ t.unpackOut = s.unpackOut) := by
  cases inp with
  | cycle c =>
    obtain ⟨hcfg, htx, hout, hin⟩ := clockEdge_frame ht
    exact ⟨hcfg, hin, fun _ => ⟨htx, hout⟩⟩
  | batch bs =>
    obtain ⟨hcfg, -, -, hin⟩ := byteRun_frame ((deliverBatch_eq_byteRun bs s).symm.trans ht)
    exact ⟨hcfg, hin, nofun⟩
  | pack f => cases ht; exact ⟨rfl, rfl, nofun⟩
  | unpack p => cases ht; exact ⟨rfl, rfl, nofun⟩
  | read port =>
    obtain ⟨v, -, rfl⟩ := consumerRead_next ht
    exact ⟨rfl, rfl, nofun⟩
  | contended c d => cases ht

/-- Settles O51, input by input; a delivered buffer as its clock edges. -/
theorem nothingChangesTheParameters : Obligations.NothingChangesTheParameters := fun _ _ ht => runInput_keeps ht

end Sys2Proof.Machine
end

section
/-! PROOF. The statements about the memories: reads of the ports, the order of the captured bytes, and two feeding
agents. -/

namespace Sys2Proof.Machine

/-! ## Reads -/

theorem readHeld_congr {s t : State} (h : s.ctx = t.ctx) (f : Payload → PortValue) : readHeld s f = readHeld t f := by
  rw [readHeld, heldPayload_congr h, readHeld]

/-- The ports are functions of the hardware and of the held inputs of `PACK` alone (10_state.md R40). -/
theorem sameView_of_sameHardware {s t : State} (h : sameHardware s t) (htx : t.tx = s.tx) : sameView s t := by
  obtain ⟨hcfg, hctx, -, hready, hrej, hlast, hhave, hnote⟩ := h
  intro port
  cases port with
  | txPayload => simp [readPort, txPayload, htx]
  | frameReady => simp [readPort, hready]
  | frameRejected => simp [readPort, hcfg, hrej]
  | frameAvail => simp [readPort, frameAvail_congr hctx]
  | rxPayload => exact readHeld_congr hctx.symm _
  | rxCh i => exact readHeld_congr hctx.symm _
  | rxSw k => exact readHeld_congr hctx.symm _
  | rxFrameLost => exact readHeld_congr hctx.symm _
  | rxFailsafe => exact readHeld_congr hctx.symm _
  | syncState => simp [readPort, hctx]
  | syncNbytes => simp [readPort, hctx]
  | ddNotify => simp [readPort, hcfg, hnote]
  | ddPayload => simp [readPort, hcfg, hhave, hlast]

/-- Settles O44: the read takes its input and records the value, and no port looks at either. -/
theorem readsHaveNoSideEffect : Obligations.ReadsHaveNoSideEffect := by
  intro s t port hin ht
  rw [step_of_nextInput hin] at ht
  obtain ⟨v, hv, ht⟩ := consumerRead_next ht
  have hw : sameHardware s t := ht ▸ ⟨rfl, rfl, rfl, rfl, rfl, rfl, rfl, rfl⟩
  have htx : t.tx = s.tx := ht ▸ rfl
  have htake : readPort port s = readPort port s.takeInput :=
    sameView_of_sameHardware (sameHardware_takeInput s) rfl port
  exact ⟨hw, htx, sameView_of_sameHardware hw htx, v, htake.trans hv, ht ▸ rfl⟩

/-! ## Byte order -/

/-- The context is capturing, and its meaningful bytes are the stream `l`, in its order (20_memory.md R53). -/
structure Context.captured (x : Context) (l : List Byte) : Prop where
  state  : x.state = .capturing
  nbytes : x.nbytes.toNat = l.length
  bytes  : ∀ k : Fin 25, k.val < l.length → some (Memory.read x.buf k) = l[k.val]?

/-- A header met in the hunt is byte 0 of the capture. -/
theorem Context.captured_byte_header {x : Context} (hs : x.state = .idle) :
    (x.byte Config.header).captured [Config.header] := by
  have hx : x.byte Config.header = x.append 0 Config.header 1#5 := by simp [Context.byte, Context.next, hs]
  rw [hx]
  refine ⟨rfl, rfl, fun k hk => ?_⟩
  have hk0 : k.val = 0 := by simpa using hk
  simp [hk0]

/-- A byte after it is captured behind those already there, while there is room. -/
theorem Context.captured.byte {x : Context} {l : List Byte} (h : x.captured l) (hl : l.length ≤ 24) (b : Byte) :
    (x.byte b).captured (l ++ [b]) := by
  obtain ⟨hs, hn, hbuf⟩ := h
  have hx : x.byte b = x.append l.length b (x.nbytes + 1#5) := by
    have hlt : ¬ 25 ≤ x.nbytes.toNat := by omega
    simp [Context.byte, Context.next, hs, hlt, ← hn]
  rw [hx]
  refine ⟨rfl, ?_, fun k hk => ?_⟩
  · rw [Context.append_nbytes, List.length_append, List.length_singleton, ← hn]
    bv_omega
  · rw [List.length_append, List.length_singleton] at hk
    rw [Context.append_buf, Memory.read_write]
    split_ifs with hkl
    · simp [hkl]
    · rw [List.getElem?_append_left (by omega)]
      exact hbuf k (by omega)

/-- So is a stream of bytes. -/
theorem Context.captured.bytes_append {x : Context} {l : List Byte} (h : x.captured l) (bs : List Byte)
    (hl : l.length + bs.length ≤ 25) : (x.bytes bs).captured (l ++ bs) := by
  induction bs generalizing x l with
  | nil => rwa [List.append_nil]
  | cons b bs ih =>
    rw [List.length_cons] at hl
    have hb := ih (h.byte (by omega) b) (by rw [List.length_append, List.length_singleton]; omega)
    rwa [List.append_assoc] at hb

/-- Settles O55: the header opens the capture and each byte after it is appended, whatever it is. -/
theorem captureKeepsArrivalOrder : Obligations.CaptureKeepsArrivalOrder := by
  intro s bs hs hn hbs
  obtain ⟨t, ht, hctx, -, -, hin, -⟩ := byteRun_next (Config.header :: bs) (s := s) (.inl ⟨hs, hn⟩) (.inr hs)
  have hcap : t.ctx.captured (Config.header :: bs) := by
    rw [hctx]
    exact (Context.captured_byte_header hs).bytes_append bs (by rw [List.length_singleton]; omega)
  obtain ⟨hstate, hcount, hbuf⟩ := hcap
  exact ⟨t, (stepMany_feed_all (Config.header :: bs) s).trans ht, hin, hstate, hcount,
    fun k hk => hbuf k (Nat.lt_succ_of_le hk)⟩

/-! ## Two feeding agents -/

/-- Settles O46: the contended input has no value in any state. -/
theorem concurrentFeedFaults : Obligations.ConcurrentFeedFaults := by
  intro s c d hin
  rw [step_of_nextInput hin]
  rfl

end Sys2Proof.Machine
end

section
/-! PROOF. The statements about the keys: the decode and the encode of operations, the rows of the two decodes by
their fields, and the words of a clock cycle. -/

namespace Sys2Proof

/-! ## Encode and decode -/

/-- A well-formed operation of a pre-step row decodes from its step key. -/
theorem decodeKey_of_encode {i : Instr} {k : StepKey} (hi : i.wellFormed = true)
    (hk : encode i = some (.key k)) : decodeKey k = .ok i := by
  cases i with
  | reset e t v g s n b => cases hk; simp [decodeKey_mkKey]
  | errFlush t v g s n b => cases hk; simp [decodeKey_mkKey]
  | noByte t g s n b => cases hk; simp [decodeKey_mkKey]
  | gapFlush t s n b => cases hk; simp [decodeKey_mkKey]
  | guard t s n b =>
    cases hk
    have hn : 25 ≤ n.toNat := of_decide_eq_true hi
    simp [decodeKey_mkKey, hn]
  | _ => cases hk

/-- A well-formed operation of a dispatch row decodes from its dispatch key. -/
theorem decodeDispatch_of_encode {i : Instr} {e : DispatchKey} (hi : i.wellFormed = true)
    (he : encode i = some (.dispatch e)) : decodeDispatch e = .ok i := by
  cases i with
  | huntHdr => cases he; decide
  | huntSkip b =>
    cases he
    have hb : b ≠ Config.header := of_decide_eq_true hi
    simp [decodeDispatch_mkDispatch, hb]
  | capture n b =>
    cases he
    have hn : 1 ≤ n.toNat ∧ n.toNat ≤ 23 := of_decide_eq_true hi
    simp [decodeDispatch_mkDispatch, hn]
  | footerOk => cases he; decide
  | footerBad b =>
    cases he
    have hb : b ≠ Config.footer := of_decide_eq_true hi
    simp [decodeDispatch_mkDispatch, hb]
  | _ => cases he

/-- Settles O2, for the two formats apart: an operation has a key of one of them. -/
theorem decodeOfEncode : Obligations.DecodeOfEncode := by
  intro i w hi hw
  cases w with
  | key k => exact decodeKey_of_encode hi hw
  | dispatch e => exact decodeDispatch_of_encode hi hw

/-- What a dispatch key decodes to is well-formed and encodes to that key. -/
theorem encode_of_decodeDispatch {e : DispatchKey} {i : Instr} (h : decodeDispatch e = .ok i) :
    i.wellFormed = true ∧ encode i = some (.dispatch e) := by
  obtain ⟨s, n, b, rfl⟩ : ∃ s n b, e = mkDispatch s n b := ⟨_, _, _, (mkDispatch_fields e).symm⟩
  rw [decodeDispatch_mkDispatch] at h
  cases s with
  | idle =>
    dsimp only at h
    split_ifs at h with hn hb <;> cases h
    · subst hn hb; exact ⟨rfl, by decide⟩
    · subst hn; exact ⟨decide_eq_true hb, rfl⟩
  | capturing =>
    dsimp only at h
    split_ifs at h with hn hn24 hb <;> cases h
    · exact ⟨decide_eq_true hn, rfl⟩
    · subst hn24 hb; exact ⟨rfl, by decide⟩
    · subst hn24; exact ⟨decide_eq_true hb, rfl⟩

/-- What a step key decodes to is well-formed and encodes to that key, or, with no pre-step, to its dispatch
part. -/
theorem encode_of_decodeKey {k : StepKey} {i : Instr} (h : decodeKey k = .ok i) :
    i.wellFormed = true ∧ (encode i = some (.key k) ∨ encode i = some (.dispatch (keyDispatch k))) := by
  obtain ⟨r, e, t, v, g, s, n, b, rfl⟩ : ∃ r e t v g s n b, k = mkKey r e t v g s n b :=
    ⟨_, _, _, _, _, _, _, _, (mkKey_fields k).symm⟩
  rw [decodeKey_mkKey] at h
  rw [keyDispatch_mkKey]
  cases r
  case true => cases h; exact ⟨rfl, .inl rfl⟩
  cases e
  case true => cases h; exact ⟨rfl, .inl rfl⟩
  cases v
  case false => cases h; exact ⟨rfl, .inl rfl⟩
  cases g
  case true => cases h; exact ⟨rfl, .inl rfl⟩
  by_cases hn : 25 ≤ n.toNat
  · rw [if_pos hn] at h
    cases h
    exact ⟨decide_eq_true hn, .inl rfl⟩
  · rw [if_neg hn] at h
    obtain ⟨hi, hd⟩ := encode_of_decodeDispatch h
    exact ⟨hi, .inr hd⟩

/-- Settles O3, the two formats by the rows that their keys meet. -/
theorem encodeOfDecode : Obligations.EncodeOfDecode :=
  ⟨fun _ _ => encode_of_decodeDispatch, fun _ _ => encode_of_decodeKey⟩

/-! ## The rows by their fields -/

/-- Settles O4: on a key made from fields the decode reads those fields. -/
theorem preStepDecodeFollowsPriority : Obligations.PreStepDecodeFollowsPriority := by
  intro rst err tck vld gx s n b
  dsimp only
  rw [decodeKey_mkKey]
  refine ⟨?_, ?_, ?_, ?_, ?_, ?_⟩
  · rintro rfl; rfl
  · rintro rfl rfl; rfl
  · rintro rfl rfl rfl; rfl
  · rintro rfl rfl rfl rfl; rfl
  · rintro rfl rfl rfl rfl hn; simp [hn]
  · rintro rfl rfl rfl rfl hn; simp [show ¬ 25 ≤ n.toNat by omega]

/-- Settles O5, by the state and then the count and the byte. -/
theorem dispatchDecodeFollowsRows : Obligations.DispatchDecodeFollowsRows := by
  intro s n b
  dsimp only
  rw [decodeDispatch_mkDispatch]
  cases s with
  | idle =>
    by_cases hn : n = 0#5
    · by_cases hb : b = 0x0F#8 <;> simp [hn, hb, Config.header]
    · simp [hn]
  | capturing =>
    by_cases hn : 1 ≤ n.toNat ∧ n.toNat ≤ 23
    · have h24 : n ≠ 24#5 := by bv_omega
      have h0 : n ≠ 0#5 := by bv_omega
      have hlt : ¬ 25 ≤ n.toNat := by omega
      simp [hn, h24, h0, hlt]
    · by_cases h24 : n = 24#5
      · by_cases hb : b = 0x00#8 <;> simp [h24, hb, Config.footer]
      · have hout : n = 0#5 ∨ 25 ≤ n.toNat := by bv_omega
        simp [hn, h24, hout]

/-! ## The step -/

/-- Settles O1, each key by running the decoder on it. -/
theorem vectorKeysDecode : Obligations.VectorKeysDecode := by
  unfold Obligations.VectorKeysDecode
  decide

end Sys2Proof

namespace Sys2Proof.Machine

/-- Settles O6: taking the input leaves the step key, so the edge decodes the key of the cycle. -/
theorem stepRunsTheDecodedOperation : Obligations.StepRunsTheDecodedOperation := by
  intro s c i hc hk
  rw [step_cycle hc, clockEdge, stepKey_takeInput, hk]

/-! ## The cycle input word -/

/-- The flags and the byte of a cycle input word stand in disjoint bits. -/
theorem mkCiw_eq_or (r e t v : Bool) (b : Byte) : mkCiw r e t v b = mkCiw r e t v 0#8 ||| b.zeroExtend 12 := by
  refine BitVec.eq_of_getLsbD_eq fun i hi => ?_
  rw [BitVec.getLsbD_or, getLsbD_mkCiw, getLsbD_mkCiw]
  by_cases h8 : i < 8
  · simp [h8, hi]
  · simp [h8, BitVec.getLsbD_of_ge b i (by omega)]

/-- Settles O54: the words without a byte by evaluation, the others by adding the byte to the flags' word. -/
theorem streamOperationsEncode : Obligations.StreamOperationsEncode := by
  refine ⟨by decide, fun b => ?_, by decide, fun b => ?_, by decide, by decide⟩
  · rw [mkCiw_eq_or]; rfl
  · rw [mkCiw_eq_or]; rfl

end Sys2Proof.Machine
end

section
/-! PROOF. The spec's equations, one a channel and one a byte (30_encoding.md R75, R76): each line cuts its field
out of the data string, bit by bit. The line lemmas fill in their side conditions, closed facts about the literals
of a line, by `decide`. -/

namespace Sys2Proof.Machine

/-! ## The channel equations -/

theorem getLsbD_wide (b : Byte) (k : Nat) : (wide b).getLsbD k = b.getLsbD k := by
  by_cases hk : k < 8
  · simp [wide, show k < 19 by omega]
  · simp [wide, BitVec.getLsbD_of_ge b k (by omega)]

/-- The mask `0x7FF` and the cut to 11 bits leave the low bits alone. -/
theorem getLsbD_maskedChannel (x : BitVec 19) {k : Nat} (hk : k < 11) :
    ((x &&& 0x7FF#19).truncate 11).getLsbD k = x.getLsbD k := by
  have hmask : (0x7FF#19).getLsbD k = true := by interval_cases k <;> rfl
  rw [BitVec.truncate_eq_setWidth, BitVec.getLsbD_setWidth, BitVec.getLsbD_and, hmask]
  simp [hk]

theorem getLsbD_wide_shiftLeft (b : Byte) (l : Nat) {k : Nat} (hk : k < 19) :
    (wide b <<< l).getLsbD k = (!decide (k < l) && b.getLsbD (k - l)) := by
  rw [BitVec.getLsbD_shiftLeft, getLsbD_wide, decide_eq_true hk, Bool.true_and]

theorem getLsbD_combine2 (lo mid : Byte) (r l : Nat) {k : Nat} (hk : k < 11) :
    (combine2 lo r mid l).getLsbD k = (lo.getLsbD (r + k) || (!decide (k < l) && mid.getLsbD (k - l))) := by
  rw [combine2, getLsbD_maskedChannel _ hk, BitVec.getLsbD_or, BitVec.getLsbD_ushiftRight, getLsbD_wide,
    getLsbD_wide_shiftLeft _ _ (by omega)]

theorem getLsbD_combine3 (lo mid hi : Byte) (r l h : Nat) {k : Nat} (hk : k < 11) :
    (combine3 lo r mid l hi h).getLsbD k = (lo.getLsbD (r + k) || (!decide (k < l) && mid.getLsbD (k - l)) ||
      (!decide (k < h) && hi.getLsbD (k - h))) := by
  rw [combine3, getLsbD_maskedChannel _ hk, BitVec.getLsbD_or, BitVec.getLsbD_or, BitVec.getLsbD_ushiftRight,
    getLsbD_wide, getLsbD_wide_shiftLeft _ _ (by omega), getLsbD_wide_shiftLeft _ _ (by omega)]

section
variable (p : Payload)

/-- A bit of a channel whose lowest bit is bit `r` of wire byte `j + 1` stands in that byte or in one after it. -/
theorem channelOfData_bit {i j r k m : Nat} (hi : 11 * i = 8 * j + r) (hk : k < 11) (n : Nat) (hn : j + n < 22)
    (hm : r + k = 8 * n + m) (hm8 : m < 8) :
    (channelOfData (dataOfPayload p) i).getLsbD k = p[j + n + 1].getLsbD m := by
  rw [channelOfData_getLsbD _ _ hk, ← getLsbD_dataOfPayload p (by omega) (by omega) hm8]
  congr 1
  omega

/-- A channel that starts at bit `r` of wire byte `j + 1` and ends in the next byte. -/
theorem combine2_eq_channel {i j r l : Nat} (hi : 11 * i = 8 * j + r := by decide)
    (hj : j + 1 < 22 := by decide) (hl : r + l = 8 := by decide) (hr : r + 11 ≤ 16 := by decide) :
    combine2 p[j + 1] r p[j + 2] l = channelOfData (dataOfPayload p) i := by
  refine BitVec.eq_of_getLsbD_eq fun k hk => ?_
  rw [getLsbD_combine2 _ _ _ _ hk]
  by_cases h1 : k < l
  · rw [channelOfData_bit p hi hk 0 (m := r + k) (by omega) (by omega) (by omega)]
    simp [h1]
  · rw [channelOfData_bit p hi hk 1 (m := k - l) (by omega) (by omega) (by omega)]
    simp [h1, BitVec.getLsbD_of_ge _ (r + k) (show 8 ≤ r + k by omega)]

/-- A channel that starts at bit `r` of wire byte `j + 1`, takes the next and ends in the one after that. -/
theorem combine3_eq_channel {i j r l h : Nat} (hi : 11 * i = 8 * j + r := by decide)
    (hj : j + 2 < 22 := by decide) (hl : r + l = 8 := by decide) (hh : l + 8 = h := by decide) :
    combine3 p[j + 1] r p[j + 2] l p[j + 3] h = channelOfData (dataOfPayload p) i := by
  refine BitVec.eq_of_getLsbD_eq fun k hk => ?_
  rw [getLsbD_combine3 _ _ _ _ _ _ hk]
  by_cases h1 : k < l
  · rw [channelOfData_bit p hi hk 0 (m := r + k) (by omega) (by omega) (by omega)]
    simp [h1, show k < h by omega]
  · have hlo (b : Byte) : b.getLsbD (r + k) = false := BitVec.getLsbD_of_ge b _ (by omega)
    by_cases h2 : k < h
    · rw [channelOfData_bit p hi hk 1 (m := k - l) (by omega) (by omega) (by omega)]
      simp [h1, h2, hlo]
    · have hmid (b : Byte) : b.getLsbD (k - l) = false := BitVec.getLsbD_of_ge b _ (by omega)
      rw [channelOfData_bit p hi hk 2 (m := k - h) (by omega) (by omega) (by omega)]
      simp [h2, hlo, hmid]

end

/-- Settles O29, line by line: bit `11*i` of the data string is bit `r` of wire byte `j + 1`, and channel `i` ends
in the second or in the third byte from there. -/
theorem channelEquationsAgree : Obligations.ChannelEquationsAgree := by
  intro p
  refine Vector.ext fun i hi => ?_
  simp only [unpack, Vector.getElem_ofFn]
  interval_cases i
  exacts [combine2_eq_channel p, combine2_eq_channel p, combine3_eq_channel p, combine2_eq_channel p,
    combine2_eq_channel p, combine3_eq_channel p, combine2_eq_channel p, combine2_eq_channel p,
    combine2_eq_channel p, combine2_eq_channel p, combine3_eq_channel p, combine2_eq_channel p,
    combine2_eq_channel p, combine3_eq_channel p, combine2_eq_channel p, combine2_eq_channel p]

/-! ## The byte equations -/

theorem getLsbD_lowPart (c m : Chan) (r : Nat) {k : Nat} (hk : k < 8) :
    (lowPart c r m).getLsbD k = (c.getLsbD (r + k) && m.getLsbD k) := by
  rw [lowPart, BitVec.truncate_eq_setWidth, BitVec.getLsbD_setWidth, BitVec.getLsbD_and,
    BitVec.getLsbD_ushiftRight, decide_eq_true hk, Bool.true_and]

theorem getLsbD_highPart (c m : Chan) (l : Nat) {k : Nat} (hk : k < 8) :
    (highPart c m l).getLsbD k = (!decide (k < l) && (c.getLsbD (k - l) && m.getLsbD (k - l))) := by
  rw [highPart, BitVec.getLsbD_shiftLeft, BitVec.truncate_eq_setWidth, BitVec.getLsbD_setWidth,
    BitVec.getLsbD_and, decide_eq_true hk, decide_eq_true (show k - l < 8 by omega), Bool.true_and, Bool.true_and]

section
variable (ch : Vector Chan 16)

/-- A bit of a wire byte whose lowest bit is bit `r` of channel `i` stands in that channel or in the next. -/
theorem byteOfData_bit {i j r m k : Nat} (hj : 8 * j = 11 * i + r) (hm : m < 8) (n : Nat) (hn : i + n < 16)
    (hk : r + m = 11 * n + k) (hk11 : k < 11) :
    (byteOfData (dataOfChannels ch) (j + 1)).getLsbD m = ch[i + n].getLsbD k := by
  rw [byteOfData_getLsbD _ _ hm, ← getLsbD_dataOfChannels ch hn hk11]
  congr 1
  omega

/-- A wire byte that is the bits of channel `i` from bit `r` on. -/
theorem lowPart_eq_byte {i j r : Nat} {x : Chan} (hj : 8 * j = 11 * i + r := by decide)
    (hi : i < 16 := by decide) (hr : r + 8 ≤ 11 := by decide)
    (hx : ∀ k < 8, x.getLsbD k = true := by decide) :
    lowPart ch[i] r x = byteOfData (dataOfChannels ch) (j + 1) := by
  refine BitVec.eq_of_getLsbD_eq fun m hm => ?_
  rw [byteOfData_bit ch hj hm 0 (k := r + m) (by omega) (by omega) (by omega), getLsbD_lowPart _ _ _ hm, hx m hm]
  exact Bool.and_true _

/-- A wire byte that is the top `l` bits of channel `i` and, above them, the low bits of the next channel. -/
theorem parts_eq_byte {i j r l : Nat} {x y : Chan} (hj : 8 * j = 11 * i + r := by decide)
    (hi : i + 1 < 16 := by decide) (hr : r + l = 11 := by decide)
    (hx : ∀ k < l, x.getLsbD k = true := by decide) (hy : ∀ k < 8 - l, y.getLsbD k = true := by decide) :
    lowPart ch[i] r x ||| highPart ch[i + 1] y l = byteOfData (dataOfChannels ch) (j + 1) := by
  refine BitVec.eq_of_getLsbD_eq fun m hm => ?_
  rw [BitVec.getLsbD_or, getLsbD_lowPart _ _ _ hm, getLsbD_highPart _ _ _ hm]
  by_cases hl : m < l
  · rw [byteOfData_bit ch hj hm 0 (k := r + m) (by omega) (by omega) (by omega), hx m hl]
    simp [hl]
  · rw [byteOfData_bit ch hj hm 1 (k := m - l) (by omega) (by omega) (by omega), hy (m - l) (by omega)]
    simp [hl, BitVec.getLsbD_of_ge ch[i] (r + m) (by omega)]

/-- Line `j` gives wire byte `j + 1`: bit `8*j` of the data string is bit `r` of channel `i`, and the byte ends
in that channel or in the next. -/
theorem byteEquations_getElem {j : Nat} (hj : j < 22) :
    (byteEquations ch)[j] = byteOfData (dataOfChannels ch) (j + 1) := by
  interval_cases j
  exacts [lowPart_eq_byte ch, parts_eq_byte ch, parts_eq_byte ch, lowPart_eq_byte ch, parts_eq_byte ch,
    parts_eq_byte ch, parts_eq_byte ch, lowPart_eq_byte ch, parts_eq_byte ch, parts_eq_byte ch,
    lowPart_eq_byte ch, lowPart_eq_byte ch, parts_eq_byte ch, parts_eq_byte ch, lowPart_eq_byte ch,
    parts_eq_byte ch, parts_eq_byte ch, parts_eq_byte ch, lowPart_eq_byte ch, parts_eq_byte ch,
    parts_eq_byte ch, lowPart_eq_byte ch]

end

/-- Settles O30, line by line. -/
theorem byteEquationsAgree : Obligations.ByteEquationsAgree := by
  rintro f ⟨j, hj⟩
  have hlen : j + 1 < 25 := by omega
  have hget : (pack f).toList.getD (j + 1) 0#8 = (pack f)[j + 1] := by
    simp [List.getD_eq_getElem?_getD, hlen]
  rw [hget, pack_data f (by omega) (by omega)]
  exact byteEquations_getElem _ hj

end Sys2Proof.Machine
end

section
/-! PROOF. The statements about `PACK` and `UNPACK` (40_codec.md): what each depends on, the two round trips, and
the two operations bit by bit. -/

namespace Sys2Proof

theorem Frame.ext {f g : Frame} (hc : f.channels = g.channels) (hsw : f.switches = g.switches)
    (hl : f.frameLost = g.frameLost) (hfs : f.failsafe = g.failsafe) : f = g := by
  cases f
  cases g
  rw [Frame.mk.injEq]
  exact ⟨hc, hsw, hl, hfs⟩

end Sys2Proof

namespace Sys2Proof.Machine

/-! ## What the codec depends on -/

/-- `PACK` reads the masked channels and the flags, and nothing else of its inputs (40_codec.md R101). -/
theorem pack_congr {f g : FrameIn} (h : maskedFrame f = maskedFrame g) : pack f = pack g := by
  obtain ⟨hc, hsw, hl, hfs⟩ := Frame.mk.inj h
  rw [pack, hc, hsw, hl, hfs, pack]

theorem maskChannel_congr {c d : Nat} (h : c &&& 0x7FF = d &&& 0x7FF) : maskChannel c = maskChannel d :=
  congrArg (BitVec.ofNat 11) h

/-- Settles O24: the masked channels are equal. -/
theorem packMasksChannels : Obligations.PackMasksChannels := by
  intro f g hch hsw hl hfs
  have hc : f.channels.map maskChannel = g.channels.map maskChannel := by
    refine Vector.ext fun i hi => ?_
    rw [Vector.getElem_map, Vector.getElem_map]
    exact maskChannel_congr (hch ⟨i, hi⟩)
  exact pack_congr (Frame.ext hc hsw hl hfs)

/-- `UNPACK` reads the data string and the low half of the status byte (40_codec.md R111). -/
theorem unpack_congr {p q : Payload} (hd : dataOfPayload p = dataOfPayload q)
    (hb : p[23] &&& 0x0F#8 = q[23] &&& 0x0F#8) : unpack p = unpack q := by
  have hflag : ∀ k < 4, p[23].getLsbD k = q[23].getLsbD k := fun k hk => by
    have hm : (0x0F#8).getLsbD k = true := by interval_cases k <;> decide
    have h := congrArg (BitVec.getLsbD · k) hb
    simpa only [BitVec.getLsbD_and, hm, Bool.and_true] using h
  rw [unpack, hd, hflag 0 (by decide), hflag 1 (by decide), hflag 2 (by decide), hflag 3 (by decide), unpack]

/-- Settles O26: bytes 1..22 give the data string, and the flags are in the low half of the status byte. -/
theorem unpackIgnoresUncheckedBits : Obligations.UnpackIgnoresUncheckedBits :=
  fun _ _ hbytes hstatus => unpack_congr (dataOfPayload_congr hbytes) hstatus

/-! ## The round trip -/

/-- The flags of a packed frame (30_encoding.md R77). -/
theorem pack_flags (f : FrameIn) :
    (pack f)[23].getLsbD 0 = f.switches[0] ∧ (pack f)[23].getLsbD 1 = f.switches[1] ∧
      (pack f)[23].getLsbD 2 = f.frameLost ∧ (pack f)[23].getLsbD 3 = f.failsafe := by
  simp only [pack_status, statusByteOf_getLsbD]
  exact ⟨rfl, rfl, rfl, rfl⟩

/-- The reserved bits of its status byte are zero. -/
theorem pack_reserved (f : FrameIn) : (pack f)[23] &&& 0xF0#8 = 0x00#8 := by
  rw [pack_status]
  exact statusByteOf_reserved ..

/-- `UNPACK` inverts `PACK` up to the mask (40_codec.md R112). -/
theorem unpack_pack (f : FrameIn) : unpack (pack f) = maskedFrame f := by
  obtain ⟨hsw0, hsw1, hlost, hsafe⟩ := pack_flags f
  have hsw : (unpack (pack f)).switches = f.switches := Vector.ext fun k hk => by
    obtain rfl | rfl : k = 0 ∨ k = 1 := by omega
    · exact hsw0
    · exact hsw1
  exact Frame.ext (unpack_channels_pack f) hsw hlost hsafe

/-- The mask changes nothing of a channel of 11 bits. -/
theorem map_maskChannel_toNat (ch : Vector Chan 16) : (ch.map fun c => c.toNat).map maskChannel = ch := by
  refine Vector.ext fun i hi => ?_
  rw [Vector.getElem_map, Vector.getElem_map, maskChannel_toNat]

theorem maskedFrame_frameAsInput (f : Frame) : maskedFrame (frameAsInput f) = f :=
  congrArg (fun ch => { f with channels := ch }) (map_maskChannel_toNat f.channels)

/-- Settles O27: `UNPACK` finds the masked channels and the flags, and a `Frame` is masked already. -/
theorem unpackOfPackIsTheFrame : Obligations.UnpackOfPackIsTheFrame :=
  ⟨unpack_pack, fun f => (unpack_pack _).trans (maskedFrame_frameAsInput f)⟩

/-! ## The reverse round trip -/

/-- The data bytes of `PACK` of `UNPACK` are the payload's: the 176 bits are exactly the channels' bits. -/
theorem pack_unpack_data (p : Payload) {j : Nat} (h1 : 1 ≤ j) (hj : j ≤ 22) :
    (pack (frameAsInput (unpack p)))[j] = p[j] := by
  have hd : dataOfChannels ((frameAsInput (unpack p)).channels.map maskChannel) = dataOfPayload p :=
    (congrArg dataOfChannels (map_maskChannel_toNat _)).trans (dataOfChannels_channels _)
  rw [pack_data _ h1 hj, hd, byteOfData_dataOfPayload p h1 hj]

theorem pack_unpack_status (p : Payload) : (pack (frameAsInput (unpack p)))[23] = p[23] &&& 0x0F#8 :=
  (pack_status _).trans (statusByteOf_flags p[23])

/-- A byte whose high half is zero is its low half. -/
theorem and_low_of_and_high {b : Byte} (h : b &&& 0xF0#8 = 0x00#8) : b &&& 0x0F#8 = b := by
  calc b &&& 0x0F#8 = b &&& 0xF0#8 ||| b &&& 0x0F#8 := by rw [h, BitVec.zero_or]
    _ = b &&& BitVec.allOnes 8 := BitVec.and_or_distrib_left.symm
    _ = b := BitVec.and_allOnes

/-- Settles O28: byte by byte; the data bytes always come back, so only the ends and the reserved bits decide. -/
theorem packOfUnpackIsThePayload : Obligations.PackOfUnpackIsThePayload := by
  intro p q
  have hdata : ∀ j : Fin 25, 1 ≤ j.val → j.val ≤ 22 → q[j] = p[j] := fun j h1 hj => pack_unpack_data p h1 hj
  have hhead : q[0] = 0x0F#8 := pack_header _
  have hfoot : q[24] = 0x00#8 := pack_footer _
  have hstatus : q[23] = p[23] &&& 0x0F#8 := pack_unpack_status p
  refine ⟨hdata, hhead, hfoot, hstatus, fun h => ?_, fun ⟨h0, h24, hres⟩ => Vector.ext fun j hj => ?_⟩
  · rw [← h]
    exact ⟨hhead, hfoot, pack_reserved _⟩
  · obtain rfl | hmid | rfl | rfl : j = 0 ∨ (1 ≤ j ∧ j ≤ 22) ∨ j = 23 ∨ j = 24 := by omega
    · exact hhead.trans h0.symm
    · exact hdata ⟨j, hj⟩ hmid.1 hmid.2
    · exact hstatus.trans (and_low_of_and_high hres)
    · exact hfoot.trans h24.symm

/-! ## The two operations -/

theorem exec_pack (f : FrameIn) (s : State) :
    exec (.pack f) s = .next { s with tx := portFrame s.cfg.chInWidth f } := rfl

theorem exec_unpack (p : Payload) (s : State) : exec (.unpack p) s = .next { s with unpackOut := unpack p } := rfl

/-- Bit `k` of channel `i` stands at `D[11*i + k]` of the packed frame (40_codec.md R100). -/
theorem dataBit_pack (f : FrameIn) (i : Fin 16) {k : Nat} (hk : k < 11) :
    dataBit (pack f) (11 * i.val + k) = f.channels[i].testBit k := by
  rw [← getLsbD_dataOfPayload_eq_dataBit _ (by omega), dataOfPayload_pack, getLsbD_dataOfChannels _ i.isLt hk,
    Vector.getElem_map, maskChannel_getLsbD _ hk]
  rfl

/-- So it does of the frame on the ports, in the bits that a port has. -/
theorem dataBit_pack_portFrame (w : Nat) (f : FrameIn) (i : Fin 16) {k : Nat} (hk : k < 11) :
    dataBit (pack (portFrame w f)) (11 * i.val + k) = (decide (k < w) && f.channels[i].testBit k) := by
  have hch : (portFrame w f).channels[i] = portChannel w f.channels[i] := Vector.getElem_map ..
  rw [dataBit_pack _ i hk, hch, testBit_portChannel]

/-- Settles O23: the layout is that of `PACK` on the frame as the ports cut it. -/
theorem packLaysOutTheFrame : Obligations.PackLaysOutTheFrame := by
  intro s f
  obtain ⟨hsw0, hsw1, hlost, hsafe⟩ := pack_flags (portFrame s.cfg.chInWidth f)
  have htx : txPayload { s with tx := portFrame s.cfg.chInWidth f } = pack (portFrame s.cfg.chInWidth f) := rfl
  refine ⟨_, exec_pack f s, rfl, portFrame_of_fits, ?_⟩
  rw [htx]
  exact ⟨pack_header _, pack_footer _, fun i k => dataBit_pack_portFrame _ f i k.isLt, hsw0, hsw1, hlost, hsafe,
    pack_reserved _⟩

/-- Settles O25: the call writes `UNPACK` of its payload to `unpackOut`. -/
theorem unpackReadsTheFrame : Obligations.UnpackReadsTheFrame := fun s p =>
  ⟨_, exec_unpack p s, rfl, fun i k => unpack_channel_getLsbD p i k.isLt, rfl, rfl, rfl, rfl⟩

end Sys2Proof.Machine
end

section
/-! PROOF. A frame through the whole block (95_test_vectors.md P3): a valid payload met in the hunt is captured,
accepted on its last byte and shown on the ports, and a packed frame is one. -/

namespace Sys2Proof.Machine

/-! ## A valid payload is accepted -/

/-- A valid payload is the header, 23 bytes and the footer (30_encoding.md R71). -/
theorem validPayload.toList_eq {p : Payload} (h : validPayload p) :
    ∃ bs : List Byte, bs.length = 23 ∧ p.toList = Config.header :: bs ++ [Config.footer] := by
  obtain ⟨hhead, hfoot⟩ := h
  have hfirst : p.toList = p[0] :: p.toList.drop 1 := List.drop_eq_getElem_cons (i := 0) (by simp)
  have hlast : p.toList.drop 24 = [p[24]] := by
    rw [List.drop_eq_getElem_cons (by simp), List.drop_of_length_le (by simp)]
    rfl
  refine ⟨(p.toList.drop 1).take 23, by simp, ?_⟩
  calc p.toList = p[0] :: p.toList.drop 1 := hfirst
    _ = p[0] :: ((p.toList.drop 1).take 23 ++ p.toList.drop 24) := by
      rw [← List.drop_drop (i := 23) (j := 1), List.take_append_drop]
    _ = Config.header :: (p.toList.drop 1).take 23 ++ [Config.footer] := by
      rw [hlast, hhead, hfoot, List.cons_append]

/-- A capture of 25 bytes is the whole buffer. -/
theorem Context.captured.buf_eq {x : Context} {p : Payload} (h : x.captured p.toList) : x.buf = p := by
  refine Memory.ext_read fun a => ?_
  have hb := h.bytes a (by simp)
  rw [Vector.getElem?_toList, Vector.getElem?_eq_getElem a.isLt] at hb
  exact Option.some.inj hb

/-- The state that has captured a valid payload holds it (10_state.md R23). -/
theorem Context.captured.holds {s : State} {p : Payload} (h : s.ctx.captured p.toList) (hv : validPayload p) :
    s.holds p := by
  have hn : s.ctx.nbytes = 25#5 := BitVec.eq_of_toNat_eq (by rw [h.nbytes]; simp)
  have hfoot : Memory.read s.ctx.buf 24 = Config.footer := by rw [h.buf_eq]; exact hv.2
  rw [State.holds, heldPayload, if_pos ((frameAvail_iff s).mpr ⟨h.state, hn, hfoot⟩), h.buf_eq]

/-- A valid payload fed from (IDLE, 0) is accepted on its last byte, and then held (41_sync.md R139). -/
theorem byteRun_validPayload {p : Payload} (hv : validPayload p) {s : State} (hs : s.ctx.state = .idle)
    (hn : s.ctx.nbytes = 0#5) :
    ∃ t, byteRun p.toList s = .next t ∧ t.frameReadyQ = true ∧ t.holds p ∧ t.tx = s.tx ∧ t.inputs = s.inputs := by
  obtain ⟨bs, hlen, hp⟩ := hv.toList_eq
  obtain ⟨u, hu, hctx, -, hutx, huin, hul, huq⟩ :=
    byteRun_next (Config.header :: bs) (s := s) (.inl ⟨hs, hn⟩) (.inr hs)
  obtain ⟨t, ht, htctx, hready, -, -, httx, htin, -⟩ := clockEdge_byte Config.footer hul huq
  have hcap : u.ctx.captured (Config.header :: bs) := by
    rw [hctx]
    exact (Context.captured_byte_header hs).bytes_append bs (by rw [List.length_singleton]; omega)
  have hacc : u.ctx.accepts false false true false Config.footer = true := by
    have hu24 : u.ctx.nbytes = 24#5 := BitVec.eq_of_toNat_eq (by rw [hcap.nbytes, List.length_cons, hlen]; rfl)
    simp [Context.accepts, hcap.state, hu24]
  have hheld : t.ctx.captured p.toList := by
    rw [htctx, hp]
    exact hcap.byte (by rw [List.length_cons, hlen]) Config.footer
  refine ⟨t, ?_, hready.trans hacc, hheld.holds hv, httx.trans hutx, htin.trans huin⟩
  rw [hp, byteRun_append, hu, andThen_next, byteRun, ht]
  rfl

/-! ## The frame through the block -/

/-- A port on the held frame shows it. -/
theorem State.holds.readHeld {t : State} {p : Payload} (h : t.holds p) (f : Payload → PortValue) :
    readHeld t f = .next (f p) := by
  rw [Machine.readHeld, show heldPayload t = some p from h]

/-- `FRAME f` drives the inputs of `PACK` and then feeds the packed payload (30_encoding.md R87, R88). -/
theorem stepMany_frame (f : FrameIn) (s : State) :
    stepMany 26 { s with inputs := StreamOp.inputs (.frame f) ++ s.inputs } =
      byteRun (pack f).toList { s with tx := portFrame s.cfg.chInWidth f } := by
  have hpack : step { s with inputs := StreamOp.inputs (.frame f) ++ s.inputs } =
      .next (State.feed { s with tx := portFrame s.cfg.chInWidth f } (pack f).toList) := rfl
  rw [stepMany_succ, hpack, andThen_next, ← stepMany_feed_all, Vector.length_toList]

/-- Settles O60: the payload of `FRAME` is valid, so it is held after its bytes, and `UNPACK` inverts `PACK`. -/
theorem frameThroughTheBlock : Obligations.FrameThroughTheBlock := by
  intro s f hs hn
  obtain ⟨t, ht, hready, hheld, htx, hin⟩ :=
    byteRun_validPayload (validPayload_pack f) (s := { s with tx := portFrame s.cfg.chInWidth f }) hs hn
  have hport : ∀ g : Frame → PortValue, readHeld t (fun p => g (unpack p)) = .next (g (maskedFrame f)) := fun g => by
    rw [hheld.readHeld, unpack_pack]
  refine ⟨t, (stepMany_frame f s).trans ht, hin, hready, hheld, fun hfit => ?_, fun i => ?_, fun k => ?_,
    hport fun fr => .bit fr.frameLost, hport fun fr => .bit fr.failsafe⟩
  · rw [txPayload, htx]
    exact congrArg pack (portFrame_of_fits hfit)
  · refine (hport fun fr => .chan fr.channels[i]).trans ?_
    exact congrArg (Host.Outcome.next ∘ PortValue.chan) (Vector.getElem_map ..)
  · exact hport fun fr => .bit fr.switches[k]

end Sys2Proof.Machine
end

section
/-! PROOF. The statements about the synchronizer's operations one at a time (41_sync.md R131 to R140), and the error
cycle: what each writes of the context and its outputs, and that nothing else changes. -/

namespace Sys2Proof.Machine

/-! ## `INGEST` -/

/-- The byte rules give a next state at every count: `CAPTURE` is selected inside the buffer only. -/
theorem byteRules_next (st : SyncState) (n : Count) (b : Byte) (s : State) :
    ∃ t, s.byteRules st n b = .next t := by
  cases st with
  | idle => exact ⟨_, rfl⟩
  | capturing =>
    unfold State.byteRules
    split_ifs with hn
    · exact ⟨_, if_pos (show n.toNat < Config.frameLen by unfold Config.frameLen; omega)⟩
    · exact ⟨_, rfl⟩
    · exact ⟨_, rfl⟩

/-- `INGEST` completes in every legal context. -/
theorem execIngest_next {s : State} (h : s.ctx.legal) (r e v g : Bool) (b : Byte) :
    ∃ t, execIngest r e v g b s = .next t := by
  unfold execIngest
  rw [ifLegal_of_legal h]
  split_ifs
  case neg => exact byteRules_next ..
  all_goals exact ⟨_, rfl⟩

/-- In a legal context every key decodes to an operation (60_exceptions.md R200). -/
theorem exists_decodeKey {s : State} (h : s.ctx.legal) (r e t v g : Bool) (b : Byte) :
    ∃ i, decodeKey (mkKey r e t v g s.ctx.state s.ctx.nbytes b) = .ok i := by
  cases hk : decodeKey (mkKey r e t v g s.ctx.state s.ctx.nbytes b) with
  | ok i => exact ⟨i, rfl⟩
  | error x => exact absurd h (not_legal_of_error hk).2

/-- Settles O8: the pseudocode is the decoded operation, and it completes in a legal context. -/
theorem ingestIsTheDecodedStep : Obligations.IngestIsTheDecodedStep := by
  intro s rst err tck vld gx b
  refine ⟨fun h => ?_, fun i => execIngest_of_decode, fun x => execIngest_of_error⟩
  obtain ⟨i, hi⟩ := exists_decodeKey h rst err tck vld gx b
  obtain ⟨t, ht⟩ := execIngest_next h rst err vld gx b
  exact ⟨i, t, hi, (execIngest_of_decode hi).symm.trans ht, ht⟩

/-! ## Frames -/

/-- A step that writes the context and its outputs leaves everything outside the synchronizer. -/
theorem sameOutsideSync_signal (s : State) (x : Context) (ops : List Op) (r j : Bool) :
    sameOutsideSync s ((s.setCtx x).signal ops r j) :=
  ⟨rfl, rfl, rfl, rfl, rfl, rfl, rfl, rfl, rfl, rfl, rfl⟩

/-- The record of a delivery is no part of what is outside the synchronizer. -/
theorem sameOutsideSync.deliver {s t : State} (h : sameOutsideSync s t) : sameOutsideSync s t.deliver :=
  ⟨h.cfg, h.gapCnt, h.ddLast, h.ddHave, h.ddNotifyQ, h.tx, h.unpackOut, h.inputs, h.index, h.notified, h.lastRead⟩

/-- An append writes one byte. -/
theorem Context.sameBytesExcept_append (x : Context) (i : Nat) (b : Byte) (n : Count) :
    sameBytesExcept i x.buf (x.append i b n).buf :=
  fun _ ha => Memory.read_write_ne x.buf b ha

theorem frameAvail_of_nbytes {s : State} (h : s.ctx.nbytes ≠ 25#5) : frameAvail s = false := by
  simp [frameAvail, h]

/-! ## Flushes and no byte -/

/-- Settles O11: the flush forgets the state and the count, so a flush of a flushed context is the same. -/
theorem errFlushForcesIdle : Obligations.ErrFlushForcesIdle := by
  intro s t v g st n b h
  refine ⟨s.errorFlush, exec_errFlush h t v g st n b, rfl, rfl, fun _ => rfl, rfl, rfl, frameAvail_of_idle rfl,
    sameOutsideSync_signal .., rfl, fun hs hn => ?_, exec_errFlush (Context.flush_legal s.ctx) t v g st n b⟩
  show s.ctx.flush = s.ctx
  rw [Context.flush, ← hs, ← hn]

/-- Settles O13: no byte, no write. -/
theorem noByteKeepsTheContext : Obligations.NoByteKeepsTheContext := by
  intro s t g st n b h
  exact ⟨s.noByte, exec_noByte h t g st n b, rfl, rfl, rfl, rfl, rfl, sameOutsideSync_signal s s.ctx .., rfl⟩

/-- An edge that is no reset and accepts no frame keeps the history of the duplicate-suppression stage. -/
theorem besideStep_keeps_history {c : Ciw} {i : Instr} (u : State) (hr : ciwRst c = false) (hi : i ≠ .footerOk) :
    (u.besideStep c i).ddLast = u.ddLast ∧ (u.besideStep c i).ddHave = u.ddHave := by
  cases hd : u.cfg.hasDedup with
  | false =>
    obtain ⟨hlast, hhave, -⟩ := besideStep_dedup_absent c i u hd
    exact ⟨hlast, hhave⟩
  | true =>
    obtain ⟨hlast, hhave, -⟩ := besideStep_dedup_other c i u hd hr hi
    exact ⟨hlast, hhave⟩

/-- An error neither clears nor stops the gap counter, with a byte or without (42_resync.md R171). -/
theorem nextGapCount_error (p : Config.Params) (v t : Bool) (g : Nat) :
    nextGapCount p.gapCntWidth false true v t g = if t = true ∧ g < p.gapMax then g + 1 else g := by
  cases t <;> simp [nextGapCount, isDelivery, satInc, Config.Params.gapMax]

/-- Settles O12: an error cycle runs `ERR_FLUSH` whatever its byte, and is no delivery. -/
theorem errorCycleDropsTheByte : Obligations.ErrorCycleDropsTheByte := by
  intro s t v b h hin
  have hx := exec_errFlush (s := s.takeInput) h t v (gapExceeded s) s.ctx.state s.ctx.nbytes b
  have hi := Selects.errFlush (c := mkCiw false true t v b) (s := s) (by simp) (by simp)
  simp only [ciwTck_mkCiw, ciwVld_mkCiw, ciwByte_mkCiw] at hi
  obtain ⟨hlast, hhave⟩ := besideStep_keeps_history (c := mkCiw false true t v b) s.takeInput.errorFlush (by simp)
    (i := .errFlush t v (gapExceeded s) s.ctx.state s.ctx.nbytes b) nofun
  refine ⟨_, (step_cycle_next_iff hin).mpr ⟨_, _, hi, hx, rfl⟩, ?_, ?_, ?_, ?_, hlast, hhave⟩
  · simp [State.errorFlush]
  · simp [State.errorFlush]
  · simp [State.errorFlush]
  · rw [besideStep_gapCnt, ciwRst_mkCiw, ciwErr_mkCiw, ciwVld_mkCiw, ciwTck_mkCiw]
    exact nextGapCount_error s.cfg v t s.gapCnt

/-! ## The hunt -/

/-- A header met in the hunt starts a capture: byte 0 is written and no other. -/
theorem huntHeader_effect (pre : List Op) (s : State) :
    Memory.read (s.huntHeader pre).ctx.buf 0 = Config.header ∧
      sameBytesExcept 0 s.ctx.buf (s.huntHeader pre).ctx.buf :=
  ⟨Memory.read_write_same s.ctx.buf 0 Config.header, Context.sameBytesExcept_append s.ctx 0 Config.header 1#5⟩

/-- Settles O16: the key is the row's match, and the operation is the header rule of the hunt. -/
theorem huntHdrStartsCapture : Obligations.HuntHdrStartsCapture := by
  refine ⟨by decide, fun s h => ?_⟩
  obtain ⟨hbyte, hbuf⟩ := huntHeader_effect [] s
  exact ⟨s.huntHeader [], exec_huntHdr h, rfl, rfl, hbyte, hbuf, rfl, rfl, sameOutsideSync_signal .., rfl⟩

/-- Settles O17: the skip writes the flushed context, which keeps `buf`. -/
theorem huntSkipDiscardsTheByte : Obligations.HuntSkipDiscardsTheByte := by
  intro s b h hb
  refine ⟨?_, s.huntSkip [], exec_huntSkip h b, rfl, rfl, fun _ => rfl, rfl, rfl, sameOutsideSync_signal .., rfl⟩
  rw [decodeDispatch_mkDispatch]
  exact if_neg hb

/-- A hunt after a flush: a header starts a capture at once, any other byte leaves (IDLE, 0), and no frame is held or
signalled. -/
theorem hunt_flush_effect (pre : List Op) (b : Byte) (s : State) :
    let u := State.hunt pre b (s.setCtx s.ctx.flush)
    (b = Config.header → u.ctx.state = .capturing ∧ u.ctx.nbytes = 1#5 ∧
        Memory.read u.ctx.buf 0 = Config.header ∧ sameBytesExcept 0 s.ctx.buf u.ctx.buf) ∧
      (b ≠ Config.header → u.ctx.state = .idle ∧ u.ctx.nbytes = 0#5 ∧
        ∀ a, Memory.read u.ctx.buf a = Memory.read s.ctx.buf a) ∧
      u.frameReadyQ = false ∧ u.frameRejectedQ = false ∧ frameAvail u = false ∧
      sameOutsideSync s u ∧ u.obs.delivered = s.obs.delivered := by
  intro u
  by_cases hb : b = Config.header
  · have hu : u = (s.setCtx s.ctx.flush).huntHeader pre := if_pos hb
    obtain ⟨hbyte, hbuf⟩ := huntHeader_effect pre (s.setCtx s.ctx.flush)
    rw [hu]
    exact ⟨fun _ => ⟨rfl, rfl, hbyte, hbuf⟩, fun h => absurd hb h, rfl, rfl,
      frameAvail_of_nbytes (show (1#5 : Count) ≠ 25#5 by decide), hu ▸ hunt_flush_frame pre b s, rfl⟩
  · have hu : u = (s.setCtx s.ctx.flush).huntSkip pre := if_neg hb
    rw [hu]
    exact ⟨fun h => absurd h hb, fun _ => ⟨rfl, rfl, fun _ => rfl⟩, rfl, rfl, frameAvail_of_idle rfl,
      hu ▸ hunt_flush_frame pre b s, rfl⟩

/-- Settles O14, from the hunt after a flush. -/
theorem gapFlushThenHunts : Obligations.GapFlushThenHunts := by
  intro s t st n b h
  exact ⟨by simp [decodeKey_mkKey], _, exec_gapFlush h t st n b, hunt_flush_effect [.gapFlush] b s⟩

/-- A full count in a legal context is 25, in CAPTURING (10_state.md R21). -/
theorem Context.full_of_legal {x : Context} (h : x.legal) (hn : 25 ≤ x.nbytes.toNat) :
    x.state = .capturing ∧ x.nbytes = 25#5 := by
  obtain ⟨-, h0⟩ | ⟨hs, -, hle⟩ := h
  · rw [h0] at hn
    exact absurd hn (by decide)
  · exact ⟨hs, BitVec.eq_of_toNat_eq (Nat.le_antisymm hle hn)⟩

/-- A byte with no gap at a count of 25 or more meets the overflow guard (30_encoding.md R82). -/
theorem decodeKey_guard (t : Bool) (st : SyncState) {n : Count} (hn : 25 ≤ n.toNat) (b : Byte) :
    decodeKey (mkKey false false t true false st n b) = .ok (.guard t st n b) := by
  simp [decodeKey_mkKey, hn]

/-- Settles O15, from the hunt after a flush, as O14; the count selects the row. -/
theorem guardDiscardsThenHunts : Obligations.GuardDiscardsThenHunts := by
  intro s t st n b h hn
  refine ⟨decodeKey_guard t st hn b, ?_, _, exec_guard h t st n b, hunt_flush_effect [.guard] b s⟩
  rintro rfl
  exact Context.full_of_legal h hn

/-! ## The capture -/

/-- Settles O18: the count fits its register, so the next count is one more and is no full capture. -/
theorem captureAppendsTheByte : Obligations.CaptureAppendsTheByte := by
  intro s n b h hlo hhi
  have hn : (n + 1#5).toNat = n.toNat + 1 := by bv_omega
  refine ⟨?_, _, exec_capture h (by omega) b, rfl, hn, fun a ha => ?_,
    Context.sameBytesExcept_append s.ctx _ _ _, rfl, rfl,
    frameAvail_of_nbytes (show n + 1#5 ≠ 25#5 by bv_omega), sameOutsideSync_signal .., rfl⟩
  · rw [decodeDispatch_mkDispatch]
    exact if_pos ⟨hlo, hhi⟩
  · exact (Memory.read_write ..).trans (if_pos ha)

/-- Settles O19: the byte written at 24 is the footer, which is what `frame_avail` asks. -/
theorem footerOkSignalsReady : Obligations.FooterOkSignalsReady := by
  refine ⟨by decide, fun s h => ?_⟩
  have hbyte : Memory.read s.acceptFrame.ctx.buf 24 = Config.footer :=
    Memory.read_write_same s.ctx.buf 24 Config.footer
  exact ⟨s.acceptFrame, exec_footerOk h, rfl, rfl, hbyte, Context.sameBytesExcept_append s.ctx _ _ _, rfl, rfl,
    (frameAvail_iff _).mpr ⟨rfl, rfl, hbyte⟩, (sameOutsideSync_signal ..).deliver, rfl,
    decodeKey_guard false .capturing (n := 25#5) (by decide)⟩

/-- Settles O20: the byte written at 24 is not the footer, so nothing is held. -/
theorem footerBadRejects : Obligations.FooterBadRejects := by
  intro s b h hb
  have hbyte : Memory.read (s.rejectFrame b).ctx.buf 24 = b := Memory.read_write_same s.ctx.buf 24 b
  have hav : frameAvail (s.rejectFrame b) = false := by
    rw [Bool.eq_false_iff, Ne, frameAvail_iff, hbyte]
    exact fun ⟨_, _, hf⟩ => hb hf
  refine ⟨?_, s.rejectFrame b, exec_footerBad h b, rfl, rfl, hbyte,
    Context.sameBytesExcept_append s.ctx _ _ _, rfl, rfl, hav,
    sameOutsideSync_signal .., rfl, decodeKey_guard false .capturing (n := 25#5) (by decide)⟩
  rw [decodeDispatch_mkDispatch]
  exact if_neg hb

end Sys2Proof.Machine
end

section
/-! PROOF. A flushed context is a fresh one (41_sync.md R142). Two machines are alike when the consumer of the
synchronizer cannot tell them apart, now or after any cycles: `buf` at and above the count, and the gap counter while
hunting, are not looked at. -/

namespace Sys2Proof.Machine

/-! ## Contexts that are alike -/

/-- The contexts agree on the state, the count and the meaningful bytes. -/
structure Context.alike (x y : Context) : Prop where
  state  : x.state = y.state
  nbytes : x.nbytes = y.nbytes
  bytes  : ∀ a : Fin 25, a.val < x.nbytes.toNat → Memory.read x.buf a = Memory.read y.buf a

/-- A flush forgets the capture: any two flushed contexts are alike. -/
theorem Context.alike_flush (x y : Context) : x.flush.alike y.flush :=
  ⟨rfl, rfl, fun a ha => absurd ha (Nat.not_lt_zero a.val)⟩

/-- A write below the next count fills the place of the byte that may differ. -/
theorem Context.alike_append {x y : Context} {i : Nat} {n : Count} (b : Byte)
    (h : ∀ a : Fin 25, a.val < n.toNat → a.val ≠ i → Memory.read x.buf a = Memory.read y.buf a) :
    (x.append i b n).alike (y.append i b n) := by
  refine ⟨rfl, rfl, fun a ha => ?_⟩
  rw [Context.append_buf, Context.append_buf, Memory.read_write, Memory.read_write]
  split_ifs with hai
  · rfl
  · exact h a ha hai

/-- A cycle keeps contexts alike. -/
theorem Context.alike.next {x y : Context} (h : x.alike y) (r e v g : Bool) (b : Byte) :
    (x.next r e v g b).alike (y.next r e v g b) := by
  unfold Context.next
  rw [← h.state, ← h.nbytes]
  split_ifs
  · exact alike_flush x y
  · exact h
  · exact alike_append _ fun a ha ha0 => absurd ha0 (by simpa using ha)
  · exact alike_flush x y
  · exact alike_append b fun a ha han => h.bytes a (by bv_omega)

/-- Full contexts that are alike are equal. -/
theorem Context.alike.eq_of_full {x y : Context} (h : x.alike y) (hn : x.nbytes = 25#5) : x = y := by
  obtain ⟨st, n, buf⟩ := x
  obtain ⟨st', n', buf'⟩ := y
  obtain ⟨rfl, rfl, hbytes⟩ := h
  subst hn
  exact congrArg (Context.mk st 25#5) (Memory.ext_read fun a => hbytes a a.isLt)

/-- Contexts that are alike accept at the same cycles. -/
theorem Context.alike.accepts_eq {x y : Context} (h : x.alike y) (r e v g : Bool) (b : Byte) :
    x.accepts r e v g b = y.accepts r e v g b := by
  rw [Context.accepts, h.state, h.nbytes, Context.accepts]

/-- In the hunt an exceeded gap changes nothing. -/
theorem Context.next_of_idle {x : Context} (h : x.state = .idle) (r e v g g' : Bool) (b : Byte) :
    x.next r e v g b = x.next r e v g' b := by
  simp [Context.next, h]

theorem Context.accepts_of_idle {x : Context} (h : x.state = .idle) (r e v g : Bool) (b : Byte) :
    x.accepts r e v g b = false := by
  simp [Context.accepts, h]

theorem Context.accepts_of_gap (x : Context) (r e v : Bool) (b : Byte) : x.accepts r e v true b = false := by
  simp [Context.accepts]

/-- A byte after an exceeded gap is a byte in the flushed context (41_sync.md R133). -/
theorem Context.next_gap (x : Context) (g : Bool) (b : Byte) :
    x.next false false true true b = x.flush.next false false true g b := by
  simp [Context.next, Context.append]

/-- A capture after a cycle was one before it, or the cycle delivered its byte. -/
theorem Context.capturing_of_next {x : Context} {r e v g : Bool} {b : Byte}
    (h : (x.next r e v g b).state = .capturing) : x.state = .capturing ∨ isDelivery r e v = true := by
  unfold Context.next at h
  split_ifs at h with hre hv
  · cases h
  · exact .inl h
  all_goals
    simp only [Bool.or_eq_true, not_or, Bool.not_eq_true, Bool.not_eq_eq_eq_not, Bool.not_true,
      Bool.not_eq_false] at hre hv
    exact .inr (by simp [isDelivery, hre, hv])

/-! ## Machines that are alike -/

/-- The consumer of the synchronizer cannot tell the two machines apart. -/
structure State.alike (s t : State) : Prop where
  cfg    : s.cfg = t.cfg
  inputs : s.inputs = t.inputs
  legal  : s.ctx.legal
  legal' : t.ctx.legal
  ctx    : s.ctx.alike t.ctx
  ready  : s.frameReadyQ = t.frameReadyQ
  gap    : s.ctx.state = .capturing → s.gapCnt = t.gapCnt

/-- It sees the same of both. -/
theorem State.alike.view {s t : State} (h : s.alike t) : sameSyncView s t := by
  by_cases hn : s.ctx.nbytes = 25#5
  · have hctx := h.ctx.eq_of_full hn
    exact ⟨h.ready, frameAvail_congr hctx, heldPayload_congr hctx⟩
  · have hs := frameAvail_of_nbytes hn
    have ht := frameAvail_of_nbytes (h.ctx.nbytes ▸ hn)
    exact ⟨h.ready, hs.trans ht.symm, by rw [heldPayload, heldPayload, hs, ht]; rfl⟩

/-- One cycle makes two machines alike where it takes their contexts to contexts that are alike, with the same signal
and the same gap count. -/
theorem clockEdge_alike_of {c : Ciw} {s t : State} (hcfg : s.cfg = t.cfg) (hin : s.inputs = t.inputs)
    (hs : s.ctx.legal) (ht : t.ctx.legal)
    (hctx : (s.ctx.next (ciwRst c) (ciwErr c) (ciwVld c) (gapExceeded s) (ciwByte c)).alike
      (t.ctx.next (ciwRst c) (ciwErr c) (ciwVld c) (gapExceeded t) (ciwByte c)))
    (hacc : s.ctx.accepts (ciwRst c) (ciwErr c) (ciwVld c) (gapExceeded s) (ciwByte c) =
      t.ctx.accepts (ciwRst c) (ciwErr c) (ciwVld c) (gapExceeded t) (ciwByte c))
    (hgap : s.ctx.state = .capturing → isDelivery (ciwRst c) (ciwErr c) (ciwVld c) = false → s.gapCnt = t.gapCnt) :
    ∃ s' t', clockEdge c s = .next s' ∧ clockEdge c t = .next t' ∧ s'.alike t' := by
  obtain ⟨s', hs', hsctx, hsready, -, hsgap, hscfg, hsin, -⟩ := clockEdge_effect c hs
  obtain ⟨t', ht', htctx, htready, -, htgap, htcfg, htin, -⟩ := clockEdge_effect c ht
  refine ⟨s', t', hs', ht', ?_⟩
  rw [← hsctx, ← htctx] at hctx
  exact
    { cfg := by rw [hscfg, htcfg, hcfg]
      inputs := by rw [hsin, htin, hin]
      legal := hsctx ▸ Context.legal_next hs
      legal' := htctx ▸ Context.legal_next ht
      ctx := hctx
      ready := by rw [hsready, htready, hacc]
      gap := fun hcap => by
        rw [hsgap, htgap, hcfg]
        cases hd : isDelivery (ciwRst c) (ciwErr c) (ciwVld c) with
        | true => simp [nextGapCount, hd]
        | false =>
          rw [hsctx] at hcap
          rw [hgap ((Context.capturing_of_next hcap).resolve_right (by simp [hd])) hd] }

/-- Every cycle keeps machines alike. -/
theorem State.alike.clockEdge {s t : State} (h : s.alike t) (c : Ciw) :
    ∃ s' t', clockEdge c s = .next s' ∧ clockEdge c t = .next t' ∧ s'.alike t' := by
  cases hst : s.ctx.state with
  | idle =>
    have ht : t.ctx.state = .idle := h.ctx.state ▸ hst
    refine clockEdge_alike_of h.cfg h.inputs h.legal h.legal' ?_ ?_ (fun hc _ => h.gap hc)
    · rw [Context.next_of_idle hst _ _ _ (gapExceeded s) (gapExceeded t)]
      exact h.ctx.next ..
    · rw [Context.accepts_of_idle hst, Context.accepts_of_idle ht]
  | capturing =>
    have hg : gapExceeded s = gapExceeded t := by rw [gapExceeded, gapExceeded, h.gap hst, h.cfg]
    refine clockEdge_alike_of h.cfg h.inputs h.legal h.legal' ?_ ?_ (fun hc _ => h.gap hc)
    · rw [hg]
      exact h.ctx.next ..
    · rw [hg]
      exact h.ctx.accepts_eq ..

/-! ## Runs -/

/-- A source of cycles alone presents a cycle, an idle one where it has none left. -/
theorem nextInput_cycle {s : State} (h : ∀ i ∈ s.inputs, i.isCycle = true) : ∃ c, nextInput s = .cycle c := by
  unfold nextInput
  cases hin : s.inputs with
  | nil => exact ⟨idleCiw, rfl⟩
  | cons i is =>
    have hi := h i (hin ▸ List.mem_cons_self)
    cases i with
    | cycle c => exact ⟨c, rfl⟩
    | _ => cases hi

theorem nextInput_congr {s t : State} (h : s.inputs = t.inputs) : nextInput s = nextInput t := by
  rw [nextInput, h, nextInput]

theorem State.alike.takeInput {s t : State} (h : s.alike t) : s.takeInput.alike t.takeInput :=
  ⟨h.cfg, congrArg List.tail h.inputs, h.legal, h.legal', h.ctx, h.ready, h.gap⟩

/-- After a cycle the pending inputs are cycles still. -/
theorem isCycle_of_clockEdge {c : Ciw} {s t : State} (hc : ∀ i ∈ s.inputs, i.isCycle = true)
    (ht : clockEdge c s.takeInput = .next t) : ∀ i ∈ t.inputs, i.isCycle = true := by
  obtain ⟨-, -, -, hin⟩ := clockEdge_frame ht
  rw [hin]
  exact fun i hi => hc i (List.mem_of_mem_tail hi)

/-- Machines that are alike show the same after any cycles. -/
theorem State.alike.stepMany {s t : State} (h : s.alike t) (k : Nat) (hc : ∀ i ∈ s.inputs, i.isCycle = true) :
    outcomesAgree sameSyncView (stepMany k s) (stepMany k t) := by
  induction k generalizing s t with
  | zero => exact h.view
  | succ k ih =>
    obtain ⟨c, hin⟩ := nextInput_cycle hc
    obtain ⟨s', t', hs', ht', h'⟩ := h.takeInput.clockEdge c
    rw [stepMany_succ, stepMany_succ, step_cycle hin, step_cycle ((nextInput_congr h.inputs).symm.trans hin), hs', ht']
    exact ih h' (isCycle_of_clockEdge hc hs')

/-- A machine flushed by an error is alike to a reset one. -/
theorem alike_errorFlush_sessionReset {s w : State} (hcfg : s.cfg = w.cfg) (hin : s.inputs = w.inputs) :
    s.errorFlush.alike w.sessionReset :=
  ⟨hcfg, hin, Context.flush_legal _, Context.flush_legal _, Context.alike_flush _ _, rfl, nofun⟩

/-- A delivery preceded by a gap flush makes a machine alike to a reset one that takes the same delivery. -/
theorem clockEdge_alike_of_gap {c : Ciw} {s w : State} (hcfg : s.cfg = w.cfg) (hin : s.inputs = w.inputs)
    (hl : s.ctx.legal) (hd : isDelivery (ciwRst c) (ciwErr c) (ciwVld c) = true) (hg : gapExceeded s = true) :
    ∃ s' v', clockEdge c s = .next s' ∧ clockEdge c w.sessionReset = .next v' ∧ s'.alike v' := by
  obtain ⟨⟨hr, he⟩, hv⟩ : (ciwRst c = false ∧ ciwErr c = false) ∧ ciwVld c = true := by
    simpa [isDelivery] using hd
  refine clockEdge_alike_of (by exact hcfg) (by exact hin) hl (Context.flush_legal _) ?_ ?_ fun _ hn => ?_
  · rw [hr, he, hv, hg, Context.next_gap _ (gapExceeded w.sessionReset)]
    exact (Context.alike_flush s.ctx w.ctx).next ..
  · rw [hg, Context.accepts_of_gap, Context.accepts_of_idle rfl]
  · rw [hd] at hn
    cases hn

/-- Settles O53: the flushed machine and the reset one are alike, after the error flush at once and after the gap flush
with the delivery that it precedes. -/
theorem flushIsAFreshContext : Obligations.FlushIsAFreshContext := by
  refine ⟨fun s w u v k t x g st n b hcfg hin hc hu hv => ?_,
    fun s w v k c e t x g st n b hcfg hin hc hl hnext hd hg hv => ?_⟩
  · cases (ifLegal_eq_next.mp hu).2
    cases hv
    exact (alike_errorFlush_sessionReset hcfg hin).stepMany k hc
  · cases hv
    obtain ⟨s', v', hs', hv', h⟩ :=
      clockEdge_alike_of_gap (s := s.takeInput) (w := w.takeInput) hcfg (congrArg List.tail hin) hl hd hg
    have hnext' : nextInput w.sessionReset = .cycle c := (nextInput_congr hin).symm.trans hnext
    rw [stepMany_succ, stepMany_succ, step_cycle hnext, step_cycle hnext', hs',
      show clockEdge c w.sessionReset.takeInput = .next v' from hv']
    exact h.stepMany k (isCycle_of_clockEdge hc hs')

end Sys2Proof.Machine
end

section
/-! PROOF. Byte streams (41_sync.md R145 to R149): a stream is silent while no byte of it can be the 25th of a capture,
and a header met in the hunt starts a capture of exactly 25 bytes, ready on the last where that is the footer. -/

namespace Sys2Proof.Machine

/-! ## The next byte is hunted -/

/-- The next byte is examined as a header: in the hunt, and at the overflow guard. -/
def Context.hunts (x : Context) : Prop := x.state = .idle ∨ 25 ≤ x.nbytes.toNat

theorem Context.byte_of_hunts {x : Context} (h : x.hunts) (b : Byte) :
    x.byte b = if b = Config.header then x.append 0 Config.header 1#5 else x.flush := by
  obtain h | h := h <;> simp [Context.byte, Context.next, h]

theorem Context.byte_of_not_hunts {x : Context} (h : ¬ x.hunts) (b : Byte) :
    x.byte b = x.append x.nbytes.toNat b (x.nbytes + 1#5) := by
  obtain ⟨hs, hn⟩ := not_or.mp h
  simp [Context.byte, Context.next, hs, hn]

theorem Context.accepts_of_hunts {x : Context} (h : x.hunts) (b : Byte) :
    x.accepts false false true false b = false := by
  obtain h | h := h
  · exact accepts_of_idle h ..
  · simp [Context.accepts, show x.nbytes ≠ 24#5 by bv_omega]

/-- A byte that is no header leaves (IDLE, 0). -/
theorem Context.byte_flushes {x : Context} (h : x.hunts) {b : Byte} (hb : b ≠ Config.header) :
    x.byte b = x.flush := by
  rw [byte_of_hunts h, if_neg hb]

/-- Noise without a header leaves the hunt as it is. -/
theorem Context.bytes_noise {x : Context} (hs : x.state = .idle) {bs : List Byte}
    (h : ∀ b ∈ bs, b ≠ Config.header) : (x.bytes bs).state = .idle := by
  induction bs generalizing x with
  | nil => exact hs
  | cons b bs ih =>
    obtain ⟨hb, hbs⟩ := List.forall_mem_cons.mp h
    refine ih (x := x.byte b) ?_ hbs
    rw [byte_flushes (.inl hs) hb]
    rfl

theorem Context.bytes_append (x : Context) (bs cs : List Byte) : x.bytes (bs ++ cs) = (x.bytes bs).bytes cs :=
  List.foldl_append

/-! ## Captures -/

/-- A stream that starts with a header is captured from the hunt on, up to 25 bytes. -/
theorem Context.hunts.captured {x : Context} (h : x.hunts) {l : List Byte} (h0 : l.head? = some Config.header)
    (hlen : l.length ≤ 25) : (x.bytes l).captured l := by
  obtain ⟨bs, rfl⟩ := List.head?_eq_some_iff.mp h0
  have hx : x.byte Config.header = x.flush.byte Config.header := by
    rw [byte_of_hunts h, byte_of_hunts (.inl rfl)]
    rfl
  have hcap : (x.byte Config.header).captured [Config.header] := hx ▸ captured_byte_header rfl
  exact hcap.bytes_append bs (by rw [List.length_cons] at hlen; rw [List.length_singleton]; omega)

/-- A capture is the capture of its own meaningful bytes. -/
theorem Context.captured_self {x : Context} (hs : x.state = .capturing) (hn : x.nbytes.toNat ≤ 25) :
    x.captured (x.buf.toList.take x.nbytes.toNat) := by
  have hlen : (x.buf.toList.take x.nbytes.toNat).length = x.nbytes.toNat := by simp [hn]
  refine ⟨hs, hlen.symm, fun k hk => ?_⟩
  rw [hlen] at hk
  rw [List.getElem?_take_of_lt hk, Vector.getElem?_toList, Vector.getElem?_eq_getElem k.isLt]
  rfl

theorem Context.captured.nbytes_eq {x : Context} {l : List Byte} (h : x.captured l) {n : Count}
    (hn : l.length = n.toNat) : x.nbytes = n :=
  BitVec.eq_of_toNat_eq (h.nbytes.trans hn)

/-- A full capture is discarded by the next byte. -/
theorem Context.captured.hunts {x : Context} {l : List Byte} (h : x.captured l) (hl : l.length = 25) : x.hunts :=
  .inr (by rw [h.nbytes, hl])

/-! ## Silent streams -/

/-- No byte of the stream is ready. -/
def Context.silent : List Byte → Context → Prop
  | [], _ => True
  | b :: bs, x => x.accepts false false true false b = false ∧ Context.silent bs (x.byte b)

/-- A byte adds at most one to the count. -/
theorem Context.nbytes_byte_le (x : Context) (b : Byte) : (x.byte b).nbytes.toNat ≤ x.nbytes.toNat + 1 := by
  by_cases h : x.hunts
  · rw [byte_of_hunts h]
    split_ifs <;> simp
  · rw [byte_of_not_hunts h, append_nbytes]
    bv_omega

/-- A stream that cannot reach a 25th byte is silent. -/
theorem Context.silent_of_count {bs : List Byte} {x : Context} (h : x.nbytes.toNat + bs.length ≤ 24) :
    x.silent bs := by
  induction bs generalizing x with
  | nil => exact trivial
  | cons b bs ih =>
    rw [List.length_cons] at h
    have hn := nbytes_byte_le x b
    refine ⟨?_, ih (by omega)⟩
    simp [Context.accepts, show x.nbytes ≠ 24#5 by bv_omega]

/-- Up to 24 bytes after the hunt are silent, whatever they are. -/
theorem Context.hunts.silent {x : Context} (h : x.hunts) {bs : List Byte} (hlen : bs.length ≤ 24) : x.silent bs := by
  cases bs with
  | nil => exact trivial
  | cons b bs =>
    rw [List.length_cons] at hlen
    have hn : (x.byte b).nbytes.toNat ≤ 1 := by
      rw [byte_of_hunts h]
      split_ifs <;> simp
    exact ⟨accepts_of_hunts h b, silent_of_count (by omega)⟩

/-- Noise without a header and up to 24 bytes after it are silent. -/
theorem Context.silent_noise {x : Context} (hs : x.state = .idle) {noise bs : List Byte}
    (h : ∀ b ∈ noise, b ≠ Config.header) (hlen : bs.length ≤ 24) : x.silent (noise ++ bs) := by
  induction noise generalizing x with
  | nil => exact Context.hunts.silent (.inl hs) hlen
  | cons b noise ih =>
    obtain ⟨hb, hnoise⟩ := List.forall_mem_cons.mp h
    refine ⟨accepts_of_idle hs .., ih ?_ hnoise⟩
    rw [byte_flushes (.inl hs) hb]
    rfl

/-! ## The machine over a stream -/

/-- The bytes have taken the machine from `s` to `t`, one a cycle. -/
structure State.takes (s : State) (bs : List Byte) (t : State) : Prop where
  run    : byteRun bs s = .next t
  ctx    : t.ctx = s.ctx.bytes bs
  index  : t.obs.index = s.obs.index + bs.length
  inputs : t.inputs = s.inputs
  legal  : t.ctx.legal
  quiet  : t.quiet

theorem exists_takes (bs : List Byte) {s : State} (hl : s.ctx.legal) (hq : s.quiet) : ∃ t, s.takes bs t := by
  obtain ⟨t, hrun, hctx, hidx, -, hin, hl', hq'⟩ := byteRun_next bs hl hq
  exact ⟨t, hrun, hctx, hidx, hin, hl', hq'⟩

/-- A stream fed after those bytes goes on from `t`. -/
theorem State.takes.stepMany {s t : State} {bs : List Byte} (h : s.takes bs t) (cs : List Byte) (k : Nat) :
    stepMany (bs.length + k) (s.feed (bs ++ cs)) = stepMany k (t.feed cs) := by
  rw [stepMany_add, stepMany_feed, h.run]
  rfl

/-- The state after exactly those bytes, the rest of the stream pending. -/
theorem State.takes.stepMany_length {s t : State} {bs : List Byte} (h : s.takes bs t) (cs : List Byte) :
    Machine.stepMany bs.length (s.feed (bs ++ cs)) = .next (t.feed cs) :=
  h.stepMany cs 0

/-- A silent stream gives no ready signal and delivers nothing. -/
theorem State.takes.of_silent {s t : State} {bs : List Byte} (h : s.takes bs t) (hl : s.ctx.legal) (hq : s.quiet)
    (hbs : s.ctx.silent bs) :
    (bs ≠ [] → t.frameReadyQ = false) ∧ t.obs.delivered = s.obs.delivered := by
  have hrun := h.run
  clear h
  induction bs generalizing s with
  | nil => cases hrun; exact ⟨fun hne => absurd rfl hne, rfl⟩
  | cons b bs ih =>
    obtain ⟨hb, hbs⟩ := hbs
    obtain ⟨u, hu, huctx, huready, hudel, -, -, -, hul, huq⟩ := clockEdge_byte b hl hq
    rw [hb] at huready hudel
    rw [byteRun, hu] at hrun
    obtain ⟨hready, hdel⟩ := ih hul huq (huctx ▸ hbs) hrun
    refine ⟨fun _ => ?_, hdel.trans hudel⟩
    by_cases hnil : bs = []
    · subst hnil; cases hrun; exact huready
    · exact hready hnil

/-- One stream after another. -/
theorem State.takes.trans {s t u : State} {bs cs : List Byte} (h : s.takes bs t) (h' : t.takes cs u) :
    s.takes (bs ++ cs) u where
  run := by rw [byteRun_append, h.run]; exact h'.run
  ctx := by rw [h'.ctx, h.ctx, Context.bytes_append]
  index := by rw [h'.index, h.index, List.length_append, Nat.add_assoc]
  inputs := h'.inputs.trans h.inputs
  legal := h'.legal
  quiet := h'.quiet

/-- The last byte of a silent stream gives no ready signal. -/
theorem stepMany_silent {s : State} (hl : s.ctx.legal) (hq : s.quiet) {bs : List Byte} {k : Nat} (hk : 1 ≤ k)
    (hkl : k ≤ bs.length) (h : s.ctx.silent (bs.take k)) :
    ∃ t, stepMany k (s.feed bs) = .next t ∧ t.frameReadyQ = false := by
  obtain ⟨t, ht⟩ := exists_takes (bs.take k) hl hq
  have hlen : (bs.take k).length = k := by simp [hkl]
  obtain ⟨hready, -⟩ := ht.of_silent hl hq h
  have hrun := ht.stepMany_length (bs.drop k)
  rw [hlen, List.take_append_drop] at hrun
  exact ⟨_, hrun, hready (List.ne_nil_of_length_pos (by omega))⟩

/-- So it is for up to 24 bytes after the hunt. -/
theorem stepMany_not_ready_of_hunts {s : State} (hl : s.ctx.legal) (hq : s.quiet) (hh : s.ctx.hunts)
    {bs : List Byte} {k : Nat} (hk : 1 ≤ k) (hk' : k ≤ 24) (hkl : k ≤ bs.length) :
    ∃ t, stepMany k (s.feed bs) = .next t ∧ t.frameReadyQ = false :=
  stepMany_silent hl hq hk hkl (hh.silent (by simp [hk']))

/-- And for noise without a header and up to 24 bytes after it. -/
theorem stepMany_not_ready_of_noise {s : State} (hl : s.ctx.legal) (hs : s.ctx.state = .idle)
    {noise bs : List Byte} (h : ∀ b ∈ noise, b ≠ Config.header) {k : Nat} (hk : 1 ≤ k)
    (hk' : k ≤ noise.length + 24) (hkl : k ≤ (noise ++ bs).length) :
    ∃ t, stepMany k (s.feed (noise ++ bs)) = .next t ∧ t.frameReadyQ = false := by
  refine stepMany_silent hl (.inr hs) hk hkl ?_
  rw [List.take_append]
  exact Context.silent_noise hs (fun b hb => h b (List.mem_of_mem_take hb)) (by simp; omega)

/-- A header met in the hunt and the 24 bytes after it are captured, and accepted on the last exactly where that is the
footer. -/
theorem exists_takes_capture {s : State} (hl : s.ctx.legal) (hq : s.quiet) (hh : s.ctx.hunts) {l : List Byte}
    (h0 : l.head? = some Config.header) (hlen : l.length = 25) :
    ∃ t, s.takes l t ∧ t.ctx.captured l ∧ t.frameReadyQ = decide (l.getLast? = some Config.footer) ∧
      t.obs.delivered = (if l.getLast? = some Config.footer then
        s.obs.delivered ++ [{ index := s.obs.index + 24, payload := t.ctx.buf }] else s.obs.delivered) := by
  obtain ⟨bs, b, rfl⟩ : ∃ bs b, l = bs ++ [b] :=
    (List.eq_nil_or_concat' l).resolve_left (List.ne_nil_of_length_pos (by omega))
  have hbs : bs.length = 24 := by simpa using hlen
  rw [List.head?_append_of_ne_nil _ (List.ne_nil_of_length_pos (by omega))] at h0
  obtain ⟨u, hu⟩ := exists_takes bs hl hq
  obtain ⟨-, hudel⟩ := hu.of_silent hl hq (hh.silent hbs.le)
  obtain ⟨t, ht, htctx, htready, htdel, hidx, -, htin, htl, htq⟩ := clockEdge_byte b hu.legal hu.quiet
  have hcap : u.ctx.captured bs := hu.ctx ▸ hh.captured h0 (by omega)
  have hacc : u.ctx.accepts false false true false b = decide (b = Config.footer) := by
    simp [Context.accepts, hcap.state, hcap.nbytes_eq (n := 24#5) hbs]
  have hlast : (bs ++ [b]).getLast? = some Config.footer ↔ b = Config.footer := by simp
  have htb : u.takes [b] t :=
    ⟨by rw [byteRun, ht]; rfl, htctx, hidx, htin, htl, htq⟩
  refine ⟨t, hu.trans htb, htctx ▸ hcap.byte hbs.le b, ?_, ?_⟩
  · simp only [htready, hacc, hlast]
  · simp only [htdel, hacc, hlast, decide_eq_true_eq, hudel, hu.index, hbs]

/-- The same after noise without a header. -/
theorem exists_takes_noise_capture {s : State} (hl : s.ctx.legal) (hs : s.ctx.state = .idle) {noise l : List Byte}
    (h : ∀ b ∈ noise, b ≠ Config.header) (h0 : l.head? = some Config.header) (hlen : l.length = 25) :
    ∃ t, s.takes (noise ++ l) t ∧ t.ctx.captured l ∧ t.frameReadyQ = decide (l.getLast? = some Config.footer) ∧
      t.obs.delivered = (if l.getLast? = some Config.footer then
        s.obs.delivered ++ [{ index := s.obs.index + noise.length + 24, payload := t.ctx.buf }]
        else s.obs.delivered) := by
  obtain ⟨u, hu⟩ := exists_takes noise hl (.inr hs)
  have hsil : s.ctx.silent noise := by simpa using Context.silent_noise (bs := []) hs h (Nat.zero_le _)
  obtain ⟨-, hudel⟩ := hu.of_silent hl (.inr hs) hsil
  have hus : u.ctx.state = .idle := hu.ctx ▸ Context.bytes_noise hs h
  obtain ⟨t, ht, hcap, hready, hdel⟩ := exists_takes_capture hu.legal hu.quiet (.inl hus) h0 hlen
  rw [hudel, hu.index] at hdel
  exact ⟨t, hu.trans ht, hcap, hready, hdel⟩

/-! ## Payloads -/

theorem head?_toList (p : Payload) : p.toList.head? = some p[0] := by
  rw [List.head?_eq_getElem?, Vector.getElem?_toList, Vector.getElem?_eq_getElem]

theorem getLast?_toList (p : Payload) : p.toList.getLast? = some p[24] := by
  rw [List.getLast?_eq_getElem?, Vector.length_toList, Vector.getElem?_toList, Vector.getElem?_eq_getElem]

theorem validPayload.head? {p : Payload} (h : validPayload p) : p.toList.head? = some Config.header := by
  rw [head?_toList, h.1]

theorem validPayload.getLast? {p : Payload} (h : validPayload p) : p.toList.getLast? = some Config.footer := by
  rw [getLast?_toList, h.2]

/-- A valid payload met in the hunt is accepted on its last byte, and then held. -/
theorem exists_takes_payload {s : State} (hl : s.ctx.legal) (hq : s.quiet) (hh : s.ctx.hunts) {p : Payload}
    (hv : validPayload p) :
    ∃ t, s.takes p.toList t ∧ t.frameReadyQ = true ∧ t.holds p ∧ t.ctx.hunts := by
  obtain ⟨t, ht, hcap, hready, -⟩ := exists_takes_capture hl hq hh hv.head? (by simp)
  exact ⟨t, ht, hready.trans (by simp [hv.getLast?]), hcap.holds hv, hcap.hunts (by simp)⟩

/-- A valid payload after 25 bytes that leave the machine hunting is accepted on its last byte. -/
theorem State.takes.then_payload {s t : State} {g : Payload} (h : s.takes g.toList t) (hh : t.ctx.hunts) {p : Payload}
    (hv : validPayload p) :
    ∃ u, Machine.stepMany 50 (s.feed (g.toList ++ p.toList)) = .next u ∧ u.frameReadyQ = true ∧ u.holds p := by
  obtain ⟨u, hu, hready, hheld, -⟩ := exists_takes_payload h.legal h.quiet hh hv
  refine ⟨u, ?_, hready, hheld⟩
  have hrun := h.stepMany p.toList 25
  rw [Vector.length_toList] at hrun
  rw [hrun, ← hu.run, ← stepMany_feed_all, Vector.length_toList]

/-! ## The statements about streams -/

/-- Settles O56: the noise and the first 24 bytes are silent, and the capture that follows is the payload. -/
theorem resyncAfterNoise : Obligations.ResyncAfterNoise := by
  intro s noise p hs hn hnoise hv
  have hl : s.ctx.legal := .inl ⟨hs, hn⟩
  refine ⟨fun k hk hk' => stepMany_not_ready_of_noise hl hs hnoise hk hk' (by simp; omega), ?_⟩
  obtain ⟨t, ht, hcap, hready, hdel⟩ := exists_takes_noise_capture hl hs hnoise hv.head? (by simp)
  rw [hv.getLast?, if_pos rfl] at hdel
  refine ⟨t, ?_, hready.trans (by simp [hv.getLast?]), hcap.holds hv, ht.inputs, hdel⟩
  have hrun := (stepMany_feed_all (noise ++ p.toList) s).trans ht.run
  rwa [List.length_append, Vector.length_toList] at hrun

/-- Settles O57: the second payload is met by the overflow guard, which hunts its header. -/
theorem backToBackFramesAreEachReady : Obligations.BackToBackFramesAreEachReady := by
  intro s p q hs hn hp hq
  have hl : s.ctx.legal := .inl ⟨hs, hn⟩
  obtain ⟨t, ht, htready, htheld, hth⟩ := exists_takes_payload hl (.inr hs) (.inl hs) hp
  have hafter : ∀ k, stepMany (25 + k) (s.feed (p.toList ++ q.toList)) = stepMany k (t.feed q.toList) := fun k => by
    rw [← ht.stepMany, Vector.length_toList]
  refine ⟨⟨_, hafter 0, htready, htheld⟩, ?_, ht.then_payload hth hq, fun k hk hk' h25 h50 => ?_⟩
  · obtain ⟨bs, hbs⟩ := List.head?_eq_some_iff.mp hq.head?
    obtain ⟨v, hv⟩ := exists_takes [Config.header] ht.legal ht.quiet
    have hcap : v.ctx.captured [Config.header] := hv.ctx ▸ hth.captured rfl (by simp)
    have hn1 : v.ctx.nbytes = 1#5 := hcap.nbytes_eq rfl
    refine ⟨v.feed bs, (hafter 1).trans ?_, frameAvail_of_nbytes (s := v.feed bs) ?_, hcap.state, hn1⟩
    · rw [hbs]
      exact hv.stepMany_length bs
    · exact fun h => absurd (hn1.symm.trans h) (by decide)
  · by_cases hlt : k < 25
    · exact stepMany_not_ready_of_hunts hl (.inr hs) (.inl hs) hk (by omega) (by simp; omega)
    · obtain ⟨m, rfl⟩ := Nat.exists_eq_add_of_le (Nat.le_of_not_lt hlt)
      rw [hafter]
      exact stepMany_not_ready_of_hunts ht.legal ht.quiet hth (by omega) (by omega) (by simp; omega)

/-- Garbage that starts with a header is captured and not accepted, and the guard hunts the payload's header. -/
theorem recovery_header_first {s : State} (hl : s.ctx.legal) (hs : s.ctx.state = .idle) {g p : Payload}
    (hg : g[24] ≠ Config.footer) (hv : validPayload p) (h0 : g[0] = Config.header) :
    (∃ t, stepMany 25 (s.feed (g.toList ++ p.toList)) = .next t ∧ t.frameReadyQ = false ∧ t.ctx.nbytes = 25#5) ∧
      ∃ t, stepMany 50 (s.feed (g.toList ++ p.toList)) = .next t ∧ t.frameReadyQ = true ∧ t.holds p := by
  obtain ⟨t, ht, hcap, hready, -⟩ :=
    exists_takes_capture hl (.inr hs) (.inl hs) ((head?_toList g).trans (congrArg some h0)) (by simp)
  have hrun := ht.stepMany_length p.toList
  rw [Vector.length_toList] at hrun
  exact ⟨⟨_, hrun, hready.trans (by simp [getLast?_toList, hg]), hcap.nbytes_eq (by simp)⟩,
    ht.then_payload (hcap.hunts (by simp)) hv⟩

/-- Garbage without a header is noise. -/
theorem recovery_no_header {s : State} (hl : s.ctx.legal) (hs : s.ctx.state = .idle) {g p : Payload}
    (hv : validPayload p) (hno : ∀ j : Fin 25, g[j] ≠ Config.header) :
    (∃ t, stepMany 25 (s.feed (g.toList ++ p.toList)) = .next t ∧ t.ctx.state = .idle) ∧
      ∃ t, stepMany 50 (s.feed (g.toList ++ p.toList)) = .next t ∧ t.frameReadyQ = true ∧ t.holds p := by
  have hnoise : ∀ b ∈ g.toList, b ≠ Config.header := fun b hb => by
    obtain ⟨i, hi, rfl⟩ := List.mem_iff_getElem.mp hb
    exact hno ⟨i, by simpa using hi⟩
  obtain ⟨t, ht⟩ := exists_takes g.toList hl (.inr hs)
  have hts : t.ctx.state = .idle := ht.ctx ▸ Context.bytes_noise hs hnoise
  have hrun := ht.stepMany_length p.toList
  rw [Vector.length_toList] at hrun
  exact ⟨⟨_, hrun, hts⟩, ht.then_payload (.inl hts) hv⟩

/-- The false capture from a header at place `j` of the garbage ends at byte `j - 1` of the payload. -/
theorem getLast?_false_capture (g p : Payload) {j : Nat} (hj : 1 ≤ j) (hj' : j ≤ 25) :
    (g.toList.drop j ++ p.toList.take j).getLast? = some (p.toList.getD (j - 1) 0x00#8) := by
  have hlt : j - 1 < p.toList.length := by simp; omega
  rw [List.getLast?_append, List.getLast?_take, if_neg (by omega), List.getElem?_eq_getElem hlt,
    List.getD_eq_getElem _ _ hlt]
  rfl

/-- Where the first header of the garbage stands later, the false capture from it swallows the payload's header, and
what is left of the payload is too short to be accepted. -/
theorem recovery_header_later {s : State} (hl : s.ctx.legal) (hs : s.ctx.state = .idle) (g p : Payload) (j : Fin 25)
    (hj : 1 ≤ j.val) (hgj : g[j] = Config.header) (hno : ∀ i : Fin 25, i < j → g[i] ≠ Config.header) :
    (∃ t, stepMany (25 + j.val) (s.feed (g.toList ++ p.toList)) = .next t ∧ t.ctx.nbytes = 25#5 ∧
        (t.frameReadyQ = true ↔ p.toList.getD (j.val - 1) 0x00#8 = Config.footer)) ∧
      ∀ k, 1 ≤ k → k ≤ 50 → k ≠ 25 + j.val →
        ∃ t, stepMany k (s.feed (g.toList ++ p.toList)) = .next t ∧ t.frameReadyQ = false := by
  have hsplit : g.toList ++ p.toList =
      g.toList.take j ++ (g.toList.drop j ++ p.toList.take j) ++ p.toList.drop j := by
    rw [← List.append_assoc, List.take_append_drop, List.append_assoc, List.take_append_drop]
  have hnoise : ∀ b ∈ g.toList.take j, b ≠ Config.header := fun b hb => by
    obtain ⟨i, hi, rfl⟩ := List.mem_take_iff_getElem.mp hb
    exact hno ⟨i, by omega⟩ (by show i < j.val; omega)
  have hhead : (g.toList.drop j ++ p.toList.take j).head? = some Config.header := by
    rw [List.head?_append, List.head?_drop, Vector.getElem?_toList, Vector.getElem?_eq_getElem j.isLt]
    exact congrArg some hgj
  obtain ⟨t, ht, hcap, hready, -⟩ := exists_takes_noise_capture hl hs hnoise hhead (by simp)
  have hlen : (g.toList.take j ++ (g.toList.drop j ++ p.toList.take j)).length = 25 + j.val := by simp; omega
  have hafter := ht.stepMany (p.toList.drop j)
  rw [hlen, ← hsplit] at hafter
  rw [getLast?_false_capture g p hj j.isLt.le] at hready
  refine ⟨⟨_, hafter 0, hcap.nbytes_eq (by simp), ?_⟩, fun k hk hk' hne => ?_⟩
  · show t.frameReadyQ = true ↔ _
    simp [hready]
  · by_cases hlt : k < 25 + j.val
    · rw [hsplit, List.append_assoc]
      exact stepMany_not_ready_of_noise hl hs hnoise hk (by simp; omega) (by simp; omega)
    · obtain ⟨m, rfl⟩ := Nat.exists_eq_add_of_le (Nat.le_of_not_lt hlt)
      rw [hafter]
      exact stepMany_not_ready_of_hunts ht.legal ht.quiet (hcap.hunts (by simp)) (by omega) (by omega)
        (by simp; omega)

/-- Settles O58, case by case. -/
theorem recoveryAfterGarbage : Obligations.RecoveryAfterGarbage := by
  intro s g p hs hn hg hv
  have hl : s.ctx.legal := .inl ⟨hs, hn⟩
  exact ⟨recovery_header_first hl hs hg hv, recovery_no_header hl hs hv, recovery_header_later hl hs g p⟩

/-- Settles O59: the capture is filled up to 25 bytes, and the guard drops the byte after them. -/
theorem huntIsReachedFromEveryCapture : Obligations.HuntIsReachedFromEveryCapture := by
  intro s bs b hs hlo hhi hg hlen hb
  have hl : s.ctx.legal := .inr ⟨hs, hlo, hhi⟩
  obtain ⟨t, ht⟩ := exists_takes bs hl (.inl hg)
  have hcap := (Context.captured_self hs hhi).bytes_append bs (by simp; omega)
  rw [← ht.ctx] at hcap
  have hth : t.ctx.hunts := hcap.hunts (by simp; omega)
  obtain ⟨u, hu⟩ := exists_takes [b] ht.legal ht.quiet
  have huctx : u.ctx = t.ctx.flush := hu.ctx.trans (Context.byte_flushes hth hb)
  refine ⟨⟨_, ht.stepMany_length [b], hcap.state, hcap.nbytes_eq (by simp; omega)⟩, u, ?_, ?_, ?_⟩
  · exact (ht.stepMany [b] 1).trans ((stepMany_feed_all [b] t).trans hu.run)
  · rw [huctx]; rfl
  · rw [huctx]; rfl

end Sys2Proof.Machine
end

section
/-! PROOF. The statements about the gap monitor (42_resync.md R170 to R174): `GAP_TICK`, the strict threshold, and its
bounds in wall-clock time. -/

namespace Sys2Proof.Machine

/-! ## `GAP_TICK` -/

theorem exec_gapTick (r e v k : Bool) (s : State) :
    exec (.gapTick r e v k) s = .next (s.setGap (nextGapCount s.cfg.gapCntWidth r e v k s.gapCnt)) := rfl

theorem isDelivery_iff {r e v : Bool} : isDelivery r e v = true ↔ r = false ∧ e = false ∧ v = true := by
  simp [isDelivery, and_assoc]

/-- Without a reset and a delivery a tick counts up to saturation, and nothing else changes the counter. -/
theorem nextGapCount_of_no_delivery {e v : Bool} (h : e = true ∨ v = false) (p : Config.Params) (k : Bool) (g : Nat) :
    nextGapCount p.gapCntWidth false e v k g = if k then if g < p.gapMax then g + 1 else g else g := by
  have hd : isDelivery false e v = false := by
    rw [Bool.eq_false_iff, Ne, isDelivery_iff]
    rintro ⟨-, rfl, rfl⟩
    simp at h
  rw [nextGapCount, hd]
  rfl

/-- Settles O31, from the cases of the next count. -/
theorem gapTickCountsTicks : Obligations.GapTickCountsTicks := by
  intro s r e v k
  refine ⟨_, exec_gapTick r e v k s, rfl, ?_, ?_, ?_, ?_⟩
  · rintro rfl; rfl
  · rintro rfl rfl rfl; rfl
  · rintro rfl h rfl
    exact nextGapCount_of_no_delivery h s.cfg true s.gapCnt
  · rintro rfl h rfl
    exact nextGapCount_of_no_delivery h s.cfg false s.gapCnt

/-! ## The threshold -/

/-- A delivery selects the gap flush exactly above the limit (42_resync.md R172). -/
theorem decodeKey_gapFlush_iff {c : Ciw} {s : State} (hd : isDelivery (ciwRst c) (ciwErr c) (ciwVld c) = true) :
    (∃ k st n b, decodeKey (stepKey c s) = .ok (.gapFlush k st n b)) ↔ s.cfg.gapLimit < s.gapCnt := by
  obtain ⟨hr, he, hv⟩ := isDelivery_iff.mp hd
  simp only [decodeKey_stepKey_iff]
  constructor
  · rintro ⟨k, st, n, b, hsel⟩
    cases hsel with
    | gapFlush _ _ _ hg => exact of_decide_eq_true hg
  · intro hg
    exact ⟨_, _, _, _, .gapFlush hr he hv (decide_eq_true hg)⟩

/-- Settles O33; the default limit is 3. -/
theorem gapFlushAboveTheLimitOnly : Obligations.GapFlushAboveTheLimitOnly := by
  intro s c hd
  refine ⟨decodeKey_gapFlush_iff hd, fun hcfg => ?_⟩
  have hlim : s.cfg.gapLimit = 3 := hcfg ▸ rfl
  rw [decodeKey_gapFlush_iff hd, hlim]
  rfl

/-! ## The pulses between two deliveries -/

/-- The pulses strictly between cycles 0 and `m + 1`, counted from cycle 1 on. -/
theorem ticksBetween_succ (T φ m : Nat) :
    ticksBetween T φ (m + 1) = (List.range m).countP fun x => tickAt T φ (x + 1) := by
  rw [ticksBetween, ← List.countP_eq_length_filter, List.range_succ_eq_map, List.countP_cons_of_neg (by simp),
    List.countP_map]
  exact List.countP_congr fun x _ => by simp

/-- The cycles of a tick source count its pulses. -/
theorem length_filter_ciwTck {T φ : Nat} {cs : List Ciw}
    (h : ∀ (k : Nat) (hk : k < cs.length), ciwTck cs[k] = tickAt T φ (k + 1)) :
    (cs.filter ciwTck).length = ticksBetween T φ (cs.length + 1) := by
  have hmap : cs.map ciwTck = (List.range cs.length).map fun x => tickAt T φ (x + 1) :=
    List.ext_getElem (by simp) fun k hk _ => by simpa using h k (by simpa using hk)
  have hcount := congrArg (List.countP id) hmap
  rw [List.countP_map, List.countP_map] at hcount
  rw [ticksBetween_succ, ← List.countP_eq_length_filter]
  exact hcount

/-- How many pulses a train has strictly between cycles 0 and `t`: a pulse in cycle 0 itself is not among them. -/
theorem ticksBetween_add {T φ t : Nat} (hφ : φ < T) (ht : 0 < t) :
    ticksBetween T φ t + (if φ = 0 then 1 else 0) = t / T + if φ < t % T then 1 else 0 := by
  obtain ⟨m, rfl⟩ := Nat.exists_eq_add_of_le' ht
  have hmod : ∀ x, x ≡ φ [MOD T] ↔ tickAt T φ x = true := fun x => by
    rw [tickAt_eq_mod hφ, decide_eq_true_iff, Nat.ModEq, Nat.mod_eq_of_lt hφ]
  have h0 : 0 ≡ φ [MOD T] ↔ φ = 0 := by rw [hmod, tickAt_eq_mod hφ, Nat.zero_mod, decide_eq_true_iff, eq_comm]
  have hcount := Nat.count_modEq_card (m + 1) (Nat.zero_lt_of_lt hφ) φ
  rw [Nat.mod_eq_of_lt hφ, Nat.count_succ'] at hcount
  rw [← hcount, ticksBetween_succ]
  simp only [h0, Nat.count, hmod, Bool.decide_eq_true]

/-- Where the two cycles are not both on pulses, the count is the floor or the ceiling of `t / T`. -/
theorem ticksBetween_floor_or_ceil {T φ t : Nat} (hφ : φ < T) (ht : 0 < t) (h : ¬ (φ = 0 ∧ t % T = 0)) :
    ticksBetween T φ t = t / T ∨ ticksBetween T φ t = (t + T - 1) / T := by
  have hn := ticksBetween_add hφ ht
  by_cases hr : φ < t % T
  · have hceil : (t + T - 1) / T = t / T + 1 := by
      have hdiv := Nat.div_add_mod t T
      have hmod := Nat.mod_lt t (Nat.zero_lt_of_lt hφ)
      rw [show t + T - 1 = (t % T - 1) + T * (t / T + 1) by rw [Nat.mul_add_one]; omega,
        Nat.add_mul_div_left _ _ (Nat.zero_lt_of_lt hφ), Nat.div_eq_of_lt (by omega), Nat.zero_add]
    split_ifs at hn <;> omega
  · split_ifs at hn <;> omega

/-- Where they both are, it is one less. -/
theorem ticksBetween_both_pulses {T t : Nat} (hT : 0 < T) (ht : 0 < t) (h : t % T = 0) :
    ticksBetween T 0 t = t / T - 1 := by
  have hn := ticksBetween_add hT ht
  rw [h, if_pos rfl, if_neg (Nat.lt_irrefl 0)] at hn
  omega

theorem floor_le_ceil (T t : Nat) : t / T ≤ (t + T - 1) / T := by
  cases T with
  | zero => simp
  | succ T => exact Nat.div_le_div_right (by omega)

/-- Not both on pulses, the count reaches every whole number of periods that `t` does. -/
theorem le_ticksBetween {T φ t n : Nat} (hφ : φ < T) (ht : 0 < t) (h : ¬ (φ = 0 ∧ t % T = 0)) (hn : n * T ≤ t) :
    n ≤ ticksBetween T φ t := by
  have hfloor := (Nat.le_div_iff_mul_le (Nat.zero_lt_of_lt hφ)).mpr hn
  have hle := floor_le_ceil T t
  rcases ticksBetween_floor_or_ceil hφ ht h with h | h <;> omega

/-- In any case the count exceeds no whole number of periods that `t` does not exceed. -/
theorem ticksBetween_le {T φ t n : Nat} (hφ : φ < T) (ht : 0 < t) (hn : t ≤ n * T) : ticksBetween T φ t ≤ n := by
  have hceil : (t + T - 1) / T < n + 1 := by
    rw [Nat.div_lt_iff_lt_mul (Nat.zero_lt_of_lt hφ), Nat.add_one_mul]
    omega
  have hle := floor_le_ceil T t
  by_cases h : φ = 0 ∧ t % T = 0
  · obtain ⟨rfl, hmod⟩ := h
    have := ticksBetween_both_pulses hφ ht hmod
    omega
  · rcases ticksBetween_floor_or_ceil hφ ht h with h | h <;> omega

/-- No run changes the parameters. -/
theorem stepMany_keeps_cfg {k : Nat} {s t : State} (h : stepMany k s = .next t) : t.cfg = s.cfg := by
  induction k generalizing s with
  | zero => cases h; rfl
  | succ k ih =>
    obtain ⟨u, hu, ht⟩ := andThen_eq_next.mp h
    exact (ih ht).trans (nothingChangesTheParameters s u hu).1

/-- Settles O34: the counter holds the pulses between the deliveries, which the train bounds. -/
theorem wallClockGapBounds : Obligations.WallClockGapBounds := by
  intro s cs c T φ hl hvalid hgap hφ hcs htick hd t
  have ht : 0 < t := Nat.succ_pos cs.length
  obtain ⟨u, hu, -, hcnt⟩ := gapCounterCountsTicksSinceDelivery cs s hl (hgap ▸ Nat.zero_le _) hcs
  rw [hgap, Nat.zero_add, length_filter_ciwTck htick] at hcnt
  have hflush : (∃ k st m b, decodeKey (stepKey c u) = .ok (.gapFlush k st m b)) ↔
      s.cfg.gapLimit < ticksBetween T φ t := by
    have hcfg := stepMany_keeps_cfg hu
    rw [decodeKey_gapFlush_iff hd, hcfg, hcnt, lt_min_iff]
    exact and_iff_left hvalid
  refine ⟨u, ticksBetween T φ t, hu, hcnt, ticksBetween_floor_or_ceil hφ ht, ?_, hflush, fun h hlong => ?_,
    fun hshort => ?_⟩
  · rintro ⟨rfl, hmod⟩
    exact ticksBetween_both_pulses hφ ht hmod
  · exact hflush.mpr (le_ticksBetween hφ ht h hlong)
  · rw [hflush]
    exact Nat.not_lt.mpr (ticksBetween_le hφ ht hshort)

end Sys2Proof.Machine
end

section
/-! PROOF. The statements about batch ingest (42_resync.md R180, R181): `INGEST_BATCH` is `INGEST` byte by byte, and a
delivered buffer is its bytes on consecutive cycles. -/

namespace Sys2Proof.Machine

/-! ## `INGEST` keeps the context invariant -/

theorem Context.append_legal (x : Context) (i : Nat) (b : Byte) {n : Count} (hlo : 1 ≤ n.toNat) (hhi : n.toNat ≤ 25) :
    (x.append i b n).legal := .inr ⟨rfl, hlo, hhi⟩

/-- The hunt leaves the first byte of a capture, or none. -/
theorem hunt_legal (pre : List Op) (b : Byte) (s : State) : (s.hunt pre b).ctx.legal := by
  rw [(hunt_effect pre b s).1]
  split_ifs
  · exact Context.append_legal _ _ _ (by decide) (by decide)
  · exact Context.flush_legal s.ctx

/-- The byte rules leave a legal context, at every count they take. -/
theorem byteRules_legal {st : SyncState} {n : Count} {b : Byte} {s t : State} (h : s.byteRules st n b = .next t) :
    t.ctx.legal := by
  unfold State.byteRules at h
  split at h
  · cases h; exact hunt_legal ..
  · split_ifs at h with hn
    · rw [State.captureByte, if_pos (show n.toNat < Config.frameLen by unfold Config.frameLen; omega)] at h
      cases h
      have hcount : (n + 1#5).toNat = n.toNat + 1 := by simp [BitVec.toNat_add]; omega
      exact Context.append_legal _ _ _ (by omega) (by omega)
    · cases h; exact Context.append_legal _ _ _ (by decide) (by decide)
    · cases h; exact Context.append_legal _ _ _ (by decide) (by decide)

/-- `INGEST` keeps the context invariant (10_state.md R21). -/
theorem execIngest_legal {e v g : Bool} {b : Byte} {s t : State} (h : execIngest false e v g b s = .next t) :
    t.ctx.legal := by
  obtain ⟨hl, h⟩ := ifLegal_eq_next.mp h
  split_ifs at h
  · cases h; exact Context.flush_legal s.ctx
  · cases h; exact hl
  · cases h; exact hunt_legal ..
  · cases h; exact hunt_legal ..
  · exact byteRules_legal h

/-! ## `INGEST_BATCH` -/

/-- A batch from a legal context completes, in a legal context. -/
theorem ingestBytes_next (bs : List Byte) (g : Bool) {s : State} (h : s.ctx.legal) :
    ∃ t, ingestBytes g bs s = .next t ∧ t.ctx.legal := by
  induction bs generalizing g s with
  | nil => exact ⟨s, rfl, h⟩
  | cons b bs ih =>
    obtain ⟨u, hu⟩ := execIngest_next h false false true g b
    have hl : u.ctx.legal := execIngest_legal hu
    rw [ingestBytes, hu]
    exact ih false (s := u.countInput) hl

/-- Settles O35: the first two clauses are the loop itself, the third is by induction on the buffer. -/
theorem batchIngestsByteByByte : Obligations.BatchIngestsByteByByte := by
  intro s g
  refine ⟨rfl, fun _ _ => rfl, fun h bs => ?_⟩
  obtain ⟨t, ht, hl⟩ := ingestBytes_next bs g h
  have hf := ingestBytes_frame ht
  exact ⟨t, ht, hl, hf.index, hf.cfg, hf.gapCnt, hf.ddLast, hf.ddHave, hf.ddNotifyQ, hf.tx, hf.unpackOut, hf.inputs,
    hf.notified⟩

/-- Settles O36: the step is the buffer's delivery, which is its bytes on consecutive clock edges, and so is the run of
the fed bytes. -/
theorem batchEqualsConsecutiveCycles : Obligations.BatchEqualsConsecutiveCycles := by
  intro s bs
  calc step { s with inputs := .batch bs :: s.inputs }
    _ = deliverBatch bs s := step_of_nextInput rfl
    _ = byteRun bs s := deliverBatch_eq_byteRun bs s
    _ = stepMany bs.length (s.feed bs) := (stepMany_feed_all bs s).symm

end Sys2Proof.Machine
end

section
/-! PROOF. The statements about a clock edge and its duplicate-suppression stage (42_resync.md R186 to R191): the
registers after an edge, the history that the stage keeps, the notified sequence, and the window of a held frame. -/

namespace Sys2Proof.Machine

/-! ## `DEDUP` -/

theorem exec_dedup {s : State} (h : s.cfg.hasDedup = true) (p : Payload) :
    exec (.dedup p) s = .next (s.dedupDelivery { index := s.obs.index, payload := p }) := if_pos h

theorem exec_dedup_absent {s : State} (h : s.cfg.hasDedup = false) (p : Payload) : exec (.dedup p) s = .next s :=
  if_neg (by simp [h])

/-- The stage notifies the first payload, and one that differs in some byte from the last delivered one. -/
theorem dedupDelivery_notifies_iff (d : Delivery) (s : State) :
    (s.dedupDelivery d).ddNotifyQ = true ↔
      s.ddHave = false ∨ ∃ i : Fin 25, Memory.read s.ddLast i ≠ d.payload[i] := by
  rw [State.dedupDelivery_ddNotifyQ, Bool.or_eq_true, Bool.not_eq_true', decide_eq_true_iff, ne_comm, Memory.ne_iff]
  rfl

/-- Settles O37. -/
theorem dedupNotifiesChanges : Obligations.DedupNotifiesChanges := by
  intro s p
  exact ⟨fun h => exec_dedup_absent h p, fun h => ⟨_, exec_dedup h p, dedupDelivery_notifies_iff .., fun _ => rfl, rfl,
    rfl⟩⟩

/-! ## One clock edge -/

/-- Settles O9: the operation writes nothing of the units beside it but at a reset, which clears them all. -/
theorem clockEdgeWritesEveryRegister : Obligations.ClockEdgeWritesEveryRegister := by
  intro s t c i hdec hx
  have hi : Selects c s i := (decodeKey_stepKey_iff c s i).mp hdec
  obtain ⟨hcfg, htx, hout, hin, hidx, hgap, hlast, -, -, hkeep, habs⟩ := hi.exec_frame hx
  refine ⟨t.besideStep c i, clockEdge_of_selects hi hx, by simp [hcfg], by simp, by simp, by simp, by simp [htx],
    by simp [hout], by simp [hin], by simp [hidx], ⟨_, exec_gapTick _ _ _ _ s, ?_⟩, fun hd => ?_, fun hd hr => ?_,
    fun hd hr hne => ?_, ?_⟩
  · rw [besideStep_gapCnt, hgap, hcfg, State.setGap_gapCnt]
    cases ciwRst c <;> rfl
  · obtain ⟨blast, bhave, bnote, -⟩ := besideStep_dedup_absent c i t (hcfg ▸ hd)
    exact ⟨blast.trans hlast, bhave.trans (habs hd).1, bnote.trans (habs hd).2⟩
  · obtain ⟨blast, bhave, bnote, -⟩ := besideStep_dedup_reset c i t (hcfg ▸ hd) hr
    exact ⟨blast.trans hlast, bhave, bnote⟩
  · obtain ⟨blast, bhave, bnote, -⟩ := besideStep_dedup_other c i t (hcfg ▸ hd) hr hne
    exact ⟨blast.trans hlast, bhave.trans (hkeep hr).1, bnote⟩
  · rintro hd rfl
    have ht : t.cfg.hasDedup = true := hcfg ▸ hd
    exact ⟨_, exec_dedup ht t.ctx.buf, besideStep_dedup_accept c t ht hi.rst_of_footerOk⟩

/-! ## The history -/

/-- Settles O38: a step that is no reset and not ready accepted no frame. -/
theorem flushesKeepTheDedupHistory : Obligations.FlushesKeepTheDedupHistory := by
  intro s t c hin hr ht hready
  obtain ⟨i, u, hi, hx, rfl⟩ := (step_cycle_next_iff hin).mp ht
  replace hi := selects_takeInput.mpr hi
  obtain ⟨-, -, -, -, -, -, hlast, -, -, hkeep, -⟩ := hi.exec_frame hx
  have hne : i ≠ .footerOk := fun h => by
    have := (hi.exec_pulses hx).1.mpr h
    rw [besideStep_frameReadyQ, this] at hready
    cases hready
  obtain ⟨blast, bhave⟩ := besideStep_keeps_history u hr hne
  exact ⟨blast.trans hlast, bhave.trans (hkeep hr).1⟩

/-- Settles O45: by the invariant the notified frame is held, and it is the last delivered one. -/
theorem notifiedPayloadIsTheHeldOne : Obligations.NotifiedPayloadIsTheHeldOne := by
  intro s h hd hn
  have ha : frameAvail s = true := h.readyHeld (h.notifyReady hn)
  obtain ⟨hhave, hlast⟩ := h.heldIsLast hd ha
  refine ⟨s.ctx.buf, ?_, ?_⟩
  · simp [readPort, hd, hhave, hlast]
  · simp [readPort, readHeld, heldPayload, ha]

/-! ## The window of a held frame -/

/-- A full capture outlasts no cycle that delivers, flushes or resets (70_reset_and_hazards.md R241). -/
theorem Context.next_not_full {x : Context} (hn : x.nbytes = 25#5) {r e v : Bool} (h : r = true ∨ e = true ∨ v = true)
    (g : Bool) (b : Byte) : (x.next r e v g b).nbytes ≠ 25#5 := by
  have hfull : 25 ≤ x.nbytes.toNat := by simp [hn]
  unfold Context.next
  split_ifs with hre hv hhunt
  · simp
  · rcases h with rfl | rfl | rfl <;> simp at hre hv
  · simp
  · simp
  · simp [hfull] at hhunt

/-- After a cycle that delivers, flushes or resets, a frame is held only where the cycle accepted it. -/
theorem Selects.footerOk_of_held {c : Ciw} {s u : State} {i : Instr} (hi : Selects c s i) (hx : exec i s = .next u)
    (h : ciwRst c = true ∨ ciwErr c = true ∨ ciwVld c = true) (ha : frameAvail u = true) : i = .footerOk := by
  refine (hi.footerOk_or_held hx ha).resolve_right fun hctx => ?_
  have hn : u.ctx.nbytes = 25#5 := ((frameAvail_iff u).mp ha).2.1
  have hnext := (hi.exec_effect hx).1
  refine Context.next_not_full (hctx ▸ hn) h (gapExceeded s) (ciwByte c) ?_
  rw [← hnext]
  exact hn

/-- Settles O41: with no byte the context stays; else only an acceptance leaves a held frame. -/
theorem heldFrameWindow : Obligations.HeldFrameWindow := by
  intro s t c hin ht
  obtain ⟨i, u, hi, hx, rfl⟩ := (step_cycle_next_iff hin).mp ht
  have hi' := selects_takeInput.mpr hi
  refine ⟨fun hr he hv => ?_, fun h => ?_⟩
  · have hctx : (u.besideStep c i).ctx = s.ctx := by
      rw [besideStep_ctx, (hi'.exec_effect hx).1, hr, he, hv]
      rfl
    exact ⟨frameAvail_congr hctx, heldPayload_congr hctx⟩
  · rw [frameAvail_congr (besideStep_ctx c i u), (decodeKey_stepKey_iff c s i).mpr hi, Except.ok.injEq]
    exact ⟨hi'.footerOk_of_held hx h, fun hf => hi'.held_of_ready hx ((hi'.exec_pulses hx).1.mpr hf)⟩

/-! ## The notified sequence -/

/-- The payload delivered last since the reset, as the stage remembers it (10_state.md R29). -/
def State.lastDelivered (s : State) : Option Payload := if s.ddHave then some s.ddLast else none

/-- The payload delivered last after the deliveries `ds`, where `last` was it before them. -/
def lastAfter (last : Option Payload) (ds : List Delivery) : Option Payload :=
  ds.foldl (fun _ d => some d.payload) last

/-- Notification takes the deliveries in order and remembers the last of them alone. -/
theorem notifiedOf_append (last : Option Payload) (ds es : List Delivery) :
    notifiedOf last (ds ++ es) = notifiedOf last ds ++ notifiedOf (lastAfter last ds) es := by
  induction ds generalizing last with
  | nil => rfl
  | cons d ds ih =>
    rw [List.cons_append, notifiedOf, notifiedOf, ih]
    split_ifs <;> rfl

/-- From `s` to `t` the stage has notified the changes among the payloads delivered, and remembers the last. -/
def State.notifiesChanges (s t : State) : Prop :=
  ∃ new, t.obs.delivered = s.obs.delivered ++ new ∧
    t.obs.notified = s.obs.notified ++ notifiedOf s.lastDelivered new ∧
    t.lastDelivered = lastAfter s.lastDelivered new

/-- Where nothing is delivered and the stage keeps its history, nothing is notified. -/
theorem notifiesChanges_of_same {s t : State} (hd : t.obs.delivered = s.obs.delivered)
    (hn : t.obs.notified = s.obs.notified) (hlast : t.ddLast = s.ddLast) (hhave : t.ddHave = s.ddHave) :
    s.notifiesChanges t :=
  ⟨[], by simp [hd], by simp [hn, notifiedOf], by simp [State.lastDelivered, hlast, hhave, lastAfter]⟩

theorem State.notifiesChanges.trans {s t u : State} (h : s.notifiesChanges t) (h' : t.notifiesChanges u) :
    s.notifiesChanges u := by
  obtain ⟨ds, hd, hn, hl⟩ := h
  obtain ⟨es, hd', hn', hl'⟩ := h'
  refine ⟨ds ++ es, ?_, ?_, ?_⟩
  · rw [hd', hd, List.append_assoc]
  · rw [hn', hn, hl, notifiedOf_append, List.append_assoc]
  · rw [hl', hl, lastAfter, lastAfter, lastAfter, List.foldl_append]

/-- The stage notifies a payload exactly where it is not the one delivered before. -/
theorem notify_iff (s : State) (p : Payload) :
    (!s.ddHave || decide (p ≠ s.ddLast)) = true ↔ s.lastDelivered ≠ some p := by
  unfold State.lastDelivered
  cases s.ddHave with
  | false => simp
  | true => simp [eq_comm (a := p)]

/-- A clock edge that is no reset notifies the change, if it delivers one. -/
theorem clockEdge_notifiesChanges {c : Ciw} {s t : State} (hd : s.cfg.hasDedup = true) (hr : ciwRst c = false)
    (ht : clockEdge c s = .next t) : s.notifiesChanges t := by
  obtain ⟨i, u, hi, hx, rfl⟩ := clockEdge_next_iff.mp ht
  obtain ⟨hcfg, -, -, -, hidx, -, hlast, hnote, -, hkeep, -⟩ := hi.exec_frame hx
  obtain ⟨hhave, -⟩ := hkeep hr
  have hdel := (hi.exec_effect hx).2.2
  have hready := (hi.exec_effect hx).2.1
  have hu : u.cfg.hasDedup = true := hcfg ▸ hd
  rw [← hready] at hdel
  by_cases hf : i = .footerOk
  · rw [if_pos ((hi.exec_pulses hx).1.mpr hf)] at hdel
    subst hf
    obtain ⟨blast, bhave, -, bnote⟩ := besideStep_dedup_accept c u hu hr
    refine ⟨[{ index := s.obs.index, payload := u.ctx.buf }], ?_, ?_, ?_⟩
    · rw [besideStep_obs_delivered, hdel]
    · rw [bnote, hhave, hlast, hnote, hidx]
      simp only [notify_iff, notifiedOf, ite_not]
      split_ifs <;> simp
    · rw [State.lastDelivered, bhave, blast]
      rfl
  · have hnr : ¬ u.frameReadyQ = true := fun h => hf ((hi.exec_pulses hx).1.mp h)
    rw [if_neg hnr] at hdel
    obtain ⟨blast, bhave, -, bnote⟩ := besideStep_dedup_other c i u hu hr hf
    exact notifiesChanges_of_same ((besideStep_obs_delivered c i u).trans hdel) (bnote.trans hnote)
      (blast.trans hlast) (bhave.trans hhave)

theorem byteRun_notifiesChanges {bs : List Byte} {s t : State} (hd : s.cfg.hasDedup = true)
    (ht : byteRun bs s = .next t) : s.notifiesChanges t := by
  induction bs generalizing s with
  | nil => cases ht; exact notifiesChanges_of_same rfl rfl rfl rfl
  | cons b bs ih =>
    obtain ⟨u, hu, ht⟩ := andThen_eq_next.mp ht
    have hcfg := (clockEdge_frame hu).1
    exact (clockEdge_notifiesChanges hd (ciwRst_byteCiw b) hu).trans (ih (hcfg ▸ hd) ht)

/-- So does every input that presents no reset, a delivered buffer as its clock edges. -/
theorem runInput_notifiesChanges {inp : Input} {s t : State} (hd : s.cfg.hasDedup = true)
    (hr : inp.isReset = false) (ht : runInput inp s = .next t) : s.notifiesChanges t := by
  cases inp with
  | cycle c => exact clockEdge_notifiesChanges hd hr ht
  | batch bs => exact byteRun_notifiesChanges hd ((deliverBatch_eq_byteRun bs s).symm.trans ht)
  | pack f => cases ht; exact notifiesChanges_of_same rfl rfl rfl rfl
  | unpack p => cases ht; exact notifiesChanges_of_same rfl rfl rfl rfl
  | read port =>
    obtain ⟨v, -, rfl⟩ := consumerRead_next ht
    exact notifiesChanges_of_same rfl rfl rfl rfl
  | contended c d => cases ht

/-- No reset comes next where none is pending within the run: an idle cycle is none either. -/
theorem nextInput_not_reset {k : Nat} {s : State} (h : ∀ i ∈ s.inputs.take (k + 1), i.isReset = false) :
    (nextInput s).isReset = false ∧ ∀ i ∈ s.inputs.tail.take k, i.isReset = false := by
  unfold nextInput
  cases hs : s.inputs with
  | nil => exact ⟨by decide, by simp⟩
  | cons inp rest =>
    rw [hs, List.take_succ_cons] at h
    exact List.forall_mem_cons.mp h

/-- Settles O39, by induction on the steps of the run. -/
theorem notifiedAreTheChangesOfDelivered : Obligations.NotifiedAreTheChangesOfDelivered := by
  intro k s t hd ht hin
  suffices h : s.notifiesChanges t by
    obtain ⟨new, hnew, hnote, -⟩ := h
    exact ⟨new, hnew, hnote⟩
  induction k generalizing s with
  | zero => cases ht; exact notifiesChanges_of_same rfl rfl rfl rfl
  | succ k ih =>
    obtain ⟨u, hu, ht⟩ := andThen_eq_next.mp ht
    obtain ⟨hnext, hrest⟩ := nextInput_not_reset hin
    obtain ⟨hcfg, htail, -⟩ := nothingChangesTheParameters s u hu
    have hstep : s.takeInput.notifiesChanges u := runInput_notifiesChanges (s := s.takeInput) hd hnext hu
    exact hstep.trans (ih u (hcfg ▸ hd) ht (htail ▸ hrest))

end Sys2Proof.Machine
end

section
/-! PROOF. The statements of 60_exceptions.md: what leaves the hunt, the event record of a cycle, the reads that are
refused, and that nothing else stops the machine. -/

namespace Sys2Proof.Machine

/-! ## The hunt -/

/-- From IDLE only a delivered header starts a capture, and it is the first byte of it. -/
theorem Context.header_of_next_capturing {x : Context} {r e v g : Bool} {b : Byte} (hs : x.state = .idle)
    (h : (x.next r e v g b).state = .capturing) :
    isDelivery r e v = true ∧ b = Config.header ∧ (x.next r e v g b).nbytes = 1#5 := by
  have hd : isDelivery r e v = true := (Context.capturing_of_next h).resolve_left (by simp [hs])
  obtain ⟨rfl, rfl, rfl⟩ := isDelivery_iff.mp hd
  by_cases hb : b = Config.header
  · exact ⟨hd, hb, by simp [Context.next, hs, hb]⟩
  · simp [Context.next, hs, hb] at h

/-- Settles O21: the context after a cycle is a function of the cycle's inputs. -/
theorem huntIsLeftOnlyByAHeader : Obligations.HuntIsLeftOnlyByAHeader := by
  intro s t c hin ht hs hcap
  obtain ⟨i, u, hi, hx, rfl⟩ := (step_cycle_next_iff hin).mp ht
  obtain ⟨hctx, -⟩ := (selects_takeInput.mpr hi).exec_effect hx
  rw [besideStep_ctx, hctx] at hcap ⊢
  obtain ⟨hd, hb, hn⟩ := Context.header_of_next_capturing (x := s.takeInput.ctx) hs hcap
  obtain ⟨hr, he, hv⟩ := isDelivery_iff.mp hd
  exact ⟨hr, he, hv, hb, hn⟩

/-! ## The event record -/

/-- The byte rule that the hunt applies to a byte (41_sync.md R136, R137). -/
def huntOp (b : Byte) : Op := if b = Config.header then .huntHdr else .huntSkip

theorem hunt_obs_ops (pre : List Op) (b : Byte) (s : State) : (s.hunt pre b).obs.ops = pre ++ [huntOp b] := by
  unfold State.hunt huntOp
  split_ifs <;> rfl

theorem code_huntOp (b : Byte) : (huntOp b).event.code = if b = 0x0F#8 then 0 else 1 := by
  rw [huntOp, Config.header]
  split_ifs <;> rfl

/-- The operations a keyed operation performs, pre-step first (41_sync.md R130); none for an operation without a
key. -/
def opsOf (i : Instr) : List Op :=
  match i with
  | .reset _ _ _ _ _ _ _ => [.reset]
  | .errFlush _ _ _ _ _ _ => [.errFlush]
  | .noByte _ _ _ _ _ => [.noByte]
  | .gapFlush _ _ _ b => [.gapFlush, huntOp b]
  | .guard _ _ _ b => [.guard, huntOp b]
  | .huntHdr => [.huntHdr]
  | .huntSkip _ => [.huntSkip]
  | .capture _ _ => [.capture]
  | .footerOk => [.footerOk]
  | .footerBad _ => [.footerBad]
  | .ingest _ _ _ _ _ => []
  | .pack _ => []
  | .unpack _ => []
  | .gapTick _ _ _ _ => []
  | .ingestBatch _ _ => []
  | .dedup _ => []

theorem length_opsOf_le (i : Instr) : (opsOf i).length ≤ 2 := by
  cases i <;> simp [opsOf]

/-- The operation of a cycle is recorded as what it performs. -/
theorem Selects.exec_ops {c : Ciw} {s u : State} {i : Instr} (h : Selects c s i) (hx : exec i s = .next u) :
    u.obs.ops = opsOf i := by
  cases h
  case reset => cases hx; rfl
  case gapFlush => cases (ifLegal_eq_next.mp hx).2; exact hunt_obs_ops [.gapFlush] (ciwByte c) _
  case guard => cases (ifLegal_eq_next.mp hx).2; exact hunt_obs_ops [.guard] (ciwByte c) _
  case capture => rw [exec_capture (ifLegal_eq_next.mp hx).1 (by omega)] at hx; cases hx; rfl
  all_goals cases (ifLegal_eq_next.mp hx).2; rfl

/-- The record of a cycle is the codes of what the decoded operation performs. -/
theorem eventCodes_of_cycle {s t : State} {c : Ciw} {i : Instr} (hin : nextInput s = .cycle c)
    (ht : step s = .next t) (hk : decodeKey (stepKey c s) = .ok i) :
    eventCodes t = (opsOf i).map fun o => o.event.code := by
  have hi : Selects c s i := (decodeKey_stepKey_iff c s i).mp hk
  obtain ⟨j, u, hj, hx, rfl⟩ := (step_cycle_next_iff hin).mp ht
  obtain rfl := hi.unique hj
  rw [eventCodes, besideStep_obs_ops, (selects_takeInput.mpr hi).exec_ops hx]

/-- A pre-step and the hunt of its byte, as codes. -/
theorem codes_then_huntOp (o : Op) (b : Byte) :
    [o, huntOp b].map (fun o => o.event.code) = if b = 0x0F#8 then [o.event.code, 0] else [o.event.code, 1] := by
  rw [List.map_cons, List.map_singleton, code_huntOp]
  split_ifs <;> rfl

/-- Settles O22, operation by operation. -/
theorem eventCodesOfACycle : Obligations.EventCodesOfACycle := by
  intro s t c i hin ht hk
  rw [eventCodes_of_cycle hin ht hk]
  refine ⟨?reset, ?errFlush, ?noByte, ?gapFlush, ?guard, ?huntHdr, ?huntSkip, ?capture, ?footerOk, ?footerBad,
    ?length⟩
  case gapFlush => rintro _ _ _ b rfl; exact codes_then_huntOp .gapFlush b
  case guard => rintro _ _ _ b rfl; exact codes_then_huntOp .guard b
  case length => rw [List.length_map]; exact length_opsOf_le i
  all_goals intros; subst i; rfl

/-! ## Reads that are refused -/

theorem readHeld_of_not_avail {s : State} (h : frameAvail s = false) (f : Payload → PortValue) :
    readHeld s f = .fault .undefinedOutputRead := by
  simp [readHeld, heldPayload, h]

/-- Settles O43, port by port. -/
theorem undefinedOutputsAreNotRead : Obligations.UndefinedOutputsAreNotRead := by
  refine fun s => ⟨fun ha => ?_, fun hd hh => ?_, fun he => ?_, fun hd => ⟨?_, ?_⟩⟩
  · have hread := readHeld_of_not_avail ha
    exact ⟨hread _, fun _ => hread _, fun _ => hread _, hread _, hread _⟩
  · simp [readPort, hd, hh]
  · simp [readPort, he]
  · simp [readPort, hd]
  · simp [readPort, hd]

/-! ## Progress -/

/-- What the environment's duties ask of one input in a state (70_reset_and_hazards.md R245): one agent feeds the
context, and a port is read only in its window. -/
structure State.admits (s : State) (inp : Input) : Prop where
  oneAgent    : inp.isContended = false
  readDefined : ∀ port, inp = .read port → portDefined port s = true

theorem State.admits_of_not_mayStop {s : State} {inp : Input} (h : inp.mayStop = false) : s.admits inp where
  oneAgent := by
    cases inp with
    | contended c d => cases h
    | _ => rfl
  readDefined := by rintro port rfl; cases h

theorem consumerRead_of_defined {port : OutPort} {s : State} (h : portDefined port s = true) :
    ∃ t, consumerRead port s = .next t := by
  obtain ⟨v, hv⟩ := portDefined_iff.mp h
  exact ⟨_, by rw [consumerRead, hv]⟩

theorem deliverBatch_next (bs : List Byte) {s : State} (h : s.ctx.legal) : ∃ t, deliverBatch bs s = .next t := by
  obtain ⟨u, hu, -⟩ := ingestBytes_next bs (gapExceeded s) h
  exact ⟨_, by rw [deliverBatch_eq, hu, andThen_next]⟩

/-- An admitted input has a successor from a legal context. -/
theorem runInput_next {inp : Input} {s : State} (h : s.ctx.legal) (ha : s.admits inp) :
    ∃ t, runInput inp s = .next t := by
  cases inp with
  | cycle c =>
    obtain ⟨t, ht, -⟩ := clockEdge_effect c h
    exact ⟨t, ht⟩
  | batch bs => exact deliverBatch_next bs h
  | pack f => exact ⟨_, exec_pack f s⟩
  | unpack p => exact ⟨_, exec_unpack p s⟩
  | read port => exact consumerRead_of_defined (ha.readDefined port rfl)
  | contended c d => cases ha.oneAgent

theorem State.admits.takeInput {s : State} {inp : Input} (h : s.admits inp) : s.takeInput.admits inp := by
  refine ⟨h.oneAgent, fun port hp => portDefined_iff.mpr ?_⟩
  obtain ⟨v, hv⟩ := portDefined_iff.mp (h.readDefined port hp)
  exact ⟨v, (sameView_of_sameHardware (sameHardware_takeInput s) rfl port).symm.trans hv⟩

theorem step_next {s : State} (h : s.Inv) (ha : s.admits (nextInput s)) : ∃ t, step s = .next t :=
  runInput_next (s := s.takeInput) h.legal ha.takeInput

/-- A run ends where each step, by what is known of the steps still to come, has a successor. -/
theorem stepMany_next {P : Nat → State → Prop} (hadmits : ∀ k s, P (k + 1) s → s.admits (nextInput s))
    (hkeeps : ∀ k s t, P (k + 1) s → step s = .next t → P k t) (k : Nat) {s : State} (h : s.Inv) (hp : P k s) :
    ∃ t, stepMany k s = .next t := by
  induction k generalizing s with
  | zero => exact ⟨s, rfl⟩
  | succ k ih =>
    obtain ⟨u, hu⟩ := step_next h (hadmits k s hp)
    obtain ⟨t, ht⟩ := ih (stepKeepsTheInvariant s u h hu) (hkeeps k s u hp hu)
    exact ⟨t, by rw [stepMany_succ, hu, andThen_next, ht]⟩

/-- None of the next `k` pending inputs can stop the machine. -/
def State.safeInputs (k : Nat) (s : State) : Prop := ∀ i ∈ s.inputs.take k, i.mayStop = false

/-- With none pending, the idle cycle that comes next cannot stop it either. -/
theorem nextInput_not_mayStop {k : Nat} {s : State} (h : s.safeInputs (k + 1)) : (nextInput s).mayStop = false := by
  unfold nextInput
  split
  · rfl
  · next inp rest hs => exact h inp (by rw [hs, List.take_succ_cons]; exact List.mem_cons_self)

theorem State.safeInputs.step {k : Nat} {s t : State} (h : s.safeInputs (k + 1)) (ht : step s = .next t) :
    t.safeInputs k := by
  intro i hi
  rw [(nothingChangesTheParameters s t ht).2.1, ← List.drop_one, List.take_drop, Nat.add_comm] at hi
  exact h i (List.mem_of_mem_drop hi)

/-- Cycles run to their end from the invariant. -/
theorem stepMany_cycles_next (cs : List Ciw) {s : State} (h : s.Inv) :
    ∃ t, stepMany cs.length { s with inputs := cs.map Input.cycle ++ s.inputs } = .next t := by
  refine stepMany_next (P := State.safeInputs) (fun k s hp => State.admits_of_not_mayStop (nextInput_not_mayStop hp))
    (fun k s t hp ht => hp.step ht) cs.length
    (h.of_sameHardware ⟨rfl, rfl, rfl, rfl, rfl, rfl, rfl, rfl⟩ h.txFits) ?_
  intro i hi
  obtain ⟨c, -, rfl⟩ : ∃ c ∈ cs, Input.cycle c = i := by simpa using hi
  rfl

/-- Every step of the run takes an input that the duties admit. -/
def State.dutifulRun (k : Nat) (s : State) : Prop := ∀ x ∈ trace k s, x.1.admits x.2

theorem State.dutifulRun.admits {k : Nat} {s : State} (h : s.dutifulRun (k + 1)) : s.admits (nextInput s) :=
  h (s, nextInput s) List.mem_cons_self

theorem State.dutifulRun.step {k : Nat} {s t : State} (h : s.dutifulRun (k + 1)) (ht : step s = .next t) :
    t.dutifulRun k := fun x hx => h x (trace_succ ht k ▸ List.mem_cons_of_mem _ hx)

/-- Settles O50: the input is admitted in each case, and the step keeps the invariant. -/
theorem everyInputHasASuccessor : Obligations.EveryInputHasASuccessor := by
  refine ⟨fun s h hm => step_next h (State.admits_of_not_mayStop hm), fun s cs h => stepMany_cycles_next cs h, ?_⟩
  intro s k src con afterReset h hsrc hcon
  have hrun : s.dutifulRun k := fun x hx =>
    ⟨hsrc.oneAgent x.2 (List.mem_map_of_mem hx), hcon.readsDefined x hx⟩
  exact stepMany_next (fun k s hp => hp.admits) (fun k s t hp ht => hp.step ht) k h hrun

end Sys2Proof.Machine
end

section
/-! PROOF. Reset (70_reset_and_hazards.md R231, R234): what it clears, and that it erases the past. Two machines are
twins when no port tells them apart, now or after any inputs: `buf` at and above the count, `dd_last` before a first
delivery and the record of the run are not looked at. -/

namespace Sys2Proof.Machine

/-- Settles O10: the reset state, read field by field. -/
theorem resetClearsTheSession : Obligations.ResetClearsTheSession := by
  intro s e t v g st n b
  exact ⟨s.sessionReset, exec_reset e t v g st n b, rfl, rfl, rfl, rfl, rfl, frameAvail_of_idle rfl,
    fun hd => by simp [hd], fun hd => by simp [hd], fun _ => rfl, fun _ => rfl, rfl, rfl, rfl, rfl, rfl, rfl⟩

/-! ## Twins -/

/-- The stages agree on what they show: the last payload only once there is one (10_state.md R29). -/
structure State.sameHistory (s t : State) : Prop where
  ddHave    : s.ddHave = t.ddHave
  ddNotifyQ : s.ddNotifyQ = t.ddNotifyQ
  ddLast    : s.ddHave = true → s.ddLast = t.ddLast

/-- The machines agree on all that a port shows or a later step reads (70_reset_and_hazards.md R234). -/
structure State.twin (s t : State) : Prop where
  cfg      : s.cfg = t.cfg
  tx       : s.tx = t.tx
  inputs   : s.inputs = t.inputs
  legal    : s.ctx.legal
  ctx      : s.ctx.alike t.ctx
  gapCnt   : s.gapCnt = t.gapCnt
  ready    : s.frameReadyQ = t.frameReadyQ
  rejected : s.frameRejectedQ = t.frameRejectedQ
  history  : s.cfg.hasDedup = true → s.sameHistory t

theorem Context.alike.legal {x y : Context} (h : x.alike y) (hx : x.legal) : y.legal := by
  rwa [Context.legal, h.state, h.nbytes] at hx

/-- The consumer of the synchronizer cannot tell twins apart either. -/
theorem State.twin.alike {s t : State} (h : s.twin t) : s.alike t :=
  ⟨h.cfg, h.inputs, h.legal, h.ctx.legal h.legal, h.ctx, h.ready, fun _ => h.gapCnt⟩

/-- Twins show the same on every port. -/
theorem State.twin.view {s t : State} (h : s.twin t) : sameView s t := by
  obtain ⟨hready, havail, hheld⟩ := h.alike.view
  have hread : ∀ f : Payload → PortValue, readHeld s f = readHeld t f := fun f => by rw [readHeld, hheld, readHeld]
  intro port
  cases port with
  | txPayload => simp [readPort, txPayload, h.tx]
  | frameReady => simp [readPort, hready]
  | frameRejected => simp [readPort, h.cfg, h.rejected]
  | frameAvail => simp [readPort, havail]
  | rxPayload => exact hread _
  | rxCh i => exact hread _
  | rxSw k => exact hread _
  | rxFrameLost => exact hread _
  | rxFailsafe => exact hread _
  | syncState => simp [readPort, h.ctx.state]
  | syncNbytes => simp [readPort, h.ctx.nbytes]
  | ddNotify =>
    rw [readPort, readPort, ← h.cfg]
    split_ifs with hd
    · rw [(h.history hd).ddNotifyQ]
    · rfl
  | ddPayload =>
    rw [readPort, readPort, ← h.cfg]
    split_ifs with hd hs ht ht
    · rw [(h.history hd).ddLast hs]
    · exact absurd ((h.history hd).ddHave ▸ hs) ht
    · exact absurd ((h.history hd).ddHave.trans ht) hs
    · rfl
    · rfl

/-- What is driven, what is pending and what is recorded is no hardware. -/
theorem sameHardware_outside (s : State) (f : FrameIn) (o : Frame) (l : List Input) (r : Obs) :
    sameHardware s { s with tx := f, unpackOut := o, inputs := l, obs := r } :=
  ⟨rfl, rfl, rfl, rfl, rfl, rfl, rfl, rfl⟩

/-- What leaves the hardware of each as it was keeps machines twins, where they are then driven alike. -/
theorem State.twin.of_sameHardware {s t s' t' : State} (h : s.twin t) (hs : sameHardware s s') (ht : sameHardware t t')
    (htx : s'.tx = t'.tx) (hin : s'.inputs = t'.inputs) : s'.twin t' where
  cfg := by rw [hs.cfg, ht.cfg, h.cfg]
  tx := htx
  inputs := hin
  legal := hs.ctx ▸ h.legal
  ctx := by
    rw [hs.ctx, ht.ctx]
    exact h.ctx
  gapCnt := by rw [hs.gapCnt, ht.gapCnt, h.gapCnt]
  ready := by rw [hs.frameReadyQ, ht.frameReadyQ, h.ready]
  rejected := by rw [hs.frameRejectedQ, ht.frameRejectedQ, h.rejected]
  history hd := by
    have hst := h.history (hs.cfg ▸ hd)
    exact ⟨by rw [hs.ddHave, ht.ddHave, hst.ddHave], by rw [hs.ddNotifyQ, ht.ddNotifyQ, hst.ddNotifyQ],
      fun hh => by rw [hs.ddLast, ht.ddLast, hst.ddLast (hs.ddHave ▸ hh)]⟩

theorem State.twin.takeInput {s t : State} (h : s.twin t) : s.takeInput.twin t.takeInput :=
  h.of_sameHardware (sameHardware_takeInput s) (sameHardware_takeInput t) h.tx (congrArg List.tail h.inputs)

/-! ## Clock edges -/

/-- Whatever the machines were, reset makes them twins. -/
theorem twin_sessionReset {s t : State} (hcfg : s.cfg = t.cfg) (htx : s.tx = t.tx) (hin : s.inputs = t.inputs) :
    s.sessionReset.twin t.sessionReset where
  cfg := hcfg
  tx := htx
  inputs := hin
  legal := Context.flush_legal _
  ctx := Context.alike_flush _ _
  gapCnt := rfl
  ready := rfl
  rejected := rfl
  history hd := by
    have hs : s.cfg.hasDedup = true := hd
    have ht : t.cfg.hasDedup = true := hcfg ▸ hs
    exact ⟨by simp [hs, ht], by simp [hs, ht], by simp [hs]⟩

/-- The stages of twins stay in agreement at an edge: a reset forgets the history, and a delivery writes the same
payload to both. -/
theorem State.sameHistory.besideStep {u v : State} (h : u.sameHistory v) (hu : u.cfg.hasDedup = true)
    (hv : v.cfg.hasDedup = true) (c : Ciw) {i : Instr} (hbuf : i = .footerOk → u.ctx.buf = v.ctx.buf) :
    (u.besideStep c i).sameHistory (v.besideStep c i) := by
  cases hr : ciwRst c with
  | true =>
    obtain ⟨-, hhave, hnote, -⟩ := besideStep_dedup_reset c i u hu hr
    obtain ⟨-, hhave', hnote', -⟩ := besideStep_dedup_reset c i v hv hr
    exact ⟨hhave.trans hhave'.symm, hnote.trans hnote'.symm, by simp [hhave]⟩
  | false =>
    by_cases hi : i = .footerOk
    · subst hi
      obtain ⟨hlast, hhave, hnote, -⟩ := besideStep_dedup_accept c u hu hr
      obtain ⟨hlast', hhave', hnote', -⟩ := besideStep_dedup_accept c v hv hr
      refine ⟨hhave.trans hhave'.symm, ?_, fun _ => by rw [hlast, hlast', hbuf rfl]⟩
      rw [hnote, hnote', hbuf rfl, ← h.ddHave]
      cases hd : u.ddHave with
      | true => rw [h.ddLast hd]
      | false => rfl
    · obtain ⟨hlast, hhave, hnote, -⟩ := besideStep_dedup_other c i u hu hr hi
      obtain ⟨hlast', hhave', hnote', -⟩ := besideStep_dedup_other c i v hv hr hi
      exact ⟨by rw [hhave, hhave', h.ddHave], hnote.trans hnote'.symm,
        fun hd => by rw [hlast, hlast', h.ddLast (hhave ▸ hd)]⟩

/-- What an edge does beside the operation keeps machines twins. A delivered buffer is full, so twins agree on it. -/
theorem State.twin.besideStep {u v : State} (h : u.twin v) (c : Ciw) {i : Instr}
    (hfull : i = .footerOk → u.ctx.nbytes = 25#5) : (u.besideStep c i).twin (v.besideStep c i) where
  cfg := by simpa using h.cfg
  tx := by simpa using h.tx
  inputs := by simpa using h.inputs
  legal := by simpa using h.legal
  ctx := by simpa using h.ctx
  gapCnt := by simp [h.cfg, h.gapCnt]
  ready := by simpa using h.ready
  rejected := by simpa using h.rejected
  history hd := by
    have hu : u.cfg.hasDedup = true := by simpa using hd
    exact (h.history hu).besideStep hu (h.cfg ▸ hu) c fun hi => by rw [h.ctx.eq_of_full (hfull hi)]

/-- A reset edge makes twins of any two machines. -/
theorem clockEdge_reset_twin {s t : State} (hcfg : s.cfg = t.cfg) (htx : s.tx = t.tx) (hin : s.inputs = t.inputs)
    {c : Ciw} (hr : ciwRst c = true) : outcomesAgree State.twin (clockEdge c s) (clockEdge c t) := by
  rw [clockEdge_of_selects (.reset hr) (exec_reset ..), clockEdge_of_selects (.reset hr) (exec_reset ..)]
  exact (twin_sessionReset hcfg htx hin).besideStep c nofun

theorem State.twin.gapExceeded {s t : State} (h : s.twin t) : gapExceeded s = gapExceeded t := by
  rw [Machine.gapExceeded, h.cfg, h.gapCnt, Machine.gapExceeded]

/-- A cycle selects the same operation in twins: it looks at nothing that may differ. -/
theorem State.twin.selects {s t : State} (h : s.twin t) {c : Ciw} {i : Instr} (hi : Selects c s i) :
    Selects c t i := by
  have hkey : stepKey c t = stepKey c s := by rw [stepKey, stepKey, h.gapExceeded, h.ctx.state, h.ctx.nbytes]
  rwa [← decodeKey_stepKey_iff, hkey, decodeKey_stepKey_iff]

/-- The operation of a cycle that is no reset keeps machines twins. -/
theorem State.twin.exec {s t u v : State} (h : s.twin t) {c : Ciw} {i : Instr} (hr : ciwRst c = false)
    (hi : Selects c s i) (hu : exec i s = .next u) (hv : exec i t = .next v) : u.twin v := by
  have hj := h.selects hi
  obtain ⟨hcfg, htx, -, hin, -, hgap, hlast, -, -, hkeep, -⟩ := hi.exec_frame hu
  obtain ⟨hcfg', htx', -, hin', -, hgap', hlast', -, -, hkeep', -⟩ := hj.exec_frame hv
  obtain ⟨hhave, hnote⟩ := hkeep hr
  obtain ⟨hhave', hnote'⟩ := hkeep' hr
  have hctx := (hi.exec_effect hu).1
  have hctx' := (hj.exec_effect hv).1
  obtain ⟨hready, hrej⟩ := hi.exec_pulses hu
  obtain ⟨hready', hrej'⟩ := hj.exec_pulses hv
  exact
    { cfg := by rw [hcfg, hcfg', h.cfg]
      tx := by rw [htx, htx', h.tx]
      inputs := by rw [hin, hin', h.inputs]
      legal := hctx ▸ Context.legal_next h.legal
      ctx := by
        rw [hctx, hctx', h.gapExceeded]
        exact h.ctx.next ..
      gapCnt := by rw [hgap, hgap', h.gapCnt]
      ready := Bool.eq_iff_iff.mpr (hready.trans hready'.symm)
      rejected := Bool.eq_iff_iff.mpr (hrej.trans (h.cfg ▸ hrej'.symm))
      history := fun hd => by
        have hs := h.history (hcfg ▸ hd)
        exact ⟨by rw [hhave, hhave', hs.ddHave], by rw [hnote, hnote', hs.ddNotifyQ],
          fun hh => by rw [hlast, hlast', hs.ddLast (hhave ▸ hh)]⟩ }

/-- A frame that has just been accepted is full (41_sync.md R139). -/
theorem nbytes_of_footerOk {s u : State} (h : exec .footerOk s = .next u) : u.ctx.nbytes = 25#5 := by
  cases (ifLegal_eq_next.mp h).2
  rfl

/-- Every clock edge keeps machines twins. -/
theorem State.twin.clockEdge {s t : State} (h : s.twin t) (c : Ciw) :
    outcomesAgree State.twin (clockEdge c s) (clockEdge c t) := by
  cases hr : ciwRst c with
  | true => exact clockEdge_reset_twin h.cfg h.tx h.inputs hr
  | false =>
    obtain ⟨i, hi⟩ := exists_selects c h.legal
    obtain ⟨u, hu⟩ := exec_of_selects hi h.legal
    obtain ⟨v, hv⟩ := exec_of_selects (h.selects hi) (h.ctx.legal h.legal)
    rw [clockEdge_of_selects hi hu, clockEdge_of_selects (h.selects hi) hv]
    exact (h.exec hr hi hu hv).besideStep c fun e => nbytes_of_footerOk (e ▸ hu)

/-! ## Runs -/

/-- Outcomes that agree go on to outcomes that agree. -/
theorem outcomesAgree.andThen {R R' : State → State → Prop} {o o' : Host.Outcome State Fault Refusal}
    {f : State → Host.Outcome State Fault Refusal} (h : outcomesAgree R o o')
    (hf : ∀ s t, R s t → outcomesAgree R' (f s) (f t)) : outcomesAgree R' (andThen o f) (andThen o' f) := by
  cases o <;> cases o'
  case next.next s t => exact hf s t h
  case fault.fault => exact h
  case refused.refused => exact h
  all_goals exact h.elim

theorem State.twin.byteRun {s t : State} (h : s.twin t) (bs : List Byte) :
    outcomesAgree State.twin (byteRun bs s) (byteRun bs t) := by
  induction bs generalizing s t with
  | nil => exact h
  | cons b bs ih => exact (h.clockEdge (byteCiw b)).andThen fun _ _ => ih

/-- A consumer reads the same from twins, or is refused for the same reason. -/
theorem State.twin.consumerRead {s t : State} (h : s.twin t) (port : OutPort) :
    outcomesAgree State.twin (consumerRead port s) (consumerRead port t) := by
  rw [Machine.consumerRead, Machine.consumerRead, h.view port]
  cases readPort port t with
  | next v => exact h.of_sameHardware (sameHardware_outside s ..) (sameHardware_outside t ..) h.tx h.inputs
  | fault r => rfl
  | refused r => rfl

/-- Every input keeps machines twins, a delivered buffer as its clock edges. -/
theorem State.twin.runInput {s t : State} (h : s.twin t) (inp : Input) :
    outcomesAgree State.twin (runInput inp s) (runInput inp t) := by
  cases inp with
  | cycle c => exact h.clockEdge c
  | batch bs =>
    show outcomesAgree _ (deliverBatch bs s) (deliverBatch bs t)
    rw [deliverBatch_eq_byteRun, deliverBatch_eq_byteRun]
    exact h.byteRun bs
  | pack f =>
    exact h.of_sameHardware (sameHardware_outside s ..) (sameHardware_outside t ..) (by rw [h.cfg]) h.inputs
  | unpack p => exact h.of_sameHardware (sameHardware_outside s ..) (sameHardware_outside t ..) h.tx h.inputs
  | read port => exact h.consumerRead port
  | contended c d => rfl

theorem State.twin.step {s t : State} (h : s.twin t) : outcomesAgree State.twin (step s) (step t) := by
  rw [Machine.step, Machine.step, nextInput_congr h.inputs]
  exact h.takeInput.runInput _

/-- Twins show the same after any run. -/
theorem State.twin.stepMany {s t : State} (h : s.twin t) (k : Nat) :
    outcomesAgree sameView (stepMany k s) (stepMany k t) := by
  induction k generalizing s t with
  | zero => exact h.view
  | succ k ih => exact h.step.andThen fun _ _ => ih

/-- Settles O52: the reset edge makes the machines twins. -/
theorem resetErasesThePast : Obligations.ResetErasesThePast := by
  intro s t c k hcfg htx hin hnext hr
  rw [stepMany_succ, stepMany_succ, step_cycle hnext, step_cycle ((nextInput_congr hin).symm.trans hnext)]
  exact (clockEdge_reset_twin (s := s.takeInput) (t := t.takeInput) hcfg htx (congrArg List.tail hin) hr).andThen
    fun _ _ h => h.stepMany k

end Sys2Proof.Machine
end
